-- ==== Sys2Proof/Word.lean ====
section
/-! DEFINITION. The value types of the engine (R11, 00_scope.md): bytes, nibbles and unsigned integers. -/

namespace Sys2Proof

/-- A byte, unsigned, bit 0 the least significant bit (R10, R11). -/
abbrev Byte := BitVec 8

/-- A 4-bit table index, one nibble of the parameter byte (R82). -/
abbrev Nibble := BitVec 4

/-- An unsigned integer of `INT_W` bits: `IN_FI`, `IN_DI`, `IN_FMAX`, `OUT_FI`, `OUT_DI`, `OUT_FMAX` (R27, R35). R8 makes
`INT_W` a configuration field, so the width is not in the type: such a value is below `2 ^ INT_W` (log 6). No rule shifts, masks
or adds one (R65, R103). -/
abbrev Word := Nat

end Sys2Proof
end

