-- ==== Sys2Proof/Config.lean ====
section
/-! DEFINITION. What an implementation fixes (R8, 00_scope.md; R45, R46, R110, R111), the free draws of the
Transport (R222, 44_transport.md), and the free order of engine steps and host actions (R23, R69). -/

namespace Sys2Proof

/-- An entry of `FI_TABLE` (R45). -/
inductive FiEntry where
  | valid (fi fmaxHz : Nat)
  | rfu
deriving DecidableEq, Repr, Inhabited

/-- An entry of `DI_TABLE` (R46). -/
inductive DiEntry where
  | valid (di : Nat)
  | rfu
deriving DecidableEq, Repr, Inhabited

/-- The parameters of R8. The two rate tables are the engine's read-only storage (R45 to R47): no operation
writes them. -/
structure Config where
  /-- `ATR_MAX`, capacity of `ATR_BUF`. -/
  atrMax    : Nat
  /-- `TX_DATA_MAX`, outgoing bytes after the header. -/
  txDataMax : Nat
  /-- `RX_MAX`, capacity of `RX_BUF` and `DATA_TMP`, and the largest `RX_LEN`. -/
  rxMax     : Nat
  /-- `INT_W`, the width of the integer registers. -/
  intW      : Nat
  /-- `FI_TABLE`. -/
  fiTable   : Vector FiEntry 16
  /-- `DI_TABLE`. -/
  diTable   : Vector DiEntry 16
deriving DecidableEq, Repr

/-- `TX_MAX = 5 + TX_DATA_MAX` (R8). -/
def Config.txMax (c : Config) : Nat := 5 + c.txDataMax

/-- `v` is an unsigned `INT_W`-bit value (R11). -/
def Config.fits (c : Config) (v : Nat) : Bool := decide (v < 2 ^ c.intW)

/-- A register that holds an `INT_W`-bit value, if any. -/
def Config.fitsReg (c : Config) : Option Word → Bool
  | some v => c.fits v
  | none => true

/-- What R45 says of an entry, and that its values are `INT_W`-bit values. -/
def Config.fiEntryWf (c : Config) : FiEntry → Bool
  | .valid fi fmaxHz => decide (0 < fi) && decide (0 < fmaxHz) && c.fits fi && c.fits fmaxHz
  | .rfu => true

/-- What R46 says of an entry, and that its value is an `INT_W`-bit value. -/
def Config.diEntryWf (c : Config) : DiEntry → Bool
  | .valid di => decide (0 < di) && c.fits di
  | .rfu => true

/-- A configuration whose tables are as R45 and R46 say. -/
def Config.wf (c : Config) : Bool := c.fiTable.toList.all c.fiEntryWf && c.diTable.toList.all c.diEntryWf

/-- The contents of `FI_TABLE` (R110). -/
def Config.isoFiTable : Vector FiEntry 16 :=
  #v[.valid 372 4000000, .valid 372 5000000, .valid 558 6000000, .valid 744 8000000,
     .valid 1116 12000000, .valid 1488 16000000, .valid 1860 20000000, .rfu,
     .rfu, .valid 512 5000000, .valid 768 7500000, .valid 1024 10000000,
     .valid 1536 15000000, .valid 2048 20000000, .rfu, .rfu]

/-- The contents of `DI_TABLE` (R111), with entry 7 the parameter `DI7`. -/
def Config.isoDiTable (di7 : DiEntry) : Vector DiEntry 16 :=
  #v[.rfu, .valid 1, .valid 2, .valid 4, .valid 8, .valid 16, .valid 32, di7,
     .valid 12, .valid 20, .rfu, .rfu, .rfu, .rfu, .rfu, .rfu]

/-- The sizes of R8 and the tables of R110 and R111, for a value of `DI7` (log 6, log 7). -/
def Config.iso (di7 : DiEntry) : Config :=
  { atrMax := 33, txDataMax := 255, rxMax := 256, intW := 32,
    fiTable := Config.isoFiTable, diTable := Config.isoDiTable di7 }

/-- Every parameter at its default of R8: `DI7 = 64`. -/
def Config.standard : Config := Config.iso (.valid 64)

/-- One answer of the Transport (R220, R221). A `Send` takes `ok _` as success and `err` as an error. A
`Recv(n)` takes `err` as an error and `ok bs` as the first `n` bytes of `bs` (log 3). -/
inductive TransportAnswer where
  | ok (bytes : List Byte)
  | err
deriving DecidableEq, Repr, Inhabited

/-- The Transport's free draw at its `n`-th call (R222): no body, so nothing is known of it (log 2). -/
opaque Config.freeAnswer : Nat → TransportAnswer

/-- Who moves next where both can: a busy engine, which takes its steps without host action (R23), and its host, which
may read, write or reset meanwhile. -/
inductive Agent where
  | engine
  | host
deriving DecidableEq, Repr, Inhabited

/-- Who takes the `n`-th turn that both a busy engine and its host could take. The spec orders the events totally (R69)
and does not say which comes first: no body, so nothing is known of it (log 4). -/
opaque Config.freeTurn : Nat → Agent

end Sys2Proof
end

