-- ==== Sys2Proof/Syntax.lean ====
section
/-! DEFINITION. The instructions: one constructor per row of spec/opcode_table.json (30_encoding.md). -/

namespace Sys2Proof

/-- The rows of spec/opcode_table.json. The five host commands take their operands from request registers (R81);
the other rows are the byte formats the engine builds, parses or classifies (R80). -/
inductive Instr where
  /-- `DECODE`, `CMD = 0x01` (R115). -/
  | decode
  /-- `ENCODE`, `CMD = 0x02` (R121). -/
  | encode
  /-- `PARSE_ATR`, `CMD = 0x03` (R141). -/
  | parseAtr
  /-- `NEGOTIATE_PPS`, `CMD = 0x04` (R161). -/
  | negotiatePps
  /-- `APDU_EXCHANGE`, `CMD = 0x05` (R181). -/
  | apduExchange
  /-- `PARAM_BYTE`: Fi index in bits 7:4, Di index in bits 3:0 (R82). -/
  | paramByte (fiIdx diIdx : Nibble)
  /-- `TS_DIRECT`: TS `0x3B` (R85). -/
  | tsDirect
  /-- `TS_INVERSE`: TS `0x3F` (R85). -/
  | tsInverse
  /-- `TS_INVALID`: any other TS (R85). -/
  | tsInvalid (ts : Byte)
  /-- `T0_TA1_PRESENT`: T0 with bit 4 set; `hi` is bits 7:5 and `lo` bits 3:0, which the engine does not read (R86). -/
  | t0Ta1Present (hi : BitVec 3) (lo : Nibble)
  /-- `T0_TA1_ABSENT`: T0 with bit 4 clear (R86). -/
  | t0Ta1Absent (hi : BitVec 3) (lo : Nibble)
  /-- `PPS_FRAME`: `[0xFF, 0x10, PPS1, 0xFF ^ 0x10 ^ PPS1]` (R87). -/
  | ppsFrame (pps1 : Byte)
  /-- `PB_NULL`: procedure byte `0x60` (R92, order 1). -/
  | pbNull
  /-- `PB_ACK`: a procedure byte equal to INS (R92, order 2). -/
  | pbAck (ins : Byte)
  /-- `PB_SW1_6X`: `0x61..0x6F`, low nibble `lo` (R92, order 3). -/
  | pbSw16x (lo : Nibble)
  /-- `PB_SW1_9X`: `0x90..0x9F`, low nibble `lo` (R92, order 3). -/
  | pbSw19x (lo : Nibble)
  /-- `PB_INVALID`: every other procedure byte (R92, order 4). -/
  | pbInvalid (pb : Byte)
deriving DecidableEq, Repr

/-- The format in which a byte sequence is read: the table's "format" column (R80). One byte value belongs to
several formats, so the decoder is told which one it reads. A procedure byte is read against the command's INS (R92). -/
inductive Context where
  | hostCommand
  | paramByte
  | atrTs
  | atrT0
  | ppsFrame
  | procedureByte (ins : Byte)
deriving DecidableEq, Repr

end Sys2Proof
end

