-- ==== Sys2Proof/WellFormed.lean ====
section
/-! DEFINITION. Which instruction terms stand for an encoding of the spec (30_encoding.md). -/

namespace Sys2Proof

/-- The static checks of an instruction's fields. A TS of the invalid class is neither `0x3B` nor `0x3F` (R85); an
ACK byte is not `0x60`, which is NULL whatever INS is; a SW1 byte of the 6X class is not `0x60`; an invalid procedure byte has
no high nibble 6 or 9 (R92). -/
def Instr.wf : Instr → Bool
  | .decode | .encode | .parseAtr | .negotiatePps | .apduExchange => true
  | .paramByte _ _ => true
  | .tsDirect | .tsInverse => true
  | .tsInvalid ts => ts != 0x3B#8 && ts != 0x3F#8
  | .t0Ta1Present _ _ | .t0Ta1Absent _ _ => true
  | .ppsFrame _ => true
  | .pbNull => true
  | .pbAck ins => ins != 0x60#8
  | .pbSw16x lo => lo != 0#4
  | .pbSw19x _ => true
  | .pbInvalid pb => pb.extractLsb' 4 4 != 6#4 && pb.extractLsb' 4 4 != 9#4

/-- The format an instruction belongs to, and for a procedure byte what R92's order demands of INS: an ACK byte
equals INS, and a SW1 or invalid byte differs from it. -/
def Instr.fits : Context → Instr → Bool
  | .hostCommand, .decode | .hostCommand, .encode | .hostCommand, .parseAtr
  | .hostCommand, .negotiatePps | .hostCommand, .apduExchange => true
  | .paramByte, .paramByte _ _ => true
  | .atrTs, .tsDirect | .atrTs, .tsInverse | .atrTs, .tsInvalid _ => true
  | .atrT0, .t0Ta1Present _ _ | .atrT0, .t0Ta1Absent _ _ => true
  | .ppsFrame, .ppsFrame _ => true
  | .procedureByte _, .pbNull => true
  | .procedureByte ins, .pbAck b => b == ins
  | .procedureByte ins, .pbSw16x lo => (6#4 ++ lo) != ins
  | .procedureByte ins, .pbSw19x lo => (9#4 ++ lo) != ins
  | .procedureByte ins, .pbInvalid b => b != ins
  | _, _ => false

/-- Well-formed in a format: the static checks and the format's own. -/
def Instr.wfIn (c : Context) (i : Instr) : Bool := i.wf && i.fits c

end Sys2Proof
end

