-- ==== Sys2Proof/Decode.lean ====
section
/-! DEFINITION. The decoder, total on any bytes in any format, and the encoder (30_encoding.md). -/

namespace Sys2Proof

/-- `b[7:4]` (R10). -/
def hiNibble (b : Byte) : Nibble := b.extractLsb' 4 4

/-- `b[3:0]` (R10). -/
def loNibble (b : Byte) : Nibble := b.extractLsb' 0 4

/-- `(h << 4) | l` (R64, R83). -/
def joinNibbles (h l : Nibble) : Byte := (h.setWidth 8 <<< 4) ||| l.setWidth 8

/-- `(T0 & 0x10) != 0` (R86). -/
def t0DeclaresTa1 (t0 : Byte) : Bool := (t0 &&& 0x10#8) != 0#8

/-- The checksum byte PCK, the exclusive-or of PPSS, PPS0 and PPS1 (R88). -/
def pck (pps1 : Byte) : Byte := 0xFF#8 ^^^ 0x10#8 ^^^ pps1

/-- The PPS frame, PPSS first (R63, R87). -/
def ppsFrameBytes (pps1 : Byte) : List Byte := [0xFF#8, 0x10#8, pps1, pck pps1]

/-- The classes of the initial ATR byte (R85). -/
inductive TsClass where
  | direct
  | inverse
  | invalid
deriving DecidableEq, Repr

/-- R85. -/
def tsClass (ts : Byte) : TsClass :=
  if ts = 0x3B#8 then .direct else if ts = 0x3F#8 then .inverse else .invalid

/-- The classes of a procedure byte (R92). -/
inductive PbClass where
  | null
  | ack
  | sw1Six
  | sw1Nine
  | invalid
deriving DecidableEq, Repr

/-- R92, "evaluated in this order": NULL, then ACK, then the SW1 pattern, then invalid. -/
def pbClass (ins pb : Byte) : PbClass :=
  if pb = 0x60#8 then .null
  else if pb = ins then .ack
  else if hiNibble pb = 6#4 then .sw1Six
  else if hiNibble pb = 9#4 then .sw1Nine
  else .invalid

/-- Why a byte sequence is no encoding of a format. -/
inductive DecodeReject where
  /-- Fewer bytes than the format has. -/
  | truncated
  /-- A reserved `CMD` value (R95). -/
  | reservedCommand (c : Byte)
  /-- Four bytes that are no PPS frame of R87. -/
  | notPpsFrame
deriving DecidableEq, Repr

/-- What the decoder answers: an instruction with the bytes after it, or a named rejection. -/
inductive Decoded where
  | ok (i : Instr) (rest : List Byte)
  | reject (r : DecodeReject)
deriving DecidableEq, Repr

/-- The host command of a `CMD` value (R24); every other value is reserved. -/
def commandOf (c : Byte) : Option Instr :=
  if c = 0x01#8 then some .decode
  else if c = 0x02#8 then some .encode
  else if c = 0x03#8 then some .parseAtr
  else if c = 0x04#8 then some .negotiatePps
  else if c = 0x05#8 then some .apduExchange
  else none

/-- A TS byte as an instruction (R85). -/
def tsInstr (ts : Byte) : Instr :=
  match tsClass ts with
  | .direct => .tsDirect
  | .inverse => .tsInverse
  | .invalid => .tsInvalid ts

/-- A T0 byte as an instruction (R86). -/
def t0Instr (t0 : Byte) : Instr :=
  if t0DeclaresTa1 t0 then .t0Ta1Present (t0.extractLsb' 5 3) (loNibble t0)
  else .t0Ta1Absent (t0.extractLsb' 5 3) (loNibble t0)

/-- A procedure byte as an instruction (R92). -/
def pbInstr (ins pb : Byte) : Instr :=
  match pbClass ins pb with
  | .null => .pbNull
  | .ack => .pbAck pb
  | .sw1Six => .pbSw16x (loNibble pb)
  | .sw1Nine => .pbSw19x (loNibble pb)
  | .invalid => .pbInvalid pb

/-- The decoder: reads one instruction of a format from the front of a byte sequence. -/
def decode (c : Context) (bytes : List Byte) : Decoded :=
  match bytes with
  | [] => .reject .truncated
  | b :: rest =>
    match c with
    | .hostCommand =>
      match commandOf b with
      | some i => .ok i rest
      | none => .reject (.reservedCommand b)
    | .paramByte => .ok (.paramByte (hiNibble b) (loNibble b)) rest
    | .atrTs => .ok (tsInstr b) rest
    | .atrT0 => .ok (t0Instr b) rest
    | .procedureByte ins => .ok (pbInstr ins b) rest
    | .ppsFrame =>
      match rest with
      | pps0 :: pps1 :: k :: rest' =>
        if b = 0xFF#8 ∧ pps0 = 0x10#8 ∧ k = pck pps1 then .ok (.ppsFrame pps1) rest'
        else .reject .notPpsFrame
      | _ => .reject .truncated

/-- The encoder: the bytes of an instruction, in wire order (R24, R63, R82, R85, R86, R87, R92). -/
def encode : Instr → List Byte
  | .decode => [0x01#8]
  | .encode => [0x02#8]
  | .parseAtr => [0x03#8]
  | .negotiatePps => [0x04#8]
  | .apduExchange => [0x05#8]
  | .paramByte f d => [joinNibbles f d]
  | .tsDirect => [0x3B#8]
  | .tsInverse => [0x3F#8]
  | .tsInvalid ts => [ts]
  | .t0Ta1Present hi lo => [hi ++ 1#1 ++ lo]
  | .t0Ta1Absent hi lo => [hi ++ 0#1 ++ lo]
  | .ppsFrame p => ppsFrameBytes p
  | .pbNull => [0x60#8]
  | .pbAck ins => [ins]
  | .pbSw16x lo => [joinNibbles 6#4 lo]
  | .pbSw19x lo => [joinNibbles 9#4 lo]
  | .pbInvalid b => [b]

/-- The format in which a lone byte is read where no format is given. The byte rows of the table overlap, so this
is a choice (log 5): a command code is a command, `0x3B` and `0x3F` are TS, a byte with high nibble 6 or 9 is a procedure byte
(read with INS `0x00`), and any other byte is a T0. -/
def tableContext (b : Byte) : Context :=
  if (commandOf b).isSome then .hostCommand
  else if b = 0x3B#8 ∨ b = 0x3F#8 then .atrTs
  else if hiNibble b = 6#4 ∨ hiNibble b = 9#4 then .procedureByte 0x00#8
  else .atrT0

/-- Byte `k` of a number, byte 0 in its bits 7:0. -/
def byteOf (w k : Nat) : Byte := BitVec.ofNat 8 (w / 256 ^ k)

/-- The four bytes of a 32-bit table word, the first byte in bits 7:0. -/
def frameOfWord (w : Nat) : List Byte := [byteOf w 0, byteOf w 1, byteOf w 2, byteOf w 3]

/-- The instruction the decoder reads from a table word: one byte in its `tableContext`, or a four-byte PPS frame
(log 5). No row has another size. -/
def decodeTableWord (nbits w : Nat) : Option Instr :=
  if nbits = 8 then
    match decode (tableContext (byteOf w 0)) [byteOf w 0] with
    | .ok i _ => some i
    | .reject _ => none
  else if nbits = 32 then
    match decode .ppsFrame (frameOfWord w) with
    | .ok i _ => some i
    | .reject _ => none
  else none

end Sys2Proof
end

