-- ==== Sys2Proof/Machine/State.lean ====
section
/-! DEFINITION. The state of the engine, its host and its Transport port, as plain data (10_state.md), with the
outcomes a step can have. -/

namespace Sys2Proof.Machine

/-- The values of the state register `st` (R22). The codes `0xD` and `0xE` are unused. -/
inductive St where
  | idle
  | dec
  | enc
  | atr
  | ppsSend
  | ppsRecv
  | ppsCheck
  | apCheck
  | apHdr
  | apProc
  | apAck
  | apSw
  | apSw2
  | done
deriving DecidableEq, Repr

/-- A byte buffer: (index, byte) pairs with rising indices. An index that is not listed is unwritten and has no
value (R42, R48). -/
abbrev Memory := List Host.Cell

/-- The request registers, written by the host (R26 to R31). `none` is the spec's "unwritten" (R51; log 1). -/
structure Request where
  inByte : Option Byte
  inFi   : Option Word
  inDi   : Option Word
  inFmax : Option Word
  atrLen : Option Nat
  atrBuf : Memory
  pps1   : Option Byte
  txLen  : Option Nat
  txBuf  : Memory
  rxLen  : Option Nat
deriving DecidableEq, Repr

/-- The result registers, written by the engine (R33 to R40). -/
structure Results where
  err      : Option Byte
  outFi    : Option Word
  outDi    : Option Word
  outFmax  : Option Word
  outByte  : Option Byte
  conv     : Option (BitVec 2)
  ta1Valid : Option Bool
  ta1      : Option Byte
  respLen  : Option Nat
  rxBuf    : Memory
  sw1      : Option Byte
  sw2      : Option Byte
deriving DecidableEq, Repr

/-- The internal working registers, which the host cannot see (R43, R44). -/
structure Working where
  ppsReq  : Memory
  ppsRsp  : Memory
  pb      : Option Byte
  k       : Option Nat
  dataTmp : Memory
deriving DecidableEq, Repr

/-- One event of the engine's trace: a Transport call with its answer (R13, R19). -/
inductive Event where
  | send (bytes : List Byte) (ok : Bool)
  | recv (n : Nat) (answer : Option (List Byte))
deriving DecidableEq, Repr

/-- The Transport port. `answers` are the Transport's answers already fixed, oldest first; beyond them an answer is
the free draw `Config.freeAnswer` at the number of calls made (R222; log 2). `trace` is the model's observation (R19,
R259), oldest first. -/
structure Port where
  answers : List TransportAnswer
  calls   : Nat
  trace   : List Event
deriving DecidableEq, Repr

/-- The registers, as a host read or a fault names them. -/
inductive Reg where
  | st
  | busy
  | cmd
  | inByte
  | inFi
  | inDi
  | inFmax
  | atrLen
  | atrBuf (i : Nat)
  | pps1
  | txLen
  | txBuf (i : Nat)
  | rxLen
  | err
  | cat
  | outFi
  | outDi
  | outFmax
  | outByte
  | conv
  | ta1Valid
  | ta1
  | respLen
  | rxBuf (i : Nat)
  | sw1
  | sw2
  | ppsReq (i : Nat)
  | ppsRsp (i : Nat)
  | pb
  | k
  | dataTmp (i : Nat)
deriving DecidableEq, Repr

/-- The named checks of R96. -/
inductive WfCheck where
  | wfDecode
  | wfEncode
  | wfAtr
  | wfPps
  | wfApduHdr
  | wfApduLen
  | wfApduBuf
deriving DecidableEq, Repr

/-- The host's calls on the Transport (R227 to R231). They leave no event in the engine's trace. `getAtr` carries
the byte sequence it returned. -/
inductive SetupCall where
  | configureClock (frequencyHz : Nat)
  | configureBaud (fi di : Nat)
  | configureProtocolT0
  | configureTiming (waitTimes : List Nat)
  | coldReset
  | getAtr (atr : List Byte)
deriving DecidableEq, Repr

/-- One action of the host (R101; log 4). `setAtrBuf` and `setTxBuf` write a buffer from index 0 and its length
register, as R101's `set BUF = [..]`; `writeAtrBuf` and `writeTxBuf` are `MemWrite` of R12. `awaitDone` waits until the engine is
not busy. `powerOn` is the power-on reset (R270). -/
inductive HostAction where
  | setInByte (v : Byte)
  | setInFi (v : Word)
  | setInDi (v : Word)
  | setInFmax (v : Word)
  | setAtrLen (n : Nat)
  | setAtrBuf (bytes : List Byte)
  | writeAtrBuf (i : Nat) (bytes : List Byte)
  | setPps1 (v : Byte)
  | setTxLen (n : Nat)
  | setTxBuf (bytes : List Byte)
  | writeTxBuf (i : Nat) (bytes : List Byte)
  | setRxLen (n : Nat)
  | writeCmd (c : Byte)
  | read (r : Reg)
  | setup (call : SetupCall)
  | awaitDone
  | powerOn
deriving DecidableEq, Repr

/-- Why a host action is not accepted (R253). It writes no `ERR` and leaves `st` unchanged. -/
inductive HostRefusal where
  /-- A reserved `CMD` value (R95). -/
  | reservedCommand (c : Byte)
  /-- A command whose request registers are not well-formed (R96). -/
  | illFormed (check : WfCheck)
  /-- A write while the engine is busy (R25, R32). -/
  | busy
deriving DecidableEq, Repr

/-- What the host learns of its action. -/
inductive HostReply where
  | accepted
  | value (v : Nat)
  | refused (r : HostRefusal)
deriving DecidableEq, Repr

/-- A host action taken, with its reply. -/
structure HostEvent where
  action : HostAction
  reply  : HostReply
deriving DecidableEq, Repr

/-- The host: its actions still to come, and those taken, oldest first (log 4). -/
structure HostSide where
  pending : List HostAction
  log     : List HostEvent
deriving DecidableEq, Repr

/-- The order of engine steps and host actions while the engine is busy. `turns` are the turns already fixed, oldest
first; beyond them a turn is the free choice `Config.freeTurn` at the number of turns taken (log 4). -/
structure Schedule where
  turns : List Agent
  count : Nat
deriving DecidableEq, Repr

/-- The whole state. `cfg` holds the parameters of R8 and the read-only rate tables (R45, R46). -/
structure State where
  cfg  : Config
  st   : St
  req  : Request
  res  : Results
  work : Working
  port : Port
  host : HostSide
  sched : Schedule
deriving DecidableEq, Repr

/-- What stops the machine. -/
inductive Fault where
  /-- A read of an unwritten register, by the host or by a step, and a host read of a result register while busy. Safe: the
  spec gives the read no value and names its treatment a fault (R42, R280; U4 and U5 of 93_implementation_defined.md). -/
  | unwrittenRead (r : Reg)
  /-- A host read that the spec forbids: `CMD` is write-only and has no stored value (R24, R51), the host cannot see the
  internal registers (R43, R44), and the request registers but the integer ones are read only by their operation (R26,
  R28 to R31, R61; log 8). Safe. -/
  | noReadPath (r : Reg)
  /-- A buffer index outside its range (R61), in a host write or read (log 10). Safe: the spec says such an index is never
  formed. -/
  | noSuchIndex (r : Reg)
  /-- A host write of an integer that is no `INT_W`-bit value (R27; log 6). Safe: the register has no such value. -/
  | noSuchValue (r : Reg)
deriving DecidableEq, Repr

/-- What is refused. -/
inductive Refusal where
  /-- An instruction that has no meaning in the model. Safe. -/
  | notModelled (mnemonic : String)
  /-- A host command the spec refuses (R253). Raised by the five commands; `step` goes on with the state unchanged
  and the reply to the host. Safe. -/
  | host (r : HostRefusal)
  /-- A byte of a format in a state whose step reads no byte of that format (R22; log 9). Raised by the byte formats; `step`
  never reads one there. Safe. -/
  | noSuchEvent
deriving DecidableEq, Repr

/-- The outcome of a step. -/
abbrev Result := Host.Outcome State Fault Refusal

/-- Every request register unwritten (R51). -/
def Request.unwritten : Request :=
  { inByte := none, inFi := none, inDi := none, inFmax := none, atrLen := none, atrBuf := [], pps1 := none,
    txLen := none, txBuf := [], rxLen := none }

/-- Every result register unwritten (R25, R51). -/
def Results.unwritten : Results :=
  { err := none, outFi := none, outDi := none, outFmax := none, outByte := none, conv := none, ta1Valid := none,
    ta1 := none, respLen := none, rxBuf := [], sw1 := none, sw2 := none }

/-- Every internal register unwritten (R25, R51). -/
def Working.unwritten : Working :=
  { ppsReq := [], ppsRsp := [], pb := none, k := none, dataTmp := [] }

/-- The machine right after power-on reset (R51, R270), for a configuration. -/
def State.resetOf (c : Config) : State :=
  { cfg := c, st := .idle, req := Request.unwritten, res := Results.unwritten, work := Working.unwritten,
    port := { answers := [], calls := 0, trace := [] }, host := { pending := [], log := [] },
    sched := { turns := [], count := 0 } }

/-- The machine right after power-on reset, with the default parameters of R8. -/
def State.reset : State := State.resetOf Config.standard

end Sys2Proof.Machine
end

