-- ==== Sys2Proof/Machine/Flags.lean ====
section
/-! DEFINITION. The one status flag `ERR`, its view `CAT`, and the encodings of `CONV` and `st`
(60_exceptions.md, R22, R33, R34, R37). -/

namespace Sys2Proof.Machine

/-- The failure kinds (R240). -/
inductive FailKind where
  | unsupportedFi
  | unsupportedDi
  | noFiEncoding
  | noDiEncoding
  | invalidInitialByte
  | transmitFailed
  | noResponse
  | mismatch
  | bidirectionalNotSupported
  | headerSendFailed
  | procedureByteMissing
  | dataSendFailed
  | dataRecvFailed
  | statusWordMissing
  | unexpectedStatusByte
  | invalidProcedureByte
deriving DecidableEq, Repr

/-- The `ERR` code of a failure kind (R240). -/
def FailKind.code : FailKind → Byte
  | .unsupportedFi => 0x01
  | .unsupportedDi => 0x02
  | .noFiEncoding => 0x03
  | .noDiEncoding => 0x04
  | .invalidInitialByte => 0x05
  | .transmitFailed => 0x06
  | .noResponse => 0x07
  | .mismatch => 0x08
  | .bidirectionalNotSupported => 0x09
  | .headerSendFailed => 0x0A
  | .procedureByteMissing => 0x0B
  | .dataSendFailed => 0x0C
  | .dataRecvFailed => 0x0D
  | .statusWordMissing => 0x0E
  | .unexpectedStatusByte => 0x0F
  | .invalidProcedureByte => 0x10

/-- The failure categories (R17). -/
inductive Category where
  | configurationError
  | transportError
  | protocolViolation
deriving DecidableEq, Repr

/-- The category of a failure kind (R241). -/
def FailKind.category : FailKind → Category
  | .unsupportedFi | .unsupportedDi | .noFiEncoding | .noDiEncoding => .configurationError
  | .transmitFailed | .noResponse | .headerSendFailed | .procedureByteMissing | .dataSendFailed
  | .dataRecvFailed | .statusWordMissing => .transportError
  | .invalidInitialByte | .mismatch | .bidirectionalNotSupported | .unexpectedStatusByte
  | .invalidProcedureByte => .protocolViolation

/-- The `CAT` value of a category (R34). -/
def Category.code : Category → BitVec 2
  | .configurationError => 1
  | .transportError => 2
  | .protocolViolation => 3

/-- Every failure kind, in the order of the codes. -/
def FailKind.all : List FailKind :=
  [.unsupportedFi, .unsupportedDi, .noFiEncoding, .noDiEncoding, .invalidInitialByte, .transmitFailed, .noResponse,
   .mismatch, .bidirectionalNotSupported, .headerSendFailed, .procedureByteMissing, .dataSendFailed, .dataRecvFailed,
   .statusWordMissing, .unexpectedStatusByte, .invalidProcedureByte]

/-- `CAT`, the view of an `ERR` value (R34): 0 for success, and for a failure its category. An `ERR` value above
`0x10` is never written (R240) and has no view. -/
def catOf (err : Byte) : Option (BitVec 2) :=
  if err = 0x00#8 then some 0
  else (FailKind.all.find? fun k => k.code = err).map fun k => k.category.code

/-- The conventions an ATR announces (R16). -/
inductive Convention where
  | unknown
  | direct
  | inverse
deriving DecidableEq, Repr

/-- The `CONV` encoding (R37). -/
def Convention.code : Convention → BitVec 2
  | .unknown => 0
  | .direct => 1
  | .inverse => 2

/-- The `st` codes (R22). -/
def St.code : St → BitVec 4
  | .idle => 0x0
  | .dec => 0x1
  | .enc => 0x2
  | .atr => 0x3
  | .ppsSend => 0x4
  | .ppsRecv => 0x5
  | .ppsCheck => 0x6
  | .apCheck => 0x7
  | .apHdr => 0x8
  | .apProc => 0x9
  | .apAck => 0xA
  | .apSw => 0xB
  | .apSw2 => 0xC
  | .done => 0xF

/-- Busy: neither `IDLE` nor `DONE` (R23). -/
def St.busy : St → Bool
  | .idle | .done => false
  | _ => true

/-- The operation a busy state belongs to (R22). -/
def St.operation : St → Option Instr
  | .idle | .done => none
  | .dec => some .decode
  | .enc => some .encode
  | .atr => some .parseAtr
  | .ppsSend | .ppsRecv | .ppsCheck => some .negotiatePps
  | .apCheck | .apHdr | .apProc | .apAck | .apSw | .apSw2 => some .apduExchange

end Sys2Proof.Machine
end

