-- ==== Sys2Proof/Machine/Ops.lean ====
section
/-! DEFINITION. The shared operations: buffers (20_memory.md), register reads (R42), issue (R25), the two exits of an
operation (R244, R245) and the Transport calls (44_transport.md). -/

namespace Sys2Proof.Machine

/-- The byte at an index; none where it is unwritten (R42). -/
def Memory.read : Memory → Nat → Option Byte
  | [], _ => none
  | (j, b) :: m, i => if j = i then some b else Memory.read m i

/-- Writes one byte, keeping the indices rising. -/
def Memory.write : Memory → Nat → Byte → Memory
  | [], i, b => [(i, b)]
  | (j, c) :: m, i, b =>
    if i < j then (i, b) :: (j, c) :: m
    else if i = j then (i, b) :: m
    else (j, c) :: Memory.write m i b

/-- `MemWrite(BUF, i, s)` (R12). -/
def Memory.writeBytes : Memory → Nat → List Byte → Memory
  | m, _, [] => m
  | m, i, b :: bs => Memory.writeBytes (Memory.write m i b) (i + 1) bs

/-- `MemRead(BUF, i, n)` (R12); none where a byte of the range is unwritten. -/
def Memory.readBytes (m : Memory) : Nat → Nat → Option (List Byte)
  | _, 0 => some []
  | i, n + 1 =>
    match Memory.read m i, Memory.readBytes m (i + 1) n with
    | some b, some bs => some (b :: bs)
    | _, _ => none

/-- A buffer that holds exactly a byte sequence, from index 0. -/
def Memory.ofBytes (bs : List Byte) : Memory := Memory.writeBytes [] 0 bs

/-- Every index is above the ones before it and at least `lo`. -/
def Memory.rising : Nat → Memory → Bool
  | _, [] => true
  | lo, (i, _) :: m => decide (lo ≤ i) && Memory.rising (i + 1) m

/-- The canonical form of a buffer of a capacity: rising indices, each below the capacity (R61). -/
def Memory.wf (capacity : Nat) (m : Memory) : Bool :=
  Memory.rising 0 m && m.all fun c => decide (c.1 < capacity)

/-- Goes on with a register's value; a read of an unwritten register faults (R42). -/
def need {α : Type} (r : Reg) (o : Option α) (k : α → Result) : Result :=
  match o with
  | some a => k a
  | none => .fault (.unwrittenRead r)

/-- Goes on with a buffer after `MemWrite(BUF, i, s)`; an index outside the buffer's range faults (R61). -/
def memWrite (r : Reg) (capacity : Nat) (m : Memory) (i : Nat) (s : List Byte) (k : Memory → Result) : Result :=
  if i + s.length ≤ capacity then k (m.writeBytes i s) else .fault (.noSuchIndex r)

/-- Busy (R23). -/
def State.busy (s : State) : Bool := s.st.busy

/-- Moves `st`. -/
def State.goto (st : St) (s : State) : State := { s with st := st }

/-- Writes the internal working registers. -/
def State.setWork (w : Working) (s : State) : State := { s with work := w }

/-- Writes the request registers. -/
def State.setReq (q : Request) (s : State) : State := { s with req := q }

/-- Items 2 to 4 of the issue transition (R25): the result and internal registers become unwritten and `st` is the
first state of the operation. -/
def State.issue (first : St) (s : State) : State :=
  { s with st := first, res := Results.unwritten, work := Working.unwritten }

/-- The state after `raise K` (R244): `ERR` is the kind's code, `st` is `DONE`, no other result register is
written. -/
def State.fail (k : FailKind) (s : State) : State :=
  { s with st := .done, res := { s.res with err := some k.code } }

/-- `raise K`: the failure exit, the one way an operation fails (R244). -/
def raise (k : FailKind) (s : State) : Result := .next (s.fail k)

/-- The state after `succeed` (R245): the operation's results are committed, `ERR` is `0x00`, `st` is `DONE`. -/
def State.commit (res : Results) (s : State) : State :=
  { s with st := .done, res := { res with err := some 0x00 } }

/-- `succeed`: the success exit (R245). -/
def succeed (res : Results) (s : State) : Result := .next (s.commit res)

/-- The Transport's answer to the call now made: the next one fixed, or a free draw (R222). -/
def State.answer (s : State) : TransportAnswer :=
  match s.port.answers with
  | a :: _ => a
  | [] => Config.freeAnswer s.port.calls

/-- The port after a call that left the event `e`. -/
def Port.after (e : Event) (p : Port) : Port :=
  { answers := p.answers.tail, calls := p.calls + 1, trace := p.trace ++ [e] }

/-- Whether a `Send` made now is answered `ok` (R220). -/
def State.sendOk (s : State) : Bool :=
  match s.answer with
  | .ok _ => true
  | .err => false

/-- The state after `Send(bytes)`. -/
def State.afterSend (bytes : List Byte) (s : State) : State :=
  { s with port := s.port.after (.send bytes s.sendOk) }

/-- The answer to a `Recv(n)` made now: none is `err`, else at most `n` bytes (R221). -/
def State.recvAnswer (n : Nat) (s : State) : Option (List Byte) :=
  match s.answer with
  | .ok bs => some (bs.take n)
  | .err => none

/-- The state after `Recv(n)`. -/
def State.afterRecv (n : Nat) (s : State) : State :=
  { s with port := s.port.after (.recv n (s.recvAnswer n)) }

/-- A host action's reply, added to the host's log. -/
def State.reply (a : HostAction) (r : HostReply) (s : State) : State :=
  { s with host := { s.host with log := s.host.log ++ [{ action := a, reply := r }] } }

/-- Power-on reset (R52, R270): every register takes its reset value. The tables and parameters, the
Transport, the host outside the engine, and the order in which they move go on (log 4). -/
def State.powerOn (s : State) : State :=
  { State.resetOf s.cfg with port := s.port, host := s.host, sched := s.sched }

/-- Who takes the turn that both a busy engine and its host could take now: the next one fixed, or a free choice
(log 4). -/
def State.turn (s : State) : Agent :=
  match s.sched.turns with
  | a :: _ => a
  | [] => Config.freeTurn s.sched.count

/-- The state with one turn taken. -/
def State.takeTurn (s : State) : State :=
  { s with sched := { turns := s.sched.turns.tail, count := s.sched.count + 1 } }

end Sys2Proof.Machine
end

