-- ==== Sys2Proof/Machine/Operands.lean ====
section
/-! DEFINITION. The operands of the commands: the request registers (R81), their checks at issue (R96), and the parts of
the ATR and the command that the rules name (R84, R90). -/

namespace Sys2Proof.Machine

/-- `wf_decode` (R96). -/
def wfDecode (s : State) : Bool := s.req.inByte.isSome

/-- `wf_encode` (R96). -/
def wfEncode (s : State) : Bool := s.req.inFi.isSome && s.req.inDi.isSome && s.req.inFmax.isSome

/-- `wf_atr` (R96): the length is written and within capacity, and the bytes the engine reads are written. -/
def wfAtr (s : State) : Bool :=
  match s.req.atrLen with
  | none => false
  | some n => decide (n ≤ s.cfg.atrMax) && (s.req.atrBuf.readBytes 0 (min n 3)).isSome

/-- `wf_pps` (R96). -/
def wfPps (s : State) : Bool := s.req.pps1.isSome

/-- `wf_apdu_hdr` (R96). -/
def wfApduHdr (s : State) : Bool :=
  match s.req.txLen with
  | none => false
  | some n => decide (5 ≤ n)

/-- `wf_apdu_len` (R96). -/
def wfApduLen (s : State) : Bool :=
  match s.req.txLen, s.req.rxLen with
  | some n, some r => decide (n ≤ s.cfg.txMax) && decide (r ≤ s.cfg.rxMax)
  | _, _ => false

/-- `wf_apdu_buf` (R96). -/
def wfApduBuf (s : State) : Bool :=
  match s.req.txLen with
  | none => false
  | some n => (s.req.txBuf.readBytes 0 n).isSome

/-- The checks of R96 of a command, in the spec's order: the first that fails, or none. -/
def failedCheck (i : Instr) (s : State) : Option WfCheck :=
  match i with
  | .decode => if wfDecode s then none else some .wfDecode
  | .encode => if wfEncode s then none else some .wfEncode
  | .parseAtr => if wfAtr s then none else some .wfAtr
  | .negotiatePps => if wfPps s then none else some .wfPps
  | .apduExchange =>
    if ! wfApduHdr s then some .wfApduHdr
    else if ! wfApduLen s then some .wfApduLen
    else if ! wfApduBuf s then some .wfApduBuf
    else none
  | _ => none

/-- Issue of a command (R25): admitted when its checks pass, refused otherwise (R96). -/
def issueCommand (i : Instr) (first : St) (s : State) : Result :=
  match failedCheck i s with
  | none => .next (s.issue first)
  | some c => .refused (.host (.illFormed c))

/-- A command's outcome in a state of another operation: a `CMD` write while busy is refused (R25). -/
def refuseBusy : Result := .refused (.host .busy)

/-- The command header, `TX_BUF[0..4]` (R90). -/
def needHeader (s : State) (k : List Byte → Result) : Result :=
  need (.txBuf 0) (s.req.txBuf.readBytes 0 5) k

/-- INS, `TX_BUF[1]` (R90). -/
def needIns (s : State) (k : Byte → Result) : Result :=
  need (.txBuf 1) (s.req.txBuf.read 1) k

/-- The outgoing command data, `TX_BUF[5..TX_LEN-1]` (R90). -/
def needData (txLen : Nat) (s : State) (k : List Byte → Result) : Result :=
  need (.txBuf 5) (s.req.txBuf.readBytes 5 (txLen - 5)) k

/-- `TX_LEN` and `RX_LEN`. -/
def needLengths (s : State) (k : Nat → Nat → Result) : Result :=
  need .txLen s.req.txLen fun tx => need .rxLen s.req.rxLen fun rx => k tx rx

end Sys2Proof.Machine
end

