-- ==== Sys2Proof/Machine/Apdu.lean ====
section
/-! DEFINITION. APDU_EXCHANGE and the classes of a procedure byte (43_apdu.md). -/

namespace Sys2Proof.Machine

/-- A procedure byte has its effect in state `AP_PROC` alone (R193). -/
def inApProc (s : State) (r : Result) : Result :=
  match s.st with
  | .apProc => r
  | _ => .refused .noSuchEvent

/-- The SW1 case of `AP_PROC` (R186): legal only when no data was expected in either direction. SW2 is not
read on the failure (R191). -/
def sw1Byte (b : Byte) (s : State) : Result :=
  needLengths s fun tx rx =>
    if rx ≠ 0 ∨ 5 < tx then raise .unexpectedStatusByte s
    else .next ((s.goto .apSw2).setWork { s.work with pb := some b })

/-- PB_NULL (R184): stay in `AP_PROC`; no register changes (R246). -/
def execPbNull (s : State) : Result := inApProc s (.next s)

/-- PB_ACK (R185). -/
def execPbAck (ins : Byte) (s : State) : Result :=
  inApProc s (.next ((s.goto .apAck).setWork { s.work with pb := some ins }))

/-- PB_SW1_6X (R186). -/
def execPbSw16x (lo : Nibble) (s : State) : Result := inApProc s (sw1Byte (joinNibbles 6#4 lo) s)

/-- PB_SW1_9X (R186). -/
def execPbSw19x (lo : Nibble) (s : State) : Result := inApProc s (sw1Byte (joinNibbles 9#4 lo) s)

/-- PB_INVALID (R187). The byte is not kept (R243). -/
def execPbInvalid (_b : Byte) (s : State) : Result := inApProc s (raise .invalidProcedureByte s)

/-- A received procedure byte, by its class (R92). -/
def procedureByte (ins b : Byte) (s : State) : Result :=
  match pbClass ins b with
  | .null => execPbNull s
  | .ack => execPbAck b s
  | .sw1Six => execPbSw16x (loNibble b) s
  | .sw1Nine => execPbSw19x (loNibble b) s
  | .invalid => execPbInvalid b s

/-- The step of state `AP_CHECK` (R182). -/
def apCheck (s : State) : Result :=
  needLengths s fun tx rx =>
    if 5 < tx ∧ 0 < rx then raise .bidirectionalNotSupported s else .next (s.goto .apHdr)

/-- The step of state `AP_HDR` (R183). -/
def apHdr (s : State) : Result :=
  needHeader s fun header =>
    if s.sendOk then .next ((s.afterSend header).goto .apProc)
    else raise .headerSendFailed (s.afterSend header)

/-- The step of state `AP_PROC` (R184 to R187). -/
def apProc (s : State) : Result :=
  match s.recvAnswer 1 with
  | some [b] => needIns s fun ins => procedureByte ins b (s.afterRecv 1)
  | _ => raise .procedureByteMissing (s.afterRecv 1)

/-- The data phase when the command carries outgoing data (R188). -/
def apAckSend (txLen : Nat) (s : State) : Result :=
  needData txLen s fun data =>
    if s.sendOk then
      .next (((s.afterSend data).goto .apSw).setWork { s.work with k := some 0 })
    else raise .dataSendFailed (s.afterSend data)

/-- The data phase when a response is expected (R188): a short or zero read is success with that length (R194). -/
def apAckReceive (rxLen : Nat) (s : State) : Result :=
  match s.recvAnswer rxLen with
  | none => raise .dataRecvFailed (s.afterRecv rxLen)
  | some r =>
    memWrite (.dataTmp 0) s.cfg.rxMax s.work.dataTmp 0 r fun m =>
      .next (((s.afterRecv rxLen).goto .apSw).setWork { s.work with k := some r.length, dataTmp := m })

/-- The step of state `AP_ACK`, the data phase (R188). -/
def apAck (s : State) : Result :=
  needLengths s fun tx rx =>
    if 5 < tx then apAckSend tx s
    else if 0 < rx then apAckReceive rx s
    else .next ((s.goto .apSw).setWork { s.work with k := some 0 })

/-- The commit of `AP_SW`: `RESP_LEN`, `RX_BUF[0..K-1]`, `SW1` and `SW2` together (R189). -/
def apCommit (sw1 sw2 : Byte) (s : State) : Result :=
  need .k s.work.k fun k =>
    need (.dataTmp 0) (s.work.dataTmp.readBytes 0 k) fun data =>
      memWrite (.rxBuf 0) s.cfg.rxMax s.res.rxBuf 0 data fun m =>
        succeed { s.res with respLen := some k, rxBuf := m, sw1 := some sw1, sw2 := some sw2 } s

/-- The step of state `AP_SW` (R189). -/
def apSw (s : State) : Result :=
  match s.recvAnswer 2 with
  | some [a, b] => apCommit a b (s.afterRecv 2)
  | _ => raise .statusWordMissing (s.afterRecv 2)

/-- The step of state `AP_SW2` (R190). -/
def apSw2 (s : State) : Result :=
  match s.recvAnswer 1 with
  | some [b] =>
    need .pb s.work.pb fun pb =>
      succeed { s.res with respLen := some 0, sw1 := some pb, sw2 := some b } (s.afterRecv 1)
  | _ => raise .statusWordMissing (s.afterRecv 1)

/-- APDU_EXCHANGE (R181). -/
def execApduExchange (s : State) : Result :=
  match s.st with
  | .idle | .done => issueCommand .apduExchange .apCheck s
  | .apCheck => apCheck s
  | .apHdr => apHdr s
  | .apProc => apProc s
  | .apAck => apAck s
  | .apSw => apSw s
  | .apSw2 => apSw2 s
  | _ => refuseBusy

end Sys2Proof.Machine
end

