-- ==== Sys2Proof/Machine/Atr.lean ====
section
/-! DEFINITION. PARSE_ATR and the classes of TS and T0 (41_atr.md). -/

namespace Sys2Proof.Machine

/-- PARSE_ATR's success without a TA1 (R141): `TA1` stays as it is. -/
def atrWithoutTa1 (conv : Convention) (s : State) : Result :=
  succeed { s.res with conv := some conv.code, ta1Valid := some false } s

/-- PARSE_ATR's success with `ATR_BUF[2]` as TA1 (R141). -/
def atrWithTa1 (conv : Convention) (s : State) : Result :=
  need (.atrBuf 2) (s.req.atrBuf.read 2) fun ta1 =>
    succeed { s.res with conv := some conv.code, ta1Valid := some true, ta1 := some ta1 } s

/-- What follows the TS check for an ATR of at least 3 bytes, by bit 4 of T0 (R141, R146). -/
def atrByT0 (declaresTa1 : Bool) (conv : Convention) (s : State) : Result :=
  if declaresTa1 then atrWithTa1 conv s else atrWithoutTa1 conv s

/-- The TS check (R85, R141): an invalid TS fails before T0 is inspected (R144). -/
def atrByTs (ts : TsClass) (s : State) (k : Convention → Result) : Result :=
  match ts with
  | .direct => k .direct
  | .inverse => k .inverse
  | .invalid => raise .invalidInitialByte s

/-- What follows the TS check (R141): T0 is inspected from length 3 on (R145). -/
def atrAfterTs (n : Nat) (t0 : Option Bool) (s : State) (conv : Convention) : Result :=
  if n < 3 then atrWithoutTa1 conv s
  else need (.atrBuf 1) (t0 <|> (s.req.atrBuf.read 1).map t0DeclaresTa1) fun t0 => atrByT0 t0 conv s

/-- The step of state `ATR` (R141). `ts` and `t0` are the classes of bytes 0 and 1 where they are given, and are
read from `ATR_BUF` where not. TS is checked from length 2 on (R143). -/
def atrStep (ts : Option TsClass) (t0 : Option Bool) (s : State) : Result :=
  need .atrLen s.req.atrLen fun n =>
    if n < 2 then atrWithoutTa1 .unknown s
    else need (.atrBuf 0) (ts <|> (s.req.atrBuf.read 0).map tsClass) fun ts =>
      atrByTs ts s (atrAfterTs n t0 s)

/-- The byte formats of an ATR have their effect in state `ATR`, whose step alone reads them (R22). -/
def inAtr (s : State) (r : Result) : Result :=
  match s.st with
  | .atr => r
  | _ => .refused .noSuchEvent

/-- TS_DIRECT (R85): the `ATR` step on an ATR whose byte 0 is `0x3B`. -/
def execTsDirect (s : State) : Result := inAtr s (atrStep (some .direct) none s)

/-- TS_INVERSE (R85): the `ATR` step on an ATR whose byte 0 is `0x3F`. -/
def execTsInverse (s : State) : Result := inAtr s (atrStep (some .inverse) none s)

/-- TS_INVALID (R85): the `ATR` step on an ATR whose byte 0 is neither. The failure is the same for each of them
(R243). -/
def execTsInvalid (_ts : Byte) (s : State) : Result := inAtr s (atrStep (some .invalid) none s)

/-- T0_TA1_PRESENT (R86): the `ATR` step on an ATR whose byte 1 has bit 4 set. No other bit matters (R146). -/
def execT0Ta1Present (_hi : BitVec 3) (_lo : Nibble) (s : State) : Result := inAtr s (atrStep none (some true) s)

/-- T0_TA1_ABSENT (R86): the `ATR` step on an ATR whose byte 1 has bit 4 clear. -/
def execT0Ta1Absent (_hi : BitVec 3) (_lo : Nibble) (s : State) : Result := inAtr s (atrStep none (some false) s)

/-- PARSE_ATR (R141). -/
def execParseAtr (s : State) : Result :=
  match s.st with
  | .idle | .done => issueCommand .parseAtr .atr s
  | .atr => atrStep none none s
  | _ => refuseBusy

end Sys2Proof.Machine
end

