-- ==== Sys2Proof/Machine/Codec.lean ====
section
/-! DEFINITION. DECODE, ENCODE and the parameter byte (40_codec.md). -/

namespace Sys2Proof.Machine

/-- The `FI_TABLE` entry of an index (R45). -/
def State.fiEntry (s : State) (i : Nibble) : FiEntry := s.cfg.fiTable[i.toFin]

/-- The `DI_TABLE` entry of an index (R46). -/
def State.diEntry (s : State) (i : Nibble) : DiEntry := s.cfg.diTable[i.toFin]

/-- `zext_INT_W(v)` (R11): `v` itself where it is an `INT_W`-bit value, as every table value is with the defaults (log 6). -/
def State.zext (s : State) (v : Nat) : Word := v % 2 ^ s.cfg.intW

/-- The indices `0..15` in order. -/
def tableIndices : List Nibble :=
  [0, 1, 2, 3, 4, 5, 6, 7, 8, 9, 10, 11, 12, 13, 14, 15]

/-- An Fi entry satisfies both conditions of R119. An RFU entry satisfies none (R112). -/
def fiMatches (fi fmax : Nat) : FiEntry → Bool
  | .valid f m => f == fi && decide (fmax ≤ m)
  | .rfu => false

/-- A Di entry satisfies the condition of R120. -/
def diMatches (di : Nat) : DiEntry → Bool
  | .valid d => d == di
  | .rfu => false

/-- `fi_search(F, M)` (R119): the first matching index. -/
def fiSearch (fi fmax : Word) (s : State) : Option Nibble :=
  tableIndices.find? fun i => fiMatches fi fmax (s.fiEntry i)

/-- `di_search(D)` (R120): the first matching index. -/
def diSearch (di : Word) (s : State) : Option Nibble :=
  tableIndices.find? fun j => diMatches di (s.diEntry j)

/-- The step of state `DEC` on a parameter byte (R115): the Fi check comes first (R116). -/
def decodeIndices (fiIdx diIdx : Nibble) (s : State) : Result :=
  match s.fiEntry fiIdx, s.diEntry diIdx with
  | .rfu, _ => raise .unsupportedFi s
  | .valid _ _, .rfu => raise .unsupportedDi s
  | .valid f m, .valid d =>
    succeed { s.res with outFi := some (s.zext f), outDi := some (s.zext d),
                         outFmax := some (s.zext m) } s

/-- PARAM_BYTE (R82): in `DEC`, the DECODE step on this byte. No other state's step reads a parameter byte. -/
def execParamByte (fiIdx diIdx : Nibble) (s : State) : Result :=
  match s.st with
  | .dec => decodeIndices fiIdx diIdx s
  | _ => .refused .noSuchEvent

/-- DECODE (R115). -/
def execDecode (s : State) : Result :=
  match s.st with
  | .idle | .done => issueCommand .decode .dec s
  | .dec => need .inByte s.req.inByte fun b => execParamByte (hiNibble b) (loNibble b) s
  | _ => refuseBusy

/-- The step of state `ENC` (R121): the Fi search runs first (R123). -/
def encodeParameters (fi di fmax : Word) (s : State) : Result :=
  match fiSearch fi fmax s with
  | none => raise .noFiEncoding s
  | some i =>
    match diSearch di s with
    | none => raise .noDiEncoding s
    | some j => succeed { s.res with outByte := some (joinNibbles i j) } s

/-- ENCODE (R121). -/
def execEncode (s : State) : Result :=
  match s.st with
  | .idle | .done => issueCommand .encode .enc s
  | .enc =>
    need .inFi s.req.inFi fun fi => need .inDi s.req.inDi fun di => need .inFmax s.req.inFmax fun fmax =>
      encodeParameters fi di fmax s
  | _ => refuseBusy

end Sys2Proof.Machine
end

