-- ==== Sys2Proof/Machine/Pps.lean ====
section
/-! DEFINITION. NEGOTIATE_PPS and the PPS frame (42_pps.md). -/

namespace Sys2Proof.Machine

/-- The step of state `PPS_SEND` on a request frame (R162). -/
def ppsSendFrame (frame : List Byte) (s : State) : Result :=
  if s.sendOk then .next ((s.afterSend frame).goto .ppsRecv)
  else raise .transmitFailed (s.afterSend frame)

/-- The step of state `PPS_RECV` (R163): an error or fewer than 4 bytes is `NoResponse`. -/
def ppsReceive (s : State) : Result :=
  match s.recvAnswer 4 with
  | none => raise .noResponse (s.afterRecv 4)
  | some r =>
    if r.length < 4 then raise .noResponse (s.afterRecv 4)
    else
      .next (((s.afterRecv 4).goto .ppsCheck).setWork { s.work with ppsRsp := Memory.ofBytes r })

/-- The step of state `PPS_CHECK` on a response frame (R164): it must equal the request byte for byte. -/
def ppsCompare (response : List Byte) (s : State) : Result :=
  need (.ppsReq 0) (s.work.ppsReq.readBytes 0 4) fun request =>
    if response = request then succeed s.res s else raise .mismatch s

/-- PPS_FRAME (R87): in `PPS_SEND` this frame is transmitted, in `PPS_CHECK` it is compared with the request. -/
def execPpsFrame (pps1 : Byte) (s : State) : Result :=
  match s.st with
  | .ppsSend => ppsSendFrame (ppsFrameBytes pps1) s
  | .ppsCheck => ppsCompare (ppsFrameBytes pps1) s
  | _ => .refused .noSuchEvent

/-- The issue transition of NEGOTIATE_PPS, which builds the request frame (R25, R161). -/
def ppsIssue (s : State) : Result :=
  match failedCheck .negotiatePps s with
  | some c => .refused (.host (.illFormed c))
  | none =>
    need .pps1 s.req.pps1 fun p =>
      .next ((s.issue .ppsSend).setWork { Working.unwritten with ppsReq := Memory.ofBytes (ppsFrameBytes p) })

/-- NEGOTIATE_PPS (R161). -/
def execNegotiatePps (s : State) : Result :=
  match s.st with
  | .idle | .done => ppsIssue s
  | .ppsSend => need (.ppsReq 0) (s.work.ppsReq.readBytes 0 4) fun frame => ppsSendFrame frame s
  | .ppsRecv => ppsReceive s
  | .ppsCheck => need (.ppsRsp 0) (s.work.ppsRsp.readBytes 0 4) fun response => ppsCompare response s
  | _ => refuseBusy

end Sys2Proof.Machine
end

