-- ==== Sys2Proof/Machine/Dispatch.lean ====
section
/-! DEFINITION. What each instruction does: one arm per row of spec/opcode_table.json. -/

namespace Sys2Proof.Machine

def exec (i : Instr) (s : State) : Host.Outcome State Fault Refusal :=
  match i with
  | .decode => Sys2Proof.Machine.execDecode s
  | .encode => Sys2Proof.Machine.execEncode s
  | .parseAtr => Sys2Proof.Machine.execParseAtr s
  | .negotiatePps => Sys2Proof.Machine.execNegotiatePps s
  | .apduExchange => Sys2Proof.Machine.execApduExchange s
  | .paramByte fiIdx diIdx => Sys2Proof.Machine.execParamByte fiIdx diIdx s
  | .tsDirect => Sys2Proof.Machine.execTsDirect s
  | .tsInverse => Sys2Proof.Machine.execTsInverse s
  | .tsInvalid ts => Sys2Proof.Machine.execTsInvalid ts s
  | .t0Ta1Present hi lo => Sys2Proof.Machine.execT0Ta1Present hi lo s
  | .t0Ta1Absent hi lo => Sys2Proof.Machine.execT0Ta1Absent hi lo s
  | .ppsFrame pps1 => Sys2Proof.Machine.execPpsFrame pps1 s
  | .pbNull => Sys2Proof.Machine.execPbNull s
  | .pbAck ins => Sys2Proof.Machine.execPbAck ins s
  | .pbSw16x lo => Sys2Proof.Machine.execPbSw16x lo s
  | .pbSw19x lo => Sys2Proof.Machine.execPbSw19x lo s
  | .pbInvalid pb => Sys2Proof.Machine.execPbInvalid pb s

end Sys2Proof.Machine
end

