-- ==== Sys2Proof/Machine/HostPort.lean ====
section
/-! DEFINITION. The host's actions on the engine (R24, R25, R32, R41, R42, R101, R227 to R231, R253, R270), the engine's own
step, and where an instruction is placed so that the next step runs it. -/

namespace Sys2Proof.Machine

/-- An action the host may take only while the engine is not busy; refused otherwise (R32, R253, R275). -/
def unlessBusy (a : HostAction) (s : State) (k : Result) : Result :=
  if s.busy then .next (s.reply a (.refused .busy)) else k

/-- The request registers after a host write (R32). -/
def storeRequest (a : HostAction) (req : Request) (s : State) : Result :=
  .next ((s.setReq req).reply a .accepted)

/-- A host write of a request register that holds one value. -/
def hostWrite (a : HostAction) (req : Request) (s : State) : Result :=
  unlessBusy a s (storeRequest a req s)

/-- A host write of an integer register: a value of more than `INT_W` bits faults (log 6). -/
def hostWriteInt (a : HostAction) (r : Reg) (v : Word) (req : Request) (s : State) : Result :=
  unlessBusy a s (if s.cfg.fits v then storeRequest a req s else .fault (.noSuchValue r))

/-- `CMD <- c` while not busy, as the engine answers it: the command of the code is issued, and a reserved code is
refused (R24, R25, R95). -/
def commandWrite (c : Byte) (s : State) : Result :=
  match decode .hostCommand [c] with
  | .ok i _ => exec i s
  | .reject _ => .refused (.host (.reservedCommand c))

/-- What the host is left with after an action: a refused one changes nothing and the host goes on (R253). -/
def settle (a : HostAction) (s : State) : Result → Result
  | .next t => .next (t.reply a .accepted)
  | .fault f => .fault f
  | .refused (.host r) => .next (s.reply a (.refused r))
  | .refused r => .refused r

/-- The value of a result register that the host reads: none where it is unwritten, and none while the engine is busy
(R41, R280). -/
def State.result (s : State) (o : Option Nat) : Option Nat := if s.busy then none else o

/-- A host read of one index of a buffer; an index outside its range faults (R61; log 10). -/
def inRange (r : Reg) (capacity i : Nat) (k : Result) : Result :=
  if i < capacity then k else .fault (.noSuchIndex r)

/-- A host read (R23, R41, R42): `st` and "busy" at any time, a result register where it holds a value, and of the request
registers the integer ones (R65), at any time (log 8). The other request registers are read only by their operation (R26,
R28 to R31, R61), `CMD` is write-only (R24), and the host cannot see the internal registers (R43, R44). DESIGN CHOICE (log 13): "busy" reads as 1 and "not busy" as 0, since R23 gives the view no numbers. -/
def hostRead (r : Reg) (s : State) : Result :=
  let give (o : Option Nat) : Result := need r o fun v => .next (s.reply (.read r) (.value v))
  match r with
  | .st => give (some s.st.code.toNat)
  | .busy => give (some s.busy.toNat)
  | .err => give (s.result (s.res.err.map BitVec.toNat))
  | .cat => give (s.result ((s.res.err.bind catOf).map BitVec.toNat))
  | .outFi => give (s.result s.res.outFi)
  | .outDi => give (s.result s.res.outDi)
  | .outFmax => give (s.result s.res.outFmax)
  | .outByte => give (s.result (s.res.outByte.map BitVec.toNat))
  | .conv => give (s.result (s.res.conv.map BitVec.toNat))
  | .ta1Valid => give (s.result (s.res.ta1Valid.map Bool.toNat))
  | .ta1 => give (s.result (s.res.ta1.map BitVec.toNat))
  | .respLen => give (s.result s.res.respLen)
  | .rxBuf i => inRange r s.cfg.rxMax i (give (s.result ((s.res.rxBuf.read i).map BitVec.toNat)))
  | .sw1 => give (s.result (s.res.sw1.map BitVec.toNat))
  | .sw2 => give (s.result (s.res.sw2.map BitVec.toNat))
  | .inFi => give s.req.inFi
  | .inDi => give s.req.inDi
  | .inFmax => give s.req.inFmax
  | .inByte | .atrLen | .atrBuf _ | .pps1 | .txLen | .txBuf _ | .rxLen | .cmd | .ppsReq _ | .ppsRsp _ | .pb | .k | .dataTmp _ => .fault (.noReadPath r)

/-- One host action. DESIGN CHOICE (log 4): a power-on is accepted also while busy, and ends the operation, after bytes
went out too; R52 and R270 do not say when one may fall, and R73's "the host cannot stop a busy operation" is taken of
the host's commands, none of which does. -/
def hostAct (a : HostAction) (s : State) : Result :=
  match a with
  | .setInByte v => hostWrite a { s.req with inByte := some v } s
  | .setInFi v => hostWriteInt a .inFi v { s.req with inFi := some v } s
  | .setInDi v => hostWriteInt a .inDi v { s.req with inDi := some v } s
  | .setInFmax v => hostWriteInt a .inFmax v { s.req with inFmax := some v } s
  | .setAtrLen n => hostWrite a { s.req with atrLen := some n } s
  | .setAtrBuf bs =>
    unlessBusy a s (memWrite (.atrBuf 0) s.cfg.atrMax s.req.atrBuf 0 bs fun m =>
      storeRequest a { s.req with atrBuf := m, atrLen := some bs.length } s)
  | .writeAtrBuf i bs =>
    unlessBusy a s (memWrite (.atrBuf i) s.cfg.atrMax s.req.atrBuf i bs fun m =>
      storeRequest a { s.req with atrBuf := m } s)
  | .setPps1 v => hostWrite a { s.req with pps1 := some v } s
  | .setTxLen n => hostWrite a { s.req with txLen := some n } s
  | .setTxBuf bs =>
    unlessBusy a s (memWrite (.txBuf 0) s.cfg.txMax s.req.txBuf 0 bs fun m =>
      storeRequest a { s.req with txBuf := m, txLen := some bs.length } s)
  | .writeTxBuf i bs =>
    unlessBusy a s (memWrite (.txBuf i) s.cfg.txMax s.req.txBuf i bs fun m =>
      storeRequest a { s.req with txBuf := m } s)
  | .setRxLen n => hostWrite a { s.req with rxLen := some n } s
  | .writeCmd c => unlessBusy a s (settle a s (commandWrite c s))
  | .read r => hostRead r s
  | .setup _ => unlessBusy a s (.next (s.reply a .accepted))
  | .awaitDone => .next (s.reply a .accepted)
  | .powerOn => .next (s.powerOn.reply a .accepted)

/-- The engine's own step (R23, R284): the operation in flight goes on; with none in flight nothing happens. -/
def engineStep (s : State) : Result :=
  match s.st.operation with
  | some i => exec i s
  | none => .next s

/-- The state with the host's next action taken off its list. -/
def State.nextAction (rest : List HostAction) (s : State) : State :=
  { s with host := { s.host with pending := rest } }

/-- A step of a busy engine whose host has `a` as its next action: the engine's alone while the host waits (R247), and
otherwise that of the agent whose turn it is, so that the engine goes on between two host actions (R23, R284; log 4). -/
def busyStep (a : HostAction) (rest : List HostAction) (s : State) : Result :=
  if a = .awaitDone then engineStep s
  else match s.turn with
    | .engine => engineStep s.takeTurn
    | .host => hostAct a (s.takeTurn.nextAction rest)

/-- One step of the machine: a host action while the engine is not busy, a step of either while it is, and the engine's
step where the host has nothing to do. -/
def machineStep (s : State) : Result :=
  match s.host.pending with
  | [] => engineStep s
  | a :: rest => if s.busy then busyStep a rest s else hostAct a (s.nextAction rest)

/-- The request registers with each unwritten operand of a command at zero: one byte or integer 0, an empty ATR, a
command header of five zeros with no data in either direction (log 5). -/
def Request.withZeros (q : Request) : Request :=
  { inByte := q.inByte.or (some 0), inFi := q.inFi.or (some 0), inDi := q.inDi.or (some 0),
    inFmax := q.inFmax.or (some 0), atrLen := q.atrLen.or (some 0), atrBuf := q.atrBuf, pps1 := q.pps1.or (some 0),
    txLen := q.txLen.or (some 5),
    txBuf := if q.txLen.isNone then Memory.ofBytes [0, 0, 0, 0, 0] else q.txBuf,
    rxLen := q.rxLen.or (some 0) }

/-- A busy state reached by issue, with the host waiting for it to end. -/
def State.inFlight (st : St) (req : Request) (s : State) : State :=
  { s.issue st with req := req, host := { s.host with pending := .awaitDone :: s.host.pending } }

/-- One byte placed where a format's byte is read (log 5). -/
def placeByte (c : Context) (b : Byte) (s : State) : State :=
  match c with
  | .hostCommand =>
    { s with st := if s.busy then .done else s.st, req := s.req.withZeros,
             host := { s.host with pending := .writeCmd b :: s.host.pending } }
  | .paramByte => s.inFlight .dec { s.req with inByte := some b }
  | .atrTs => s.inFlight .atr { s.req with atrLen := some 2, atrBuf := Memory.ofBytes [b, 0] }
  | .atrT0 => s.inFlight .atr { s.req with atrLen := some 3, atrBuf := Memory.ofBytes [0x3B, b, 0] }
  | .procedureByte ins =>
    { s.inFlight .apProc { s.req with txLen := some 5, txBuf := Memory.ofBytes [0, ins, 0, 0, 0], rxLen := some 0 } with
      port := { s.port with answers := .ok [b] :: s.port.answers } }
  | .ppsFrame => s

/-- A PPS frame placed as the request frame of a negotiation, its `Send` answered `ok` (log 5). -/
def placeFrame (frame : List Byte) (s : State) : State :=
  { s.inFlight .ppsSend s.req with
    work := { Working.unwritten with ppsReq := Memory.ofBytes frame },
    port := { s.port with answers := .ok [] :: s.port.answers } }

/-- A table word placed where the next step runs it. -/
def placeWord (nbits w : Nat) (s : State) : State :=
  if nbits = 32 then placeFrame (frameOfWord w) s
  else placeByte (tableContext (byteOf w 0)) (byteOf w 0) s

end Sys2Proof.Machine
end

