-- ==== Sys2Proof/Machine/Step.lean ====
section
/-! DEFINITION. One step of the machine (R18, R285). -/

namespace Sys2Proof.Machine

/-- One step: `machineStep`. -/
def step (s : State) : Host.Outcome State Fault Refusal := machineStep s

/-- The state whose next step runs the instruction of a table word (log 5). -/
def State.withFetchWord (s : State) (nbits w : Nat) : State := placeWord nbits w s

end Sys2Proof.Machine
end

