-- ==== Sys2Proof/Safety.lean ====
section
/-! DEFINITION. What counts as a safe state and a safe run: the invariant of the engine (R23, R25, R41, R42, R61, R96), the
transitions `st` may take (R22), and the host's own duties (R271, R273). -/

namespace Sys2Proof.Machine

/-- A buffer whose written indices are exactly `0..n-1`. -/
def Memory.holds (n : Nat) (m : Memory) : Bool := m.map Prod.fst == List.range n

/-- Every buffer is in canonical form and within its range (R61). -/
def State.buffersWf (s : State) : Bool :=
  Memory.wf s.cfg.atrMax s.req.atrBuf && Memory.wf s.cfg.txMax s.req.txBuf && Memory.wf s.cfg.rxMax s.res.rxBuf
    && Memory.wf 4 s.work.ppsReq && Memory.wf 4 s.work.ppsRsp && Memory.wf s.cfg.rxMax s.work.dataTmp

/-- Every integer register holds an `INT_W`-bit value or none (R27, R35). -/
def State.integersWf (s : State) : Bool :=
  s.cfg.fitsReg s.req.inFi && s.cfg.fitsReg s.req.inDi && s.cfg.fitsReg s.req.inFmax
    && s.cfg.fitsReg s.res.outFi && s.cfg.fitsReg s.res.outDi && s.cfg.fitsReg s.res.outFmax

/-- No result register but `ERR` is written: after a failure and after NEGOTIATE_PPS (R41). -/
def Results.onlyErr (r : Results) : Bool := r == { Results.unwritten with err := r.err }

/-- Exactly the results of a successful DECODE (R35, R41). -/
def Results.ofDecode (r : Results) : Bool :=
  r == { Results.unwritten with err := r.err, outFi := r.outFi, outDi := r.outDi, outFmax := r.outFmax }
    && r.outFi.isSome && r.outDi.isSome && r.outFmax.isSome

/-- Exactly the results of a successful ENCODE (R36, R41). -/
def Results.ofEncode (r : Results) : Bool :=
  r == { Results.unwritten with err := r.err, outByte := r.outByte } && r.outByte.isSome

/-- Exactly the results of a successful PARSE_ATR: `CONV` is not 3 (R37), and `TA1` is written just when
`TA1_VALID` is 1 (R38). -/
def Results.ofParseAtr (r : Results) : Bool :=
  r == { Results.unwritten with err := r.err, conv := r.conv, ta1Valid := r.ta1Valid, ta1 := r.ta1 }
    && r.conv.isSome && r.conv != some 3 && r.ta1Valid == some r.ta1.isSome

/-- Exactly the results of a successful APDU_EXCHANGE: `RX_BUF` holds `RESP_LEN` bytes (R39, R40). -/
def Results.ofApdu (rxMax : Nat) (r : Results) : Bool :=
  r == { Results.unwritten with err := r.err, respLen := r.respLen, rxBuf := r.rxBuf, sw1 := r.sw1, sw2 := r.sw2 }
    && r.sw1.isSome && r.sw2.isSome
    && match r.respLen with
       | some n => Memory.holds n r.rxBuf && decide (n ≤ rxMax)
       | none => false

/-- The result registers of a state (R41): unwritten until an operation has ended; then `ERR` holds a legal code, and
other registers hold values only on success, those of one operation. -/
def State.resultsValid (s : State) : Bool :=
  match s.st with
  | .done =>
    match s.res.err with
    | none => false
    | some c =>
      if c = 0x00#8 then
        s.res.onlyErr || s.res.ofDecode || s.res.ofEncode || s.res.ofParseAtr || s.res.ofApdu s.cfg.rxMax
      else decide (c.toNat ≤ 0x10) && s.res.onlyErr
  | _ => s.res == Results.unwritten

/-- The internal registers hold just a PPS request frame for the `PPS1` register (R161). -/
def State.ppsFraming (s : State) : Bool :=
  match s.req.pps1 with
  | none => false
  | some p => s.work == { Working.unwritten with ppsReq := Memory.ofBytes (ppsFrameBytes p) }

/-- The request of an exchange past `AP_CHECK` (R96, R182): it passed the checks and is not bidirectional. -/
def State.apduRequest (s : State) : Bool :=
  (failedCheck .apduExchange s).isNone &&
    match s.req.txLen, s.req.rxLen with
    | some tx, some rx => decide (tx ≤ 5) || decide (rx = 0)
    | _, _ => false

/-- What a busy state relies on: its request passed the checks of R96, and the internal registers it reads were
written by the states before it (R42). -/
def State.flightValid (s : State) : Bool :=
  match s.st with
  | .idle => s.work == Working.unwritten
  | .done => true
  | .dec => (failedCheck .decode s).isNone && s.work == Working.unwritten
  | .enc => (failedCheck .encode s).isNone && s.work == Working.unwritten
  | .atr => (failedCheck .parseAtr s).isNone && s.work == Working.unwritten
  | .ppsSend | .ppsRecv => s.ppsFraming
  | .ppsCheck =>
    { s with work := { s.work with ppsRsp := [] } }.ppsFraming && Memory.holds 4 s.work.ppsRsp
  | .apCheck => (failedCheck .apduExchange s).isNone && s.work == Working.unwritten
  | .apHdr | .apProc => s.apduRequest && s.work == Working.unwritten
  | .apAck => s.apduRequest && s.work.pb.isSome && s.work == { Working.unwritten with pb := s.work.pb }
  | .apSw =>
    s.apduRequest && s.work.pb.isSome
      && s.work == { Working.unwritten with pb := s.work.pb, k := s.work.k, dataTmp := s.work.dataTmp }
      && match s.work.k, s.req.rxLen with
         | some n, some rx => Memory.holds n s.work.dataTmp && decide (n ≤ rx)
         | _, _ => false
  | .apSw2 =>
    s.apduRequest && s.work.pb.isSome && s.work == { Working.unwritten with pb := s.work.pb }
      && s.req.txLen == some 5 && s.req.rxLen == some 0

/-- The invariant of the engine. -/
def State.inv (s : State) : Bool := s.buffersWf && s.integersWf && s.resultsValid && s.flightValid

/-- The transitions of `st` by an engine step (R22, and the operation files' pseudocode). -/
def St.mayStepTo : St → St → Bool
  | .dec, .done | .enc, .done | .atr, .done => true
  | .ppsSend, .ppsRecv | .ppsSend, .done => true
  | .ppsRecv, .ppsCheck | .ppsRecv, .done => true
  | .ppsCheck, .done => true
  | .apCheck, .apHdr | .apCheck, .done => true
  | .apHdr, .apProc | .apHdr, .done => true
  | .apProc, .apProc | .apProc, .apAck | .apProc, .apSw2 | .apProc, .done => true
  | .apAck, .apSw | .apAck, .done => true
  | .apSw, .done | .apSw2, .done => true
  | _, _ => false

/-- The first states of the operations (R25). -/
def St.first : St → Bool
  | .dec | .enc | .atr | .ppsSend | .apCheck => true
  | _ => false

/-- The last operation was a failed NEGOTIATE_PPS: its failure kinds are raised by no other operation (R242). DESIGN
CHOICE (log 12): R168 and R273 do not say how long the ban on a new baud rate lasts after the failure; here it lasts until the
next command is issued, which makes `ERR` unwritten (R25), or until power-on. -/
def State.ppsFailed (s : State) : Bool :=
  s.st == .done && (s.res.err == some FailKind.transmitFailed.code || s.res.err == some FailKind.noResponse.code
    || s.res.err == some FailKind.mismatch.code)

/-- The set-up calls the host has made, oldest first. DESIGN CHOICE (log 12): R271 does not say whether a call made before a
power-on reset or a `cold_reset` still counts; here every accepted call of the host's log counts, and a power-on keeps
the log. -/
def State.setupCalls (s : State) : List SetupCall :=
  s.host.log.filterMap fun e =>
    match e.action, e.reply with
    | .setup c, .accepted => some c
    | _, _ => none

/-- The baud rate the host has set last, if any. -/
def State.lastBaud (s : State) : Option (Nat × Nat) :=
  (s.setupCalls.filterMap fun c =>
    match c with
    | .configureBaud fi di => some (fi, di)
    | _ => none).getLast?

/-- The host's duties at an action (R271, R273): NEGOTIATE_PPS only with the clock and protocol configured and the
baud rate at Fi = 372, Di = 1; no new baud rate after a failed negotiation. The engine checks neither (R160). DESIGN
CHOICE (log 12), where R168 and R273 do not say: the ban bars every `configure_baud`, also of (372, 1), and ends with the
next command; with no ban, after a success too, any Fi and Di are allowed. -/
def State.hostDuty (s : State) : HostAction → Bool
  | .writeCmd c =>
    c != 0x04#8 ||
      (s.setupCalls.any (fun c => match c with | .configureClock _ => true | _ => false)
        && s.setupCalls.contains .configureProtocolT0 && s.lastBaud == some (372, 1))
  | .setup (.configureBaud _ _) => ! s.ppsFailed
  | _ => true

end Sys2Proof.Machine
end

