-- ==== Sys2Proof/Certificates/Slice0/Obligations.lean ====
section
/-! DEFINITION. The statements for the provers. -/

open Sys2Proof Sys2Proof.Machine

/-! ## Encodings (30_encoding.md) -/

/-- Words written out from the tables of R24, R82, R85, R86, R87 and R92 decode to the instruction they stand for. -/
def Obligations.SpelledWordsDecode : Prop :=
  decode .hostCommand [0x01#8] = .ok .decode [] ∧
  decode .hostCommand [0x02#8] = .ok .encode [] ∧
  decode .hostCommand [0x03#8] = .ok .parseAtr [] ∧
  decode .hostCommand [0x04#8] = .ok .negotiatePps [] ∧
  decode .hostCommand [0x05#8] = .ok .apduExchange [] ∧
  decode .paramByte [0x96#8] = .ok (.paramByte 9 6) [] ∧
  decode .atrTs [0x3B#8] = .ok .tsDirect [] ∧
  decode .atrTs [0x3F#8] = .ok .tsInverse [] ∧
  decode .atrTs [0x41#8] = .ok (.tsInvalid 0x41) [] ∧
  decode .atrT0 [0x9F#8] = .ok (.t0Ta1Present 4 15) [] ∧
  decode .atrT0 [0xEF#8] = .ok (.t0Ta1Absent 7 15) [] ∧
  decode .ppsFrame [0xFF#8, 0x10#8, 0x11#8, 0xFE#8] = .ok (.ppsFrame 0x11) [] ∧
  decode (.procedureByte 0xB0) [0x60#8] = .ok .pbNull [] ∧
  decode (.procedureByte 0xB0) [0xB0#8] = .ok (.pbAck 0xB0) [] ∧
  decode (.procedureByte 0xB0) [0x6A#8] = .ok (.pbSw16x 10) [] ∧
  decode (.procedureByte 0xB0) [0x90#8] = .ok (.pbSw19x 0) [] ∧
  decode (.procedureByte 0xB0) [0x5B#8] = .ok (.pbInvalid 0x5B) []

/-- Decoding the bytes of an instruction that is well-formed in a format gives it back, with every operand. -/
def Obligations.DecodeOfEncodeIsIdentity : Prop :=
  ∀ (c : Context) (i : Instr) (rest : List Byte), i.wfIn c = true → decode c (encode i ++ rest) = .ok i rest

/-- What a format decodes to is well-formed in it and encodes to the bytes read. -/
def Obligations.EncodeOfDecodeIsIdentity : Prop :=
  ∀ (c : Context) (bytes : List Byte) (i : Instr) (rest : List Byte),
    decode c bytes = .ok i rest → i.wfIn c = true ∧ encode i ++ rest = bytes

/-- R95: a reserved `CMD` value has no step: the write is refused and the state is unchanged but for the host's own
record. The refusal is the spec's own choice (D2); the host's record is the model's (log 4). -/
def Obligations.ReservedCommandIsRefused : Prop :=
  ∀ (s : State) (c : Byte) (rest : List HostAction), s.busy = false → s.host.pending = .writeCmd c :: rest →
    (c.toNat = 0 ∨ 5 < c.toNat) →
    step s = .next { s with host := ⟨rest, s.host.log ++ [⟨.writeCmd c, .refused (.reservedCommand c)⟩]⟩ }

/-! ## Steps -/

/-- A `CMD` write while not busy runs the instruction its byte decodes to, and the host is answered. Which agent moves
at a step is the model's choice (log 4). -/
def Obligations.StepRunsDecodedCommand : Prop :=
  ∀ (s : State) (c : Byte) (rest : List HostAction) (i : Instr), s.busy = false →
    s.host.pending = .writeCmd c :: rest → decode .hostCommand [c] = .ok i [] →
    step s =
      match exec i (s.nextAction rest) with
      | .next t => .next (t.reply (.writeCmd c) .accepted)
      | .fault f => .fault f
      | .refused (.host r) => .next ((s.nextAction rest).reply (.writeCmd c) (.refused r))
      | .refused r => .refused r

/-- R23: a busy engine takes the step of the operation its state belongs to: always while the host waits or has nothing
to do, and at the engine's turns whatever the host's next action is. An engine that is not busy stays as it is, and the
host's wait is over. Which agent moves at a step is the model's choice (log 4). -/
def Obligations.StepRunsOperationInFlight : Prop :=
  ∀ s : State,
    let runs (i : Instr) : Prop :=
      ((s.host.pending = [] ∨ ∃ rest, s.host.pending = .awaitDone :: rest) → step s = exec i s) ∧
      (∀ a rest, s.host.pending = a :: rest → a ≠ .awaitDone → s.turn = .engine →
        step s = exec i { s with sched := ⟨s.sched.turns.tail, s.sched.count + 1⟩ })
    (s.st = .dec → runs .decode) ∧ (s.st = .enc → runs .encode) ∧ (s.st = .atr → runs .parseAtr) ∧
    (s.st = .ppsSend ∨ s.st = .ppsRecv ∨ s.st = .ppsCheck → runs .negotiatePps) ∧
    (s.st = .apCheck ∨ s.st = .apHdr ∨ s.st = .apProc ∨ s.st = .apAck ∨ s.st = .apSw ∨ s.st = .apSw2 →
      runs .apduExchange) ∧
    (s.st = .idle ∨ s.st = .done →
      (s.host.pending = [] → step s = .next s) ∧
      (∀ rest, s.host.pending = .awaitDone :: rest →
        step s = .next { s with host := ⟨rest, s.host.log ++ [⟨.awaitDone, .accepted⟩]⟩ }))

/-- The byte or frame that a state's step examines is decoded in its format, and the instruction decoded is the one
that runs. That a byte format runs in the state that reads it is the model's choice (log 9). -/
def Obligations.ExaminedBytesRunTheirFormat : Prop :=
  ∀ (s : State) (b : Byte) (i : Instr),
    (s.st = .dec → s.req.inByte = some b → decode .paramByte [b] = .ok i [] → exec .decode s = exec i s) ∧
    (s.st = .atr → s.req.atrBuf.read 0 = some b → decode .atrTs [b] = .ok i [] → exec .parseAtr s = exec i s) ∧
    (s.st = .atr → s.req.atrBuf.read 1 = some b → decode .atrT0 [b] = .ok i [] → exec .parseAtr s = exec i s) ∧
    (∀ frame, s.st = .ppsSend → s.work.ppsReq.readBytes 0 4 = some frame → decode .ppsFrame frame = .ok i [] →
      exec .negotiatePps s = exec i s) ∧
    (∀ frame, s.st = .ppsCheck → s.work.ppsRsp.readBytes 0 4 = some frame → decode .ppsFrame frame = .ok i [] →
      exec .negotiatePps s = exec i s) ∧
    (∀ ins, s.st = .apProc → s.recvAnswer 1 = some [b] → s.req.txBuf.read 1 = some ins →
      decode (.procedureByte ins) [b] = .ok i [] → exec .apduExchange s = exec i (s.afterRecv 1))

/-! ## Issue and the host (10_state.md, 60_exceptions.md) -/

/-- R25: a command whose request registers pass their check is issued: results and internal registers become
unwritten, `st` is the operation's first state, and NEGOTIATE_PPS builds its frame. While busy, a `CMD` write is
refused. The issue rule is the spec's own choice (D8, D19, D20); the host's record and its turn are the model's
(log 4). -/
def Obligations.IssueTransition : Prop :=
  ∀ s : State,
    (s.busy = false →
      (∀ b, s.req.inByte = some b →
        exec .decode s = .next { s with st := .dec, res := Results.unwritten, work := Working.unwritten }) ∧
      (∀ f d m, s.req.inFi = some f → s.req.inDi = some d → s.req.inFmax = some m →
        exec .encode s = .next { s with st := .enc, res := Results.unwritten, work := Working.unwritten }) ∧
      (∀ n, s.req.atrLen = some n → n ≤ s.cfg.atrMax → (∀ j, j < min n 3 → (s.req.atrBuf.read j).isSome) →
        exec .parseAtr s = .next { s with st := .atr, res := Results.unwritten, work := Working.unwritten }) ∧
      (∀ p, s.req.pps1 = some p →
        exec .negotiatePps s = .next { s with
          st := .ppsSend, res := Results.unwritten,
          work := { Working.unwritten with
            ppsReq := [(0, 0xFF#8), (1, 0x10#8), (2, p), (3, 0xFF#8 ^^^ 0x10#8 ^^^ p)] } }) ∧
      (∀ n r, s.req.txLen = some n → s.req.rxLen = some r → 5 ≤ n → n ≤ s.cfg.txMax → r ≤ s.cfg.rxMax →
        (∀ j, j < n → (s.req.txBuf.read j).isSome) →
        exec .apduExchange s = .next { s with st := .apCheck, res := Results.unwritten, work := Working.unwritten })) ∧
    (s.busy = true → s.turn = .host → ∀ c rest, s.host.pending = .writeCmd c :: rest →
      step s = .next { s with host := ⟨rest, s.host.log ++ [⟨.writeCmd c, .refused .busy⟩]⟩,
                              sched := ⟨s.sched.turns.tail, s.sched.count + 1⟩ })

/-- R96: a command one of whose named checks fails is refused, and its `CMD` write leaves every register and the
Transport as they were. The refusals are the spec's own choice (D8); the host's record is the model's (log 4). -/
def Obligations.IllFormedCommandIsRefused : Prop :=
  (∀ s : State, s.busy = false →
    (s.req.inByte = none → exec .decode s = .refused (.host (.illFormed .wfDecode))) ∧
    (s.req.inFi = none ∨ s.req.inDi = none ∨ s.req.inFmax = none →
      exec .encode s = .refused (.host (.illFormed .wfEncode))) ∧
    (s.req.atrLen = none ∨
        (∃ n, s.req.atrLen = some n ∧ (s.cfg.atrMax < n ∨ ∃ j, j < min n 3 ∧ s.req.atrBuf.read j = none)) →
      exec .parseAtr s = .refused (.host (.illFormed .wfAtr))) ∧
    (s.req.pps1 = none → exec .negotiatePps s = .refused (.host (.illFormed .wfPps))) ∧
    (s.req.txLen = none ∨ (∃ n, s.req.txLen = some n ∧ n < 5) →
      exec .apduExchange s = .refused (.host (.illFormed .wfApduHdr))) ∧
    (∀ n, s.req.txLen = some n → 5 ≤ n →
      (s.cfg.txMax < n ∨ s.req.rxLen = none ∨ (∃ r, s.req.rxLen = some r ∧ s.cfg.rxMax < r)) →
      exec .apduExchange s = .refused (.host (.illFormed .wfApduLen))) ∧
    (∀ n r, s.req.txLen = some n → s.req.rxLen = some r → 5 ≤ n → n ≤ s.cfg.txMax → r ≤ s.cfg.rxMax →
      (∃ j, j < n ∧ s.req.txBuf.read j = none) →
      exec .apduExchange s = .refused (.host (.illFormed .wfApduBuf)))) ∧
  (∀ (s : State) (c : Byte) (rest : List HostAction) (i : Instr) (r : HostRefusal), s.busy = false →
    s.host.pending = .writeCmd c :: rest → decode .hostCommand [c] = .ok i [] →
    exec i (s.nextAction rest) = .refused (.host r) →
    step s = .next { s with host := ⟨rest, s.host.log ++ [⟨.writeCmd c, .refused r⟩]⟩ })

/-- While busy, at the host's turn, every host action but a read, the wait and power-on is refused, and no register
changes (R32, R253, and for the set-up calls R275). The refusals are the spec's own choice (D20); that a set-up call is
refused too, and whose turn it is, is the model's (log 4). -/
def Obligations.BusyEngineRefusesHostActions : Prop :=
  ∀ (s : State) (a : HostAction) (rest : List HostAction), s.busy = true → s.turn = .host →
    s.host.pending = a :: rest → (∀ r, a ≠ .read r) → a ≠ .awaitDone → a ≠ .powerOn →
    step s = .next { s with host := ⟨rest, s.host.log ++ [⟨a, .refused .busy⟩]⟩,
                            sched := ⟨s.sched.turns.tail, s.sched.count + 1⟩ }

/-- While not busy, a host write changes the register or the bytes it names and no other (R12, R26 to R31, R101); an
index outside a buffer stops the machine (R61). The two faults are the model's choice (log 6, log 10). -/
def Obligations.HostWritesRequestRegisters : Prop :=
  ∀ (s : State) (a : HostAction) (rest : List HostAction), s.busy = false → s.host.pending = a :: rest →
    let after (q : Request) : State :=
      { s with req := q, host := ⟨rest, s.host.log ++ [⟨a, .accepted⟩]⟩ }
    (∀ v, a = .setInByte v → step s = .next (after { s.req with inByte := some v })) ∧
    (∀ v, a = .setInFi v → v < 2 ^ s.cfg.intW → step s = .next (after { s.req with inFi := some v })) ∧
    (∀ v, a = .setInDi v → v < 2 ^ s.cfg.intW → step s = .next (after { s.req with inDi := some v })) ∧
    (∀ v, a = .setInFmax v → v < 2 ^ s.cfg.intW → step s = .next (after { s.req with inFmax := some v })) ∧
    (∀ n, a = .setAtrLen n → step s = .next (after { s.req with atrLen := some n })) ∧
    (∀ v, a = .setPps1 v → step s = .next (after { s.req with pps1 := some v })) ∧
    (∀ n, a = .setTxLen n → step s = .next (after { s.req with txLen := some n })) ∧
    (∀ n, a = .setRxLen n → step s = .next (after { s.req with rxLen := some n })) ∧
    (∀ bs, a = .setAtrBuf bs → bs.length ≤ s.cfg.atrMax →
      ∃ m, step s = .next (after { s.req with atrBuf := m, atrLen := some bs.length }) ∧
        ∀ j, Memory.read m j = if j < bs.length then bs[j]? else s.req.atrBuf.read j) ∧
    (∀ i bs, a = .writeAtrBuf i bs → i + bs.length ≤ s.cfg.atrMax →
      ∃ m, step s = .next (after { s.req with atrBuf := m }) ∧
        ∀ j, Memory.read m j = if i ≤ j ∧ j < i + bs.length then bs[j - i]? else s.req.atrBuf.read j) ∧
    (∀ bs, a = .setTxBuf bs → bs.length ≤ s.cfg.txMax →
      ∃ m, step s = .next (after { s.req with txBuf := m, txLen := some bs.length }) ∧
        ∀ j, Memory.read m j = if j < bs.length then bs[j]? else s.req.txBuf.read j) ∧
    (∀ i bs, a = .writeTxBuf i bs → i + bs.length ≤ s.cfg.txMax →
      ∃ m, step s = .next (after { s.req with txBuf := m }) ∧
        ∀ j, Memory.read m j = if i ≤ j ∧ j < i + bs.length then bs[j - i]? else s.req.txBuf.read j) ∧
    (∀ bs, a = .setAtrBuf bs → s.cfg.atrMax < bs.length → step s = .fault (.noSuchIndex (.atrBuf 0))) ∧
    (∀ bs, a = .setTxBuf bs → s.cfg.txMax < bs.length → step s = .fault (.noSuchIndex (.txBuf 0))) ∧
    (∀ i bs, a = .writeAtrBuf i bs → s.cfg.atrMax < i + bs.length → step s = .fault (.noSuchIndex (.atrBuf i))) ∧
    (∀ i bs, a = .writeTxBuf i bs → s.cfg.txMax < i + bs.length → step s = .fault (.noSuchIndex (.txBuf i))) ∧
    (∀ v, 2 ^ s.cfg.intW ≤ v → (a = .setInFi v → step s = .fault (.noSuchValue .inFi)) ∧
      (a = .setInDi v → step s = .fault (.noSuchValue .inDi)) ∧
      (a = .setInFmax v → step s = .fault (.noSuchValue .inFmax)))

/-- While not busy, a host read of a written result register gives its value and changes no register; `st`, "busy" and
the written integer registers of a request are read at any time, busy or not (R22, R23, R41, R65). The codes of `st` are
the spec's own choice (D1). The model's are the numbers 1 and 0 of "busy" (log 13), the read of an integer request
register while busy (log 8), and the host's record and its turn (log 4). -/
def Obligations.HostReadsGiveRegisterValues : Prop :=
  ∀ (s : State) (r : Reg) (rest : List HostAction), s.host.pending = .read r :: rest →
    s.busy = false ∨ s.turn = .host →
    let gives (v : Nat) : Prop :=
      step s = .next { s with
        host := ⟨rest, s.host.log ++ [⟨.read r, .value v⟩]⟩,
        sched := if s.busy then ⟨s.sched.turns.tail, s.sched.count + 1⟩ else s.sched }
    (r = .st →
      (s.st = .idle → gives 0x0) ∧ (s.st = .dec → gives 0x1) ∧ (s.st = .enc → gives 0x2) ∧ (s.st = .atr → gives 0x3) ∧
      (s.st = .ppsSend → gives 0x4) ∧ (s.st = .ppsRecv → gives 0x5) ∧ (s.st = .ppsCheck → gives 0x6) ∧
      (s.st = .apCheck → gives 0x7) ∧ (s.st = .apHdr → gives 0x8) ∧ (s.st = .apProc → gives 0x9) ∧
      (s.st = .apAck → gives 0xA) ∧ (s.st = .apSw → gives 0xB) ∧ (s.st = .apSw2 → gives 0xC) ∧
      (s.st = .done → gives 0xF)) ∧
    (r = .busy → gives (if s.st = .idle ∨ s.st = .done then 0 else 1)) ∧
    (∀ v, r = .inFi → s.req.inFi = some v → gives v) ∧
    (∀ v, r = .inDi → s.req.inDi = some v → gives v) ∧
    (∀ v, r = .inFmax → s.req.inFmax = some v → gives v) ∧
    (s.busy = false →
      (∀ v, r = .err → s.res.err = some v → gives v.toNat) ∧
      (∀ v, r = .outFi → s.res.outFi = some v → gives v) ∧
      (∀ v, r = .outDi → s.res.outDi = some v → gives v) ∧
      (∀ v, r = .outFmax → s.res.outFmax = some v → gives v) ∧
      (∀ v, r = .outByte → s.res.outByte = some v → gives v.toNat) ∧
      (∀ v, r = .conv → s.res.conv = some v → gives v.toNat) ∧
      (∀ v, r = .ta1Valid → s.res.ta1Valid = some v → gives v.toNat) ∧
      (∀ v, r = .ta1 → s.res.ta1 = some v → gives v.toNat) ∧
      (∀ n, r = .respLen → s.res.respLen = some n → gives n) ∧
      (∀ i v, r = .rxBuf i → i < s.cfg.rxMax → s.res.rxBuf.read i = some v → gives v.toNat) ∧
      (∀ v, r = .sw1 → s.res.sw1 = some v → gives v.toNat) ∧
      (∀ v, r = .sw2 → s.res.sw2 = some v → gives v.toNat))

/-- R42 and R280: a host read of an unwritten result register or integer request register faults, and so does a read of
any result register while the engine is busy. That such a read is a fault is the spec's own choice (D19). A read of
`RX_BUF` at an index outside it (R61) faults too, and so does a read of a register that the host does not read: `CMD`,
which is write-only (R24), an internal register, which the host cannot see (R43, R44), or a request register that only
its operation reads (R26, R28 to R31, R61). That those reads are faults is the model's choice (log 8, log 10), and so is
whose turn it is (log 4). -/
def Obligations.HostReadsOfUnwrittenResultsFault : Prop :=
  ∀ (s : State) (r : Reg) (rest : List HostAction), s.host.pending = .read r :: rest →
    s.busy = false ∨ s.turn = .host →
    (∀ i, r = .rxBuf i → s.cfg.rxMax ≤ i → step s = .fault (.noSuchIndex (.rxBuf i))) ∧
    (r = .cmd ∨
        ((∃ i, r = .ppsReq i) ∨ (∃ i, r = .ppsRsp i) ∨ r = .pb ∨ r = .k ∨ ∃ i, r = .dataTmp i) ∨
        (r = .inByte ∨ r = .atrLen ∨ (∃ i, r = .atrBuf i) ∨ r = .pps1 ∨ r = .txLen ∨ (∃ i, r = .txBuf i) ∨
          r = .rxLen) →
      step s = .fault (.noReadPath r)) ∧
    (r = .inFi ∧ s.req.inFi = none ∨ r = .inDi ∧ s.req.inDi = none ∨ r = .inFmax ∧ s.req.inFmax = none →
      step s = .fault (.unwrittenRead r)) ∧
    (s.busy = true →
      r = .err ∨ r = .cat ∨ r = .outFi ∨ r = .outDi ∨ r = .outFmax ∨ r = .outByte ∨ r = .conv ∨ r = .ta1Valid ∨
        r = .ta1 ∨ r = .respLen ∨ (∃ i, r = .rxBuf i ∧ i < s.cfg.rxMax) ∨ r = .sw1 ∨ r = .sw2 →
      step s = .fault (.unwrittenRead r)) ∧
    (r = .err ∧ s.res.err = none ∨ r = .cat ∧ s.res.err = none ∨ r = .outFi ∧ s.res.outFi = none ∨
      r = .outDi ∧ s.res.outDi = none ∨ r = .outFmax ∧ s.res.outFmax = none ∨
      r = .outByte ∧ s.res.outByte = none ∨ r = .conv ∧ s.res.conv = none ∨
      r = .ta1Valid ∧ s.res.ta1Valid = none ∨ r = .ta1 ∧ s.res.ta1 = none ∨
      r = .respLen ∧ s.res.respLen = none ∨
      (∃ i, r = .rxBuf i ∧ i < s.cfg.rxMax ∧ s.res.rxBuf.read i = none) ∨
      r = .sw1 ∧ s.res.sw1 = none ∨ r = .sw2 ∧ s.res.sw2 = none →
      step s = .fault (.unwrittenRead r))

/-- The Transport set-up calls leave every engine register and the engine's trace as they are; the model records them
as host events (44_transport.md section 3). The host's record is the model's (log 4). -/
def Obligations.SetupCallsLeaveTheEngine : Prop :=
  ∀ (s : State) (c : SetupCall) (rest : List HostAction), s.busy = false → s.host.pending = .setup c :: rest →
    step s = .next { s with host := ⟨rest, s.host.log ++ [⟨.setup c, .accepted⟩]⟩ }

/-- R52: across a power-on reset every register but the tables takes its reset value, busy or not. The reset values
are the spec's own choice (D21); that a power-on may fall while the engine is busy, that the Transport and the host go
on, and whose turn it is, is the model's (log 4). -/
def Obligations.PowerOnResetsEveryRegister : Prop :=
  ∀ (s : State) (rest : List HostAction), s.host.pending = .powerOn :: rest → s.busy = false ∨ s.turn = .host →
    step s = .next { cfg := s.cfg, st := .idle, req := Request.unwritten, res := Results.unwritten,
                     work := Working.unwritten, port := s.port,
                     host := ⟨rest, s.host.log ++ [⟨.powerOn, .accepted⟩]⟩,
                     sched := if s.busy then ⟨s.sched.turns.tail, s.sched.count + 1⟩ else s.sched }

/-! ## DECODE and ENCODE (40_codec.md) -/

/-- R115: the step of state `DEC`. The Fi check comes first. The order is the spec's own choice (D10), and so are the
codes of ERR (D3). That a table value of more than `INT_W` bits keeps its low bits is the model's choice (log 6). -/
def Obligations.DecodeStep : Prop :=
  ∀ (s : State) (b : Byte), s.st = .dec → s.req.inByte = some b →
    (s.cfg.fiTable[b.toNat / 16]? = some .rfu →
      exec .decode s = .next { s with st := .done, res := { s.res with err := some 0x01 } }) ∧
    (∀ f m, s.cfg.fiTable[b.toNat / 16]? = some (.valid f m) → s.cfg.diTable[b.toNat % 16]? = some .rfu →
      exec .decode s = .next { s with st := .done, res := { s.res with err := some 0x02 } }) ∧
    (∀ f m d, s.cfg.fiTable[b.toNat / 16]? = some (.valid f m) → s.cfg.diTable[b.toNat % 16]? = some (.valid d) →
      exec .decode s = .next { s with
        st := .done,
        res := { s.res with err := some 0x00, outFi := some (f % 2 ^ s.cfg.intW),
                            outDi := some (d % 2 ^ s.cfg.intW), outFmax := some (m % 2 ^ s.cfg.intW) } })

/-- PARAM_BYTE in state `DEC`: its two indices select the entries of the rate tables (R82, R115). The order of the two
checks is the spec's own choice (D10), and so are the codes of ERR (D3). The row's own meaning is the model's choice
(log 9), and so is that a table value of more than `INT_W` bits keeps its low bits (log 6). -/
def Obligations.ParamByteSelectsTableEntries : Prop :=
  ∀ (s : State) (i j : Nibble), s.st = .dec →
    (s.cfg.fiTable[i.toNat]? = some .rfu →
      exec (.paramByte i j) s = .next { s with st := .done, res := { s.res with err := some 0x01 } }) ∧
    (∀ f m, s.cfg.fiTable[i.toNat]? = some (.valid f m) → s.cfg.diTable[j.toNat]? = some .rfu →
      exec (.paramByte i j) s = .next { s with st := .done, res := { s.res with err := some 0x02 } }) ∧
    (∀ f m d, s.cfg.fiTable[i.toNat]? = some (.valid f m) → s.cfg.diTable[j.toNat]? = some (.valid d) →
      exec (.paramByte i j) s = .next { s with
        st := .done,
        res := { s.res with err := some 0x00, outFi := some (f % 2 ^ s.cfg.intW),
                            outDi := some (d % 2 ^ s.cfg.intW), outFmax := some (m % 2 ^ s.cfg.intW) } })

/-- With the tables of R110 and R111 and either value of DI7: which bytes fail with `UnsupportedFi`, which with
`UnsupportedDi`, and which decode (R117, whose counts this leaves out). The spec derives it; the tables are its own
choice (D4, D5). -/
def Obligations.DecodeOutcomeOfEveryByte : Prop :=
  ∀ (di7 : DiEntry) (s : State) (b : Byte), di7 = .valid 64 ∨ di7 = .rfu → s.cfg = Config.iso di7 → s.st = .dec →
    s.req.inByte = some b →
    ∃ t, exec .decode s = .next t ∧ t.st = .done ∧
      t.res.err = some (
        if b.toNat / 16 ∈ [7, 8, 14, 15] then 0x01
        else if b.toNat % 16 ∈ [0, 10, 11, 12, 13, 14, 15] ∨ (b.toNat % 16 = 7 ∧ di7 = .rfu) then 0x02
        else 0x00)

/-- R118: what a successful DECODE gives is an Fi and a Di of valid table entries, with a maximum clock above 0, for
every configuration whose tables are as R45 and R46 say. The spec derives it. -/
def Obligations.DecodedParametersAreValid : Prop :=
  ∀ s t : State, s.cfg.wf = true → s.st = .dec → exec .decode s = .next t → t.res.err = some 0x00 →
    ∃ i j f m d : Nat, s.cfg.fiTable[i]? = some (.valid f m) ∧ s.cfg.diTable[j]? = some (.valid d) ∧ 0 < f ∧ 0 < m ∧ 0 < d ∧
      t.res.outFi = some f ∧ t.res.outFmax = some m ∧ t.res.outDi = some d

/-- R121 with R119, R120 and R123: the step of state `ENC`. The byte is made of the least index whose Fi matches with
a sufficient maximum clock and the least index whose Di matches; the Fi search comes first. The order is the spec's
own choice (D11), and so are the codes of ERR (D3). -/
def Obligations.EncodeStep : Prop :=
  ∀ (s : State) (fi di fmax : Word), s.st = .enc → s.req.inFi = some fi → s.req.inDi = some di →
    s.req.inFmax = some fmax →
    let fiFits (i : Nat) : Prop :=
      ∃ m, s.cfg.fiTable[i]? = some (.valid fi m) ∧ fmax ≤ m
    let diFits (j : Nat) : Prop := s.cfg.diTable[j]? = some (.valid di)
    ((∀ i, ¬ fiFits i) →
      exec .encode s = .next { s with st := .done, res := { s.res with err := some 0x03 } }) ∧
    (∀ i, fiFits i → (∀ j, ¬ diFits j) →
      exec .encode s = .next { s with st := .done, res := { s.res with err := some 0x04 } }) ∧
    (∀ i j, fiFits i → (∀ i', i' < i → ¬ fiFits i') → diFits j → (∀ j', j' < j → ¬ diFits j') →
      exec .encode s = .next { s with
        st := .done, res := { s.res with err := some 0x00, outByte := some (BitVec.ofNat 8 (16 * i + j)) } })

/-- R122: the two nibbles of a successful ENCODE's byte select valid entries, so DECODE of it never fails. The spec
derives it. -/
def Obligations.EncodedByteAlwaysDecodes : Prop :=
  ∀ (s t u : State) (b : Byte), s.st = .enc → exec .encode s = .next t → t.res.err = some 0x00 →
    t.res.outByte = some b → u.cfg = s.cfg → u.st = .dec → u.req.inByte = some b →
    (∃ f m, s.cfg.fiTable[b.toNat / 16]? = some (.valid f m)) ∧ (∃ d, s.cfg.diTable[b.toNat % 16]? = some (.valid d)) ∧
    ∃ v, exec .decode u = .next v ∧ v.st = .done ∧ v.res.err = some 0x00

/-- R125: with the tables of R110 and R111 and either value of DI7, ENCODE of an entry pair gives their indices and
DECODE of that byte gives the pair back. The spec derives it; the tables are its own choice (D4, D5). -/
def Obligations.RateByteRoundTrip : Prop :=
  ∀ (di7 : DiEntry) (s u : State) (i j f m d : Nat), di7 = .valid 64 ∨ di7 = .rfu →
    s.cfg = Config.iso di7 → u.cfg = Config.iso di7 →
    (Config.iso di7).fiTable[i]? = some (.valid f m) → (Config.iso di7).diTable[j]? = some (.valid d) →
    s.st = .enc → s.req.inFi = some f → s.req.inDi = some d → s.req.inFmax = some m →
    u.st = .dec → u.req.inByte = some (BitVec.ofNat 8 (16 * i + j)) →
    exec .encode s = .next { s with
      st := .done, res := { s.res with err := some 0x00, outByte := some (BitVec.ofNat 8 (16 * i + j)) } } ∧
    ∃ v, exec .decode u = .next v ∧ v.st = .done ∧ v.res.err = some 0x00 ∧
      v.res.outFi = some f ∧ v.res.outDi = some d ∧ v.res.outFmax = some m

/-- R114: DECODE and ENCODE end in one step without a Transport call. For each value of the request registers they read
and each content of the tables (and width of the result registers, for DECODE) there is one outcome, an `ERR` and the
result written, the same in every state, whatever else that state holds; nothing else changes. -/
def Obligations.CodecIsPure : Prop :=
  ∀ (fiTable : Vector FiEntry 16) (diTable : Vector DiEntry 16),
    (∀ (width : Nat) (b : Byte), ∃ (e : Byte) (result : Option (Word × Word × Word)), ∀ s : State,
      s.cfg.fiTable = fiTable → s.cfg.diTable = diTable → s.cfg.intW = width → s.st = .dec → s.req.inByte = some b →
      exec .decode s = .next { s with
        st := .done,
        res := match result with
          | none => { s.res with err := some e }
          | some (fi, di, fmax) =>
            { s.res with err := some e, outFi := some fi, outDi := some di, outFmax := some fmax } }) ∧
    (∀ fi di fmax : Word, ∃ (e : Byte) (result : Option Byte), ∀ s : State,
      s.cfg.fiTable = fiTable → s.cfg.diTable = diTable → s.st = .enc →
      s.req.inFi = some fi → s.req.inDi = some di → s.req.inFmax = some fmax →
      exec .encode s = .next { s with
        st := .done,
        res := match result with
          | none => { s.res with err := some e }
          | some b => { s.res with err := some e, outByte := some b } })

/-- R119 and R120: a search of ENCODE returns the least index whose entry meets its condition, and none where no entry
does. -/
def Obligations.SearchesReturnTheLeastIndex : Prop :=
  ∀ (s : State) (fi di fmax : Word),
    let fiFits (i : Nat) : Prop :=
      ∃ m, s.cfg.fiTable[i]? = some (.valid fi m) ∧ fmax ≤ m
    let diFits (j : Nat) : Prop := s.cfg.diTable[j]? = some (.valid di)
    (∀ i : Nibble, fiSearch fi fmax s = some i ↔ fiFits i.toNat ∧ ∀ i', i' < i.toNat → ¬ fiFits i') ∧
    (fiSearch fi fmax s = none ↔ ∀ i, ¬ fiFits i) ∧
    (∀ j : Nibble, diSearch di s = some j ↔ diFits j.toNat ∧ ∀ j', j' < j.toNat → ¬ diFits j') ∧
    (diSearch di s = none ↔ ∀ j, ¬ diFits j)

/-! ## PARSE_ATR (41_atr.md) -/

/-- R141: the step of state `ATR`, for every length, TS and T0. That an ATR of one byte succeeds without a check of its
TS is the spec's own choice (D12), and so are the codes of ERR and CONV (D3). -/
def Obligations.ParseAtrStep : Prop :=
  ∀ (s : State) (n : Nat), s.st = .atr → s.req.atrLen = some n →
    let without (c : BitVec 2) : Host.Outcome State Fault Refusal :=
      .next { s with st := .done, res := { s.res with err := some 0x00, conv := some c, ta1Valid := some false } }
    (n < 2 → exec .parseAtr s = without 0) ∧
    (∀ ts, 2 ≤ n → s.req.atrBuf.read 0 = some ts → ts ≠ 0x3B → ts ≠ 0x3F →
      exec .parseAtr s = .next { s with st := .done, res := { s.res with err := some 0x05 } }) ∧
    (∀ ts c, s.req.atrBuf.read 0 = some ts → (ts = 0x3B ∧ c = 1 ∨ ts = 0x3F ∧ c = 2) →
      (n = 2 → exec .parseAtr s = without c) ∧
      (∀ t0, 3 ≤ n → s.req.atrBuf.read 1 = some t0 →
        (t0.getLsbD 4 = false → exec .parseAtr s = without c) ∧
        (∀ ta1, t0.getLsbD 4 = true → s.req.atrBuf.read 2 = some ta1 →
          exec .parseAtr s = .next { s with
            st := .done,
            res := { s.res with err := some 0x00, conv := some c, ta1Valid := some true, ta1 := some ta1 } })))

/-- The TS rows in state `ATR` (R85, R141): direct and inverse give `CONV` 1 and 2 and go on to T0; every other TS
fails from length 2 on; a shorter ATR's TS is not checked, which is the spec's own choice (D12). The rows' own meaning
is the model's (log 9). -/
def Obligations.TsRowsInAtr : Prop :=
  ∀ (s : State) (n : Nat) (ts : Byte), s.st = .atr → s.req.atrLen = some n →
    let without (c : BitVec 2) : Host.Outcome State Fault Refusal :=
      .next { s with st := .done, res := { s.res with err := some 0x00, conv := some c, ta1Valid := some false } }
    (n < 2 → exec .tsDirect s = without 0 ∧ exec .tsInverse s = without 0 ∧ exec (.tsInvalid ts) s = without 0) ∧
    (2 ≤ n → exec (.tsInvalid ts) s = .next { s with st := .done, res := { s.res with err := some 0x05 } }) ∧
    (n = 2 → exec .tsDirect s = without 1 ∧ exec .tsInverse s = without 2) ∧
    (∀ t0, 3 ≤ n → s.req.atrBuf.read 1 = some t0 →
      (t0.getLsbD 4 = false → exec .tsDirect s = without 1 ∧ exec .tsInverse s = without 2) ∧
      (∀ ta1, t0.getLsbD 4 = true → s.req.atrBuf.read 2 = some ta1 →
        exec .tsDirect s = .next { s with
          st := .done,
          res := { s.res with err := some 0x00, conv := some 1, ta1Valid := some true, ta1 := some ta1 } } ∧
        exec .tsInverse s = .next { s with
          st := .done,
          res := { s.res with err := some 0x00, conv := some 2, ta1Valid := some true, ta1 := some ta1 } }))

/-- The T0 rows in state `ATR` (R86, R144 to R146): from length 3 on, bit 4 decides whether byte 2 is TA1, whatever
the other bits are; an invalid TS fails first; a shorter ATR's T0 is not inspected. That an ATR of one byte succeeds is
the spec's own choice (D12); the rows' own meaning is the model's (log 9). -/
def Obligations.T0RowsInAtr : Prop :=
  ∀ (s : State) (n : Nat) (hi : BitVec 3) (lo : Nibble), s.st = .atr → s.req.atrLen = some n →
    let without (c : BitVec 2) : Host.Outcome State Fault Refusal :=
      .next { s with st := .done, res := { s.res with err := some 0x00, conv := some c, ta1Valid := some false } }
    (n < 2 → exec (.t0Ta1Present hi lo) s = without 0 ∧ exec (.t0Ta1Absent hi lo) s = without 0) ∧
    (∀ ts, 2 ≤ n → s.req.atrBuf.read 0 = some ts → ts ≠ 0x3B → ts ≠ 0x3F →
      exec (.t0Ta1Present hi lo) s = .next { s with st := .done, res := { s.res with err := some 0x05 } } ∧
      exec (.t0Ta1Absent hi lo) s = .next { s with st := .done, res := { s.res with err := some 0x05 } }) ∧
    (∀ ts c, s.req.atrBuf.read 0 = some ts → (ts = 0x3B ∧ c = 1 ∨ ts = 0x3F ∧ c = 2) →
      (n = 2 → exec (.t0Ta1Present hi lo) s = without c ∧ exec (.t0Ta1Absent hi lo) s = without c) ∧
      (3 ≤ n → exec (.t0Ta1Absent hi lo) s = without c) ∧
      (∀ ta1, 3 ≤ n → s.req.atrBuf.read 2 = some ta1 →
        exec (.t0Ta1Present hi lo) s = .next { s with
          st := .done,
          res := { s.res with err := some 0x00, conv := some c, ta1Valid := some true, ta1 := some ta1 } }))

/-- R147: PARSE_ATR reads no byte at index 3 or above: two ATRs that agree on the first three bytes have one outcome. -/
def Obligations.ParseAtrReadsThreeBytes : Prop :=
  ∀ (s : State) (m : Memory), s.st = .atr → (∀ j, j < 3 → Memory.read m j = s.req.atrBuf.read j) →
    (∀ t, exec .parseAtr s = .next t →
      exec .parseAtr { s with req := { s.req with atrBuf := m } } =
        .next { t with req := { s.req with atrBuf := m } }) ∧
    (∀ f, exec .parseAtr s = .fault f → exec .parseAtr { s with req := { s.req with atrBuf := m } } = .fault f)

/-! ## NEGOTIATE_PPS (42_pps.md) -/

/-- R162: the step of state `PPS_SEND` is one `Send` of the request frame; `ok` moves on to `PPS_RECV` (R161). The codes of
ERR are the spec's own choice (D3). -/
def Obligations.PpsSendStep : Prop :=
  ∀ (s : State) (frame : List Byte), s.st = .ppsSend → s.work.ppsReq.readBytes 0 4 = some frame →
    let sent (ok : Bool) : Port :=
      { answers := s.port.answers.tail, calls := s.port.calls + 1, trace := s.port.trace ++ [.send frame ok] }
    (∀ bs, s.answer = .ok bs → exec .negotiatePps s = .next { s with st := .ppsRecv, port := sent true }) ∧
    (s.answer = .err →
      exec .negotiatePps s = .next { s with st := .done, res := { s.res with err := some 0x06 }, port := sent false })

/-- R163: the step of state `PPS_RECV` is one `Recv(4)`; an error or fewer than four bytes is `NoResponse`. That an
error is `NoResponse` is the spec's own choice (D13). -/
def Obligations.PpsReceiveStep : Prop :=
  ∀ s : State, s.st = .ppsRecv →
    let received (answer : Option (List Byte)) : Port :=
      { answers := s.port.answers.tail, calls := s.port.calls + 1, trace := s.port.trace ++ [.recv 4 answer] }
    (∀ b0 b1 b2 b3 more, s.answer = .ok (b0 :: b1 :: b2 :: b3 :: more) →
      exec .negotiatePps s = .next { s with
        st := .ppsCheck, work := { s.work with ppsRsp := [(0, b0), (1, b1), (2, b2), (3, b3)] },
        port := received (some [b0, b1, b2, b3]) }) ∧
    (∀ bs, s.answer = .ok bs → bs.length < 4 →
      exec .negotiatePps s = .next { s with
        st := .done, res := { s.res with err := some 0x07 }, port := received (some bs) }) ∧
    (s.answer = .err →
      exec .negotiatePps s = .next { s with
        st := .done, res := { s.res with err := some 0x07 }, port := received none })

/-- R164: the step of state `PPS_CHECK` succeeds just when the response equals the request byte for byte. That a
response with another PPS0 is a mismatch too is the spec's own choice (D14), and so are the codes of ERR (D3). -/
def Obligations.PpsCheckStep : Prop :=
  ∀ (s : State) (request response : List Byte), s.st = .ppsCheck → s.work.ppsReq.readBytes 0 4 = some request →
    s.work.ppsRsp.readBytes 0 4 = some response →
    (response = request →
      exec .negotiatePps s = .next { s with st := .done, res := { s.res with err := some 0x00 } }) ∧
    (response ≠ request →
      exec .negotiatePps s = .next { s with st := .done, res := { s.res with err := some 0x08 } })

/-- The PPS_FRAME row (R87, R88, R162, R164): in `PPS_SEND` the four bytes are transmitted; in `PPS_CHECK` they are
compared with the request. The row's own meaning is the model's choice (log 9). -/
def Obligations.PpsFrameRow : Prop :=
  ∀ (s : State) (p : Byte),
    let frame : List Byte := [0xFF, 0x10, p, 0xEF ^^^ p]
    let sent (ok : Bool) : Port :=
      { answers := s.port.answers.tail, calls := s.port.calls + 1, trace := s.port.trace ++ [.send frame ok] }
    (∀ bs, s.st = .ppsSend → s.answer = .ok bs →
      exec (.ppsFrame p) s = .next { s with st := .ppsRecv, port := sent true }) ∧
    (s.st = .ppsSend → s.answer = .err →
      exec (.ppsFrame p) s = .next { s with st := .done, res := { s.res with err := some 0x06 }, port := sent false }) ∧
    (∀ request, s.st = .ppsCheck → s.work.ppsReq.readBytes 0 4 = some request →
      (request = frame →
        exec (.ppsFrame p) s = .next { s with st := .done, res := { s.res with err := some 0x00 } }) ∧
      (request ≠ frame →
        exec (.ppsFrame p) s = .next { s with st := .done, res := { s.res with err := some 0x08 } }))

/-- A whole negotiation, from the `CMD` write: it ends within four steps, and with success just when the frame was
sent and its very bytes came back, whatever the Transport answers (R160, R161, R166). That one `Recv(4)` is made, and
that any difference is a mismatch, are the spec's own choices (D13, D14); the trace and the answer list are the model's
(log 2). -/
def Obligations.NegotiationSucceedsOnlyOnEcho : Prop :=
  ∀ (s : State) (p : Byte) (a1 a2 : TransportAnswer) (rest : List TransportAnswer), s.busy = false →
    s.req.pps1 = some p → s.host.pending = [.writeCmd 0x04] → s.port.answers = a1 :: a2 :: rest →
    let frame : List Byte := [0xFF#8, 0x10#8, p, 0xEF#8 ^^^ p]
    ∃ t : State, Sys2Proof.core.run 4 s = .next t ∧ t.st = .done ∧
      (t.res.err = some 0x00 ↔ (∃ bs, a1 = TransportAnswer.ok bs) ∧ ∃ bs, a2 = TransportAnswer.ok bs ∧ bs.take 4 = frame) ∧
      t.res = { Results.unwritten with err := t.res.err } ∧
      (∃ ok, t.port.trace = s.port.trace ++ [Event.send frame ok] ∨
        ∃ answer, t.port.trace = s.port.trace ++ [Event.send frame ok, Event.recv 4 answer])

/-! ## APDU_EXCHANGE (43_apdu.md) -/

/-- R182: the step of state `AP_CHECK` refuses data in both directions before any Transport call; otherwise it moves on to
`AP_HDR` (R181). The codes of ERR are the spec's own choice (D3). -/
def Obligations.BidirectionalCheckStep : Prop :=
  ∀ (s : State) (tx rx : Nat), s.st = .apCheck → s.req.txLen = some tx → s.req.rxLen = some rx →
    (5 < tx ∧ 0 < rx →
      exec .apduExchange s = .next { s with st := .done, res := { s.res with err := some 0x09 } }) ∧
    (¬ (5 < tx ∧ 0 < rx) → exec .apduExchange s = .next { s with st := .apHdr })

/-- R183: the step of state `AP_HDR` sends exactly the five header bytes, in one `Send`; `ok` moves on to `AP_PROC` (R181).
The codes of ERR are the spec's own choice (D3). -/
def Obligations.HeaderStep : Prop :=
  ∀ (s : State) (cla ins p1 p2 p3 : Byte), s.st = .apHdr → s.req.txBuf.read 0 = some cla →
    s.req.txBuf.read 1 = some ins → s.req.txBuf.read 2 = some p1 → s.req.txBuf.read 3 = some p2 →
    s.req.txBuf.read 4 = some p3 →
    let sent (ok : Bool) : Port :=
      { answers := s.port.answers.tail, calls := s.port.calls + 1,
        trace := s.port.trace ++ [.send [cla, ins, p1, p2, p3] ok] }
    (∀ bs, s.answer = .ok bs → exec .apduExchange s = .next { s with st := .apProc, port := sent true }) ∧
    (s.answer = .err →
      exec .apduExchange s = .next { s with st := .done, res := { s.res with err := some 0x0A }, port := sent false })

/-- R184 to R187 with the order of R92: the step of state `AP_PROC`, for every byte and every INS. That SW2 is not read
before `UnexpectedStatusByte` is the spec's own choice (D17), and so are the codes of ERR (D3). -/
def Obligations.ProcedureByteStep : Prop :=
  ∀ (s : State) (ins : Byte) (tx rx : Nat), s.st = .apProc → s.req.txBuf.read 1 = some ins →
    s.req.txLen = some tx → s.req.rxLen = some rx →
    let received (answer : Option (List Byte)) : Port :=
      { answers := s.port.answers.tail, calls := s.port.calls + 1, trace := s.port.trace ++ [.recv 1 answer] }
    (s.answer = .err →
      exec .apduExchange s = .next { s with
        st := .done, res := { s.res with err := some 0x0B }, port := received none }) ∧
    (s.answer = .ok [] →
      exec .apduExchange s = .next { s with
        st := .done, res := { s.res with err := some 0x0B }, port := received (some []) }) ∧
    (∀ b more, s.answer = .ok (b :: more) →
      let port := received (some [b])
      (b = 0x60 → exec .apduExchange s = .next { s with port := port }) ∧
      (b ≠ 0x60 → b = ins →
        exec .apduExchange s = .next { s with st := .apAck, work := { s.work with pb := some b }, port := port }) ∧
      (b ≠ 0x60 → b ≠ ins → (b.toNat / 16 = 6 ∨ b.toNat / 16 = 9) →
        (tx ≤ 5 ∧ rx = 0 →
          exec .apduExchange s = .next { s with st := .apSw2, work := { s.work with pb := some b }, port := port }) ∧
        (5 < tx ∨ 0 < rx →
          exec .apduExchange s = .next { s with
            st := .done, res := { s.res with err := some 0x0F }, port := port })) ∧
      (b ≠ ins → b.toNat / 16 ≠ 6 → b.toNat / 16 ≠ 9 →
        exec .apduExchange s = .next { s with
          st := .done, res := { s.res with err := some 0x10 }, port := port }))

/-- The five procedure-byte rows in state `AP_PROC` (R92, R184 to R187). The rows' own meaning is the model's choice
(log 9). -/
def Obligations.ProcedureByteRows : Prop :=
  ∀ (s : State) (ins b : Byte) (lo : Nibble) (tx rx : Nat), s.st = .apProc → s.req.txLen = some tx →
    s.req.rxLen = some rx →
    exec .pbNull s = .next s ∧
    exec (.pbAck ins) s = .next { s with st := .apAck, work := { s.work with pb := some ins } } ∧
    (tx ≤ 5 ∧ rx = 0 →
      exec (.pbSw16x lo) s = .next { s with
        st := .apSw2, work := { s.work with pb := some (BitVec.ofNat 8 (0x60 + lo.toNat)) } } ∧
      exec (.pbSw19x lo) s = .next { s with
        st := .apSw2, work := { s.work with pb := some (BitVec.ofNat 8 (0x90 + lo.toNat)) } }) ∧
    (5 < tx ∨ 0 < rx →
      exec (.pbSw16x lo) s = .next { s with st := .done, res := { s.res with err := some 0x0F } } ∧
      exec (.pbSw19x lo) s = .next { s with st := .done, res := { s.res with err := some 0x0F } }) ∧
    exec (.pbInvalid b) s = .next { s with st := .done, res := { s.res with err := some 0x10 } }

/-- R188: the data phase. One `Send` of all the data, or one `Recv(RX_LEN)` whose bytes and count are kept, or no
call. One call for all the data is the spec's own choice (D18). -/
def Obligations.DataPhaseStep : Prop :=
  ∀ (s : State) (tx rx : Nat), s.st = .apAck → s.req.txLen = some tx → s.req.rxLen = some rx →
    let after (e : Event) : Port :=
      { answers := s.port.answers.tail, calls := s.port.calls + 1, trace := s.port.trace ++ [e] }
    (∀ data, 5 < tx → s.req.txBuf.readBytes 5 (tx - 5) = some data →
      (∀ bs, s.answer = .ok bs →
        exec .apduExchange s = .next { s with
          st := .apSw, work := { s.work with k := some 0 }, port := after (.send data true) }) ∧
      (s.answer = .err →
        exec .apduExchange s = .next { s with
          st := .done, res := { s.res with err := some 0x0C }, port := after (.send data false) })) ∧
    (tx ≤ 5 → 0 < rx → rx ≤ s.cfg.rxMax →
      (∀ bs, s.answer = .ok bs →
        ∃ m, exec .apduExchange s = .next { s with
            st := .apSw, work := { s.work with k := some (min rx bs.length), dataTmp := m },
            port := after (.recv rx (some (bs.take rx))) } ∧
          ∀ j, Memory.read m j = if j < min rx bs.length then bs[j]? else s.work.dataTmp.read j) ∧
      (s.answer = .err →
        exec .apduExchange s = .next { s with
          st := .done, res := { s.res with err := some 0x0D }, port := after (.recv rx none) })) ∧
    (tx ≤ 5 → rx = 0 →
      exec .apduExchange s = .next { s with st := .apSw, work := { s.work with k := some 0 } })

/-- R189: the step of state `AP_SW` is one `Recv(2)`; two bytes commit the response and the status word together, and
anything less is `StatusWordMissing`. A short status word as a failure is the spec's own choice (D15). -/
def Obligations.StatusWordStep : Prop :=
  ∀ (s : State) (k : Nat) (data : List Byte), s.st = .apSw → s.work.k = some k →
    s.work.dataTmp.readBytes 0 k = some data → k ≤ s.cfg.rxMax →
    let received (answer : Option (List Byte)) : Port :=
      { answers := s.port.answers.tail, calls := s.port.calls + 1, trace := s.port.trace ++ [.recv 2 answer] }
    (∀ a b more, s.answer = .ok (a :: b :: more) →
      ∃ m, exec .apduExchange s = .next { s with
          st := .done,
          res := { s.res with err := some 0x00, respLen := some k, rxBuf := m, sw1 := some a, sw2 := some b },
          port := received (some [a, b]) } ∧
        ∀ j, Memory.read m j = if j < k then data[j]? else s.res.rxBuf.read j) ∧
    (∀ bs, s.answer = .ok bs → bs.length < 2 →
      exec .apduExchange s = .next { s with
        st := .done, res := { s.res with err := some 0x0E }, port := received (some bs) }) ∧
    (s.answer = .err →
      exec .apduExchange s = .next { s with
        st := .done, res := { s.res with err := some 0x0E }, port := received none })

/-- R190: the step of state `AP_SW2` is one `Recv(1)`; the byte kept is SW1, the byte received SW2, with no response
data. The failure kind is the spec's own choice (D16). -/
def Obligations.SecondStatusByteStep : Prop :=
  ∀ (s : State) (pb : Byte), s.st = .apSw2 → s.work.pb = some pb →
    let received (answer : Option (List Byte)) : Port :=
      { answers := s.port.answers.tail, calls := s.port.calls + 1, trace := s.port.trace ++ [.recv 1 answer] }
    (∀ b more, s.answer = .ok (b :: more) →
      exec .apduExchange s = .next { s with
        st := .done, res := { s.res with err := some 0x00, respLen := some 0, sw1 := some pb, sw2 := some b },
        port := received (some [b]) }) ∧
    (s.answer = .ok [] →
      exec .apduExchange s = .next { s with
        st := .done, res := { s.res with err := some 0x0E }, port := received (some []) }) ∧
    (s.answer = .err →
      exec .apduExchange s = .next { s with
        st := .done, res := { s.res with err := some 0x0E }, port := received none })

/-- R194 over a whole exchange (source example E9): after any number of NULL bytes and the ACK byte, the engine
returns exactly the data bytes received, also fewer than asked for or none, and the status word; the trace is the
calls made. The single data `Recv` is the spec's own choice (D18); the trace and the answer list are the model's
(log 2). -/
def Obligations.AcknowledgedReadReturnsData : Prop :=
  ∀ (s : State) (k n : Nat) (cla ins p1 p2 p3 sw1 sw2 : Byte) (x data : List Byte) (rest : List TransportAnswer),
    let header : List Byte := [cla, ins, p1, p2, p3]
    let nulls : List TransportAnswer := List.replicate k (.ok [0x60#8])
    let last : List TransportAnswer := [.ok [ins], .ok data, .ok [sw1, sw2]]
    let nullEvents : List Event := List.replicate k (.recv 1 (some [0x60#8]))
    let lastEvents : List Event := [.recv 1 (some [ins]), .recv n (some data), .recv 2 (some [sw1, sw2])]
    s.st = .apCheck → s.host.pending = [] → s.req.txLen = some 5 → s.req.txBuf.readBytes 0 5 = some header →
    s.req.rxLen = some n → 0 < n → n ≤ s.cfg.rxMax → ins ≠ 0x60 → data.length ≤ n →
    s.port.answers = TransportAnswer.ok x :: (nulls ++ (last ++ rest)) →
    ∃ t : State, Sys2Proof.core.run (5 + k) s = .next t ∧ t.st = .done ∧ t.res.err = some 0x00 ∧
      t.res.respLen = some data.length ∧ (∀ j, j < data.length → t.res.rxBuf.read j = data[j]?) ∧
      t.res.sw1 = some sw1 ∧ t.res.sw2 = some sw2 ∧ t.port.answers = rest ∧
      t.port.trace = s.port.trace ++ (Event.send header true :: (nullEvents ++ lastEvents))

/-- R192: the NULL loop has no bound in the engine: after any number of NULL answers the state is still `AP_PROC`, no
register has changed, and each answer has left its event. The spec's own choice (D23); the trace and the answer list
are the model's (log 2). -/
def Obligations.NullStreamIsNotBounded : Prop :=
  ∀ (s : State) (n : Nat) (ins : Byte) (rest : List TransportAnswer), s.st = .apProc → s.host.pending = [] →
    s.req.txBuf.read 1 = some ins → s.port.answers = List.replicate n (TransportAnswer.ok [0x60#8]) ++ rest →
    Sys2Proof.core.run n s = .next { s with
      port := { answers := rest, calls := s.port.calls + n,
                trace := s.port.trace ++ List.replicate n (Event.recv 1 (some [0x60#8])) } }

/-- R197 and R282 under the premise TRANSPORT_TIMEOUT (R276): once issued, an exchange in which the Transport answers
`n` NULL bytes and then anything else is over within `5 + n` steps and `4 + n` Transport calls, whatever the other
answers are. The premise is the spec's own (D23); the answer list is the model's (log 2). -/
def Obligations.ExchangeEndsUnderTransportTimeout : Prop :=
  ∀ (s : State) (n : Nat) (header stop : TransportAnswer) (rest : List TransportAnswer), s.inv = true →
    s.st = .apCheck → s.host.pending = [] →
    s.port.answers = header :: (List.replicate n (TransportAnswer.ok [0x60#8]) ++ stop :: rest) →
    (∀ more, stop ≠ .ok (0x60 :: more)) →
    ∃ steps t, steps ≤ 5 + n ∧ Sys2Proof.core.run steps s = .next t ∧ t.st = .done ∧
      t.port.trace.length ≤ s.port.trace.length + 4 + n

/-- R91: P3 is transmitted and not interpreted: changing `TX_BUF[4]` changes no step but the header's. The spec's own
choice (D9). -/
def Obligations.P3IsOnlyTransmitted : Prop :=
  ∀ (s : State) (p3 q3 : Byte) (i : Instr) (t : State), s.req.txBuf.read 4 = some p3 → s.st ≠ .apHdr →
    exec i s = .next t →
    exec i { s with req := { s.req with txBuf := s.req.txBuf.write 4 q3 } } =
      .next { t with req := { t.req with txBuf := t.req.txBuf.write 4 q3 } }

/-! ## The whole machine -/

/-- R51 and R270: after reset `st` is `IDLE`, every register is unwritten, and the tables hold their contents (with
the default `DI7 = 64`). The reset values are the spec's own choice (D21), and so are the table contents (D4, D5). -/
def Obligations.ResetState : Prop :=
  State.reset.st = .idle ∧
  State.reset.req = { inByte := none, inFi := none, inDi := none, inFmax := none, atrLen := none, atrBuf := [],
                      pps1 := none, txLen := none, txBuf := [], rxLen := none } ∧
  State.reset.res = { err := none, outFi := none, outDi := none, outFmax := none, outByte := none, conv := none,
                      ta1Valid := none, ta1 := none, respLen := none, rxBuf := [], sw1 := none, sw2 := none } ∧
  State.reset.work = { ppsReq := [], ppsRsp := [], pb := none, k := none, dataTmp := [] } ∧
  State.reset.cfg.fiTable.toList =
    [.valid 372 4000000, .valid 372 5000000, .valid 558 6000000, .valid 744 8000000, .valid 1116 12000000,
     .valid 1488 16000000, .valid 1860 20000000, .rfu, .rfu, .valid 512 5000000, .valid 768 7500000,
     .valid 1024 10000000, .valid 1536 15000000, .valid 2048 20000000, .rfu, .rfu] ∧
  State.reset.cfg.diTable.toList =
    [.rfu, .valid 1, .valid 2, .valid 4, .valid 8, .valid 16, .valid 32, .valid 64, .valid 12, .valid 20,
     .rfu, .rfu, .rfu, .rfu, .rfu, .rfu]

/-- The invariant holds after reset, for every configuration. -/
def Obligations.InvariantHoldsAtReset : Prop := ∀ c : Config, (State.resetOf c).inv = true

/-- Every step keeps the invariant: canonical buffers within their ranges, results valid as R41 says, and what a busy
state relies on written. -/
def Obligations.StepKeepsInvariant : Prop :=
  ∀ s t : State, s.inv = true → step s = .next t → t.inv = true

/-- R284: no busy state is stuck. With the invariant, a busy engine's next step is always enabled, whatever the
Transport answers, so a rule never reads an unwritten register (R42); the machine takes it while the host waits or has
nothing to do, and at the engine's turns whatever the host's next action is. The spec derives that no busy state is
stuck; whose turn it is is the model's choice (log 4). -/
def Obligations.BusyEngineIsNeverStuck : Prop :=
  ∀ s : State, s.inv = true → s.busy = true →
    (∃ t, engineStep s = .next t) ∧
    (s.host.pending = [] ∨ (∃ rest, s.host.pending = .awaitDone :: rest) ∨ s.turn = .engine → ∃ t, step s = .next t)

/-- No step of the machine ends in a refusal: what the spec refuses is a host action that changes nothing. The model's
choice (log 4). -/
def Obligations.StepNeverEndsInRefusal : Prop := ∀ (s : State) (r : Refusal), step s ≠ .refused r

/-- R32: the engine never writes a request register; a host write while busy is refused; and a request register
changes at no step but the host's own write to one, or a power-on reset. The spec's own choice (D20). -/
def Obligations.RequestRegistersAreTheHosts : Prop :=
  (∀ (i : Instr) (s t : State), exec i s = .next t → t.req = s.req) ∧
  (∀ s t : State, s.busy = true → step s = .next t → t.req = s.req ∨ ∃ rest, s.host.pending = .powerOn :: rest) ∧
  (∀ s t : State, step s = .next t → t.req ≠ s.req →
    ∃ a rest, s.host.pending = a :: rest ∧ (∀ c, a ≠ .writeCmd c) ∧ (∀ r, a ≠ .read r) ∧ (∀ c, a ≠ .setup c) ∧
      a ≠ .awaitDone)

/-- R47: no step writes the rate tables or a parameter. -/
def Obligations.TablesNeverChange : Prop :=
  ∀ s t : State, step s = .next t → t.cfg = s.cfg

/-- A step leaves `st` as it is, or is an issue from `IDLE` or `DONE` to a first state, or a transition of the state
machine of R22, or a power-on reset. The codes of `st` are the spec's own choice (D1). -/
def Obligations.StateRegisterTransitions : Prop :=
  ∀ s t : State, step s = .next t →
    t.st = s.st ∨ ((s.st = .idle ∨ s.st = .done) ∧ t.st.first = true) ∨ s.st.mayStepTo t.st = true ∨
      (t.st = .idle ∧ ∃ rest, s.host.pending = .powerOn :: rest)

/-- `ERR` is written in just the transitions to `DONE` (R33): a step of a busy operation that does not end it leaves
every result register alone. The codes of ERR are the spec's own choice (D3). -/
def Obligations.ErrIsWrittenAtTheEndAlone : Prop :=
  ∀ (i : Instr) (s t : State), s.busy = true → exec i s = .next t →
    (t.st = .done ∧ t.res.err.isSome) ∨ (t.st ≠ .done ∧ t.res = s.res)

/-- A step makes at most one Transport call (R285), and each call keeps the contract: a `Send` is not empty (R220), a
`Recv(n)` asks for at least one byte and returns at most `n` (R221). The step's granularity is the spec's own choice
(D24); the trace is the model's (log 2). -/
def Obligations.AtMostOneTransportCallPerStep : Prop :=
  ∀ s t : State, step s = .next t →
    t.port = s.port ∨
    ∃ e, t.port = { answers := s.port.answers.tail, calls := s.port.calls + 1, trace := s.port.trace ++ [e] } ∧
      ((∃ bs ok, e = .send bs ok ∧ bs ≠ []) ∨
        ∃ n answer, e = .recv n answer ∧ 1 ≤ n ∧ ∀ r, answer = some r → r.length ≤ n)

/-- R244: an operation that fails writes `ERR` and no other result register, in the step that ends it. -/
def Obligations.FailureWritesErrAlone : Prop :=
  ∀ (i : Instr) (s t : State) (c : Byte), s.busy = true → exec i s = .next t → t.st = .done → t.res.err = some c →
    c ≠ 0x00 → t.res = { s.res with err := some c } ∧ t.work = s.work

/-- R240: the code a state can end in. A failure's code tells the phase that failed (R242). The codes are the spec's
own choice (D3). -/
def Obligations.FailureCodesOfEachState : Prop :=
  ∀ (i : Instr) (s t : State) (c : Byte), s.busy = true → exec i s = .next t → t.st = .done → t.res.err = some c →
    c ∈ (match s.st with
      | .dec => [0x00#8, 0x01#8, 0x02#8]
      | .enc => [0x00#8, 0x03#8, 0x04#8]
      | .atr => [0x00#8, 0x05#8]
      | .ppsSend => [0x06#8]
      | .ppsRecv => [0x07#8]
      | .ppsCheck => [0x00#8, 0x08#8]
      | .apCheck => [0x09#8]
      | .apHdr => [0x0A#8]
      | .apProc => [0x0B#8, 0x0F#8, 0x10#8]
      | .apAck => [0x0C#8, 0x0D#8]
      | .apSw | .apSw2 => [0x00#8, 0x0E#8]
      | .idle | .done => [])

/-- The frame of an engine step on the buffers: every byte reads as before but the response frame in `PPS_RECV`, the
bytes received in `AP_ACK`, and `RX_BUF[0..K-1]` in `AP_SW`. -/
def Obligations.EngineStepFrameOnBuffers : Prop :=
  ∀ (i : Instr) (s t : State) (a : Nat), s.busy = true → exec i s = .next t →
    t.req.atrBuf.read a = s.req.atrBuf.read a ∧ t.req.txBuf.read a = s.req.txBuf.read a ∧
    t.work.ppsReq.read a = s.work.ppsReq.read a ∧
    (s.st ≠ .ppsRecv → t.work.ppsRsp.read a = s.work.ppsRsp.read a) ∧
    ((s.st = .apAck → ∀ tx rx r, s.req.txLen = some tx → tx ≤ 5 → s.req.rxLen = some rx → 0 < rx →
        s.recvAnswer rx = some r → r.length ≤ a) → t.work.dataTmp.read a = s.work.dataTmp.read a) ∧
    ((s.st = .apSw → ∀ k, s.work.k = some k → k ≤ a) → t.res.rxBuf.read a = s.res.rxBuf.read a)

/-- The frame of an engine step on the registers: a result register is written in its operation's last states alone, an
internal register in its one state. -/
def Obligations.EngineStepFrameOnRegisters : Prop :=
  ∀ (i : Instr) (s t : State), s.busy = true → exec i s = .next t →
    t.cfg = s.cfg ∧ t.req = s.req ∧ t.host = s.host ∧ t.sched = s.sched ∧
    (s.st ≠ .dec → t.res.outFi = s.res.outFi ∧ t.res.outDi = s.res.outDi ∧ t.res.outFmax = s.res.outFmax) ∧
    (s.st ≠ .enc → t.res.outByte = s.res.outByte) ∧
    (s.st ≠ .atr → t.res.conv = s.res.conv ∧ t.res.ta1Valid = s.res.ta1Valid ∧ t.res.ta1 = s.res.ta1) ∧
    (s.st ≠ .apSw → s.st ≠ .apSw2 →
      t.res.respLen = s.res.respLen ∧ t.res.sw1 = s.res.sw1 ∧ t.res.sw2 = s.res.sw2) ∧
    (s.st ≠ .apProc → t.work.pb = s.work.pb) ∧ (s.st ≠ .apAck → t.work.k = s.work.k) ∧
    (s.st = .dec ∨ s.st = .enc ∨ s.st = .atr ∨ s.st = .ppsCheck ∨ s.st = .apCheck → t.port = s.port)

/-- R34: `CAT` is a view of `ERR`. Its values are the spec's own choice (D3). -/
def Obligations.CatIsAViewOfErr : Prop :=
  (∀ (s : State) (rest : List HostAction) (c : Byte), s.busy = false → s.host.pending = .read .cat :: rest →
    s.res.err = some c → c.toNat ≤ 0x10 →
    step s = .next { s with host := ⟨rest, s.host.log ++ [⟨.read .cat, .value (
        if c.toNat = 0 then 0
        else if c.toNat ∈ [1, 2, 3, 4] then 1
        else if c.toNat ∈ [6, 7, 10, 11, 12, 13, 14] then 2
        else 3)⟩]⟩ })

/-- A byte format has no event outside the states whose step reads it, and a command is refused in another operation's
state. The first is the model's choice (log 9), the second the spec's own (D20). -/
def Obligations.InstructionsOutsideTheirStates : Prop :=
  ∀ (s : State) (i j : Nibble) (b : Byte) (hi : BitVec 3),
    (s.st ≠ .dec → exec (.paramByte i j) s = .refused .noSuchEvent) ∧
    (s.st ≠ .atr →
      exec .tsDirect s = .refused .noSuchEvent ∧ exec .tsInverse s = .refused .noSuchEvent ∧
      exec (.tsInvalid b) s = .refused .noSuchEvent ∧ exec (.t0Ta1Present hi i) s = .refused .noSuchEvent ∧
      exec (.t0Ta1Absent hi i) s = .refused .noSuchEvent) ∧
    (s.st ≠ .ppsSend → s.st ≠ .ppsCheck → exec (.ppsFrame b) s = .refused .noSuchEvent) ∧
    (s.st ≠ .apProc →
      exec .pbNull s = .refused .noSuchEvent ∧ exec (.pbAck b) s = .refused .noSuchEvent ∧
      exec (.pbSw16x i) s = .refused .noSuchEvent ∧ exec (.pbSw19x i) s = .refused .noSuchEvent ∧
      exec (.pbInvalid b) s = .refused .noSuchEvent) ∧
    (s.busy = true →
      (s.st ≠ .dec → exec .decode s = .refused (.host .busy)) ∧
      (s.st ≠ .enc → exec .encode s = .refused (.host .busy)) ∧
      (s.st ≠ .atr → exec .parseAtr s = .refused (.host .busy)) ∧
      (s.st ≠ .ppsSend → s.st ≠ .ppsRecv → s.st ≠ .ppsCheck → exec .negotiatePps s = .refused (.host .busy)) ∧
      (s.st ≠ .apCheck → s.st ≠ .apHdr → s.st ≠ .apProc → s.st ≠ .apAck → s.st ≠ .apSw → s.st ≠ .apSw2 →
        exec .apduExchange s = .refused (.host .busy)))
end

