-- ==== Sys2Proof/Laws/State.lean ====
section
/-! SUPPORT. One lemma per field of State per update, so that no proof unfolds a record update. -/

namespace Sys2Proof.Machine

variable (s : State)

@[simp] theorem State.goto_cfg (x : St) : (s.goto x).cfg = s.cfg := rfl
@[simp] theorem State.goto_st (x : St) : (s.goto x).st = x := rfl
@[simp] theorem State.goto_req (x : St) : (s.goto x).req = s.req := rfl
@[simp] theorem State.goto_res (x : St) : (s.goto x).res = s.res := rfl
@[simp] theorem State.goto_work (x : St) : (s.goto x).work = s.work := rfl
@[simp] theorem State.goto_port (x : St) : (s.goto x).port = s.port := rfl
@[simp] theorem State.goto_host (x : St) : (s.goto x).host = s.host := rfl
@[simp] theorem State.goto_sched (x : St) : (s.goto x).sched = s.sched := rfl

@[simp] theorem State.setWork_cfg (w : Working) : (s.setWork w).cfg = s.cfg := rfl
@[simp] theorem State.setWork_st (w : Working) : (s.setWork w).st = s.st := rfl
@[simp] theorem State.setWork_req (w : Working) : (s.setWork w).req = s.req := rfl
@[simp] theorem State.setWork_res (w : Working) : (s.setWork w).res = s.res := rfl
@[simp] theorem State.setWork_work (w : Working) : (s.setWork w).work = w := rfl
@[simp] theorem State.setWork_port (w : Working) : (s.setWork w).port = s.port := rfl
@[simp] theorem State.setWork_host (w : Working) : (s.setWork w).host = s.host := rfl
@[simp] theorem State.setWork_sched (w : Working) : (s.setWork w).sched = s.sched := rfl

@[simp] theorem State.setReq_cfg (q : Request) : (s.setReq q).cfg = s.cfg := rfl
@[simp] theorem State.setReq_st (q : Request) : (s.setReq q).st = s.st := rfl
@[simp] theorem State.setReq_req (q : Request) : (s.setReq q).req = q := rfl
@[simp] theorem State.setReq_res (q : Request) : (s.setReq q).res = s.res := rfl
@[simp] theorem State.setReq_work (q : Request) : (s.setReq q).work = s.work := rfl
@[simp] theorem State.setReq_port (q : Request) : (s.setReq q).port = s.port := rfl
@[simp] theorem State.setReq_host (q : Request) : (s.setReq q).host = s.host := rfl
@[simp] theorem State.setReq_sched (q : Request) : (s.setReq q).sched = s.sched := rfl

@[simp] theorem State.issue_cfg (x : St) : (s.issue x).cfg = s.cfg := rfl
@[simp] theorem State.issue_st (x : St) : (s.issue x).st = x := rfl
@[simp] theorem State.issue_req (x : St) : (s.issue x).req = s.req := rfl
@[simp] theorem State.issue_res (x : St) : (s.issue x).res = Results.unwritten := rfl
@[simp] theorem State.issue_work (x : St) : (s.issue x).work = Working.unwritten := rfl
@[simp] theorem State.issue_port (x : St) : (s.issue x).port = s.port := rfl
@[simp] theorem State.issue_host (x : St) : (s.issue x).host = s.host := rfl
@[simp] theorem State.issue_sched (x : St) : (s.issue x).sched = s.sched := rfl

@[simp] theorem State.fail_cfg (k : FailKind) : (s.fail k).cfg = s.cfg := rfl
@[simp] theorem State.fail_st (k : FailKind) : (s.fail k).st = .done := rfl
@[simp] theorem State.fail_req (k : FailKind) : (s.fail k).req = s.req := rfl
@[simp] theorem State.fail_res (k : FailKind) : (s.fail k).res = { s.res with err := some k.code } := rfl
@[simp] theorem State.fail_work (k : FailKind) : (s.fail k).work = s.work := rfl
@[simp] theorem State.fail_port (k : FailKind) : (s.fail k).port = s.port := rfl
@[simp] theorem State.fail_host (k : FailKind) : (s.fail k).host = s.host := rfl
@[simp] theorem State.fail_sched (k : FailKind) : (s.fail k).sched = s.sched := rfl

@[simp] theorem State.commit_cfg (r : Results) : (s.commit r).cfg = s.cfg := rfl
@[simp] theorem State.commit_st (r : Results) : (s.commit r).st = .done := rfl
@[simp] theorem State.commit_req (r : Results) : (s.commit r).req = s.req := rfl
@[simp] theorem State.commit_res (r : Results) : (s.commit r).res = { r with err := some 0x00 } := rfl
@[simp] theorem State.commit_work (r : Results) : (s.commit r).work = s.work := rfl
@[simp] theorem State.commit_port (r : Results) : (s.commit r).port = s.port := rfl
@[simp] theorem State.commit_host (r : Results) : (s.commit r).host = s.host := rfl
@[simp] theorem State.commit_sched (r : Results) : (s.commit r).sched = s.sched := rfl

@[simp] theorem State.afterSend_cfg (bs : List Byte) : (s.afterSend bs).cfg = s.cfg := rfl
@[simp] theorem State.afterSend_st (bs : List Byte) : (s.afterSend bs).st = s.st := rfl
@[simp] theorem State.afterSend_req (bs : List Byte) : (s.afterSend bs).req = s.req := rfl
@[simp] theorem State.afterSend_res (bs : List Byte) : (s.afterSend bs).res = s.res := rfl
@[simp] theorem State.afterSend_work (bs : List Byte) : (s.afterSend bs).work = s.work := rfl
@[simp] theorem State.afterSend_port (bs : List Byte) : (s.afterSend bs).port = s.port.after (.send bs s.sendOk) := rfl
@[simp] theorem State.afterSend_host (bs : List Byte) : (s.afterSend bs).host = s.host := rfl
@[simp] theorem State.afterSend_sched (bs : List Byte) : (s.afterSend bs).sched = s.sched := rfl

@[simp] theorem State.afterRecv_cfg (n : Nat) : (s.afterRecv n).cfg = s.cfg := rfl
@[simp] theorem State.afterRecv_st (n : Nat) : (s.afterRecv n).st = s.st := rfl
@[simp] theorem State.afterRecv_req (n : Nat) : (s.afterRecv n).req = s.req := rfl
@[simp] theorem State.afterRecv_res (n : Nat) : (s.afterRecv n).res = s.res := rfl
@[simp] theorem State.afterRecv_work (n : Nat) : (s.afterRecv n).work = s.work := rfl
@[simp] theorem State.afterRecv_port (n : Nat) : (s.afterRecv n).port = s.port.after (.recv n (s.recvAnswer n)) := rfl
@[simp] theorem State.afterRecv_host (n : Nat) : (s.afterRecv n).host = s.host := rfl
@[simp] theorem State.afterRecv_sched (n : Nat) : (s.afterRecv n).sched = s.sched := rfl

@[simp] theorem State.reply_cfg (a : HostAction) (r : HostReply) : (s.reply a r).cfg = s.cfg := rfl
@[simp] theorem State.reply_st (a : HostAction) (r : HostReply) : (s.reply a r).st = s.st := rfl
@[simp] theorem State.reply_req (a : HostAction) (r : HostReply) : (s.reply a r).req = s.req := rfl
@[simp] theorem State.reply_res (a : HostAction) (r : HostReply) : (s.reply a r).res = s.res := rfl
@[simp] theorem State.reply_work (a : HostAction) (r : HostReply) : (s.reply a r).work = s.work := rfl
@[simp] theorem State.reply_port (a : HostAction) (r : HostReply) : (s.reply a r).port = s.port := rfl
@[simp] theorem State.reply_host (a : HostAction) (r : HostReply) : (s.reply a r).host = { s.host with log := s.host.log ++ [{ action := a, reply := r }] } := rfl
@[simp] theorem State.reply_sched (a : HostAction) (r : HostReply) : (s.reply a r).sched = s.sched := rfl

@[simp] theorem State.nextAction_cfg (l : List HostAction) : (s.nextAction l).cfg = s.cfg := rfl
@[simp] theorem State.nextAction_st (l : List HostAction) : (s.nextAction l).st = s.st := rfl
@[simp] theorem State.nextAction_req (l : List HostAction) : (s.nextAction l).req = s.req := rfl
@[simp] theorem State.nextAction_res (l : List HostAction) : (s.nextAction l).res = s.res := rfl
@[simp] theorem State.nextAction_work (l : List HostAction) : (s.nextAction l).work = s.work := rfl
@[simp] theorem State.nextAction_port (l : List HostAction) : (s.nextAction l).port = s.port := rfl
@[simp] theorem State.nextAction_host (l : List HostAction) : (s.nextAction l).host = { s.host with pending := l } := rfl
@[simp] theorem State.nextAction_sched (l : List HostAction) : (s.nextAction l).sched = s.sched := rfl

@[simp] theorem State.powerOn_cfg : (s.powerOn).cfg = s.cfg := rfl
@[simp] theorem State.powerOn_st : (s.powerOn).st = .idle := rfl
@[simp] theorem State.powerOn_req : (s.powerOn).req = Request.unwritten := rfl
@[simp] theorem State.powerOn_res : (s.powerOn).res = Results.unwritten := rfl
@[simp] theorem State.powerOn_work : (s.powerOn).work = Working.unwritten := rfl
@[simp] theorem State.powerOn_port : (s.powerOn).port = s.port := rfl
@[simp] theorem State.powerOn_host : (s.powerOn).host = s.host := rfl
@[simp] theorem State.powerOn_sched : (s.powerOn).sched = s.sched := rfl

@[simp] theorem State.takeTurn_cfg : s.takeTurn.cfg = s.cfg := rfl
@[simp] theorem State.takeTurn_st : s.takeTurn.st = s.st := rfl
@[simp] theorem State.takeTurn_req : s.takeTurn.req = s.req := rfl
@[simp] theorem State.takeTurn_res : s.takeTurn.res = s.res := rfl
@[simp] theorem State.takeTurn_work : s.takeTurn.work = s.work := rfl
@[simp] theorem State.takeTurn_port : s.takeTurn.port = s.port := rfl
@[simp] theorem State.takeTurn_host : s.takeTurn.host = s.host := rfl
@[simp] theorem State.takeTurn_sched : s.takeTurn.sched = { turns := s.sched.turns.tail, count := s.sched.count + 1 } := rfl

@[simp] theorem Port.after_answers (e : Event) (p : Port) : (p.after e).answers = p.answers.tail := rfl
@[simp] theorem Port.after_calls (e : Event) (p : Port) : (p.after e).calls = p.calls + 1 := rfl
@[simp] theorem Port.after_trace (e : Event) (p : Port) : (p.after e).trace = p.trace ++ [e] := rfl

end Sys2Proof.Machine
end

