-- ==== Sys2Proof/Laws/Memory.lean ====
section
/-! SUPPORT. The laws of the byte buffers: read after write, and that every operation keeps the canonical form. -/

namespace Sys2Proof.Machine

@[simp] theorem Memory.read_nil (i : Nat) : Memory.read [] i = none := rfl

theorem Memory.read_write (m : Memory) (i j : Nat) (b : Byte) :
    (m.write i b).read j = if j = i then some b else m.read j := by
  induction m with
  | nil => simp only [Memory.write, Memory.read, eq_comm]
  | cons c m ih =>
    obtain ⟨k, c⟩ := c
    simp only [Memory.write]
    split_ifs with h1 h2 h3 h4 h5 <;> simp only [Memory.read, ih] <;> split_ifs <;> first | rfl | omega

/-- Read after `MemWrite`: a written index reads the byte written, any other index reads as before. -/
theorem Memory.read_writeBytes (m : Memory) (i j : Nat) (bs : List Byte) :
    (m.writeBytes i bs).read j = if i ≤ j ∧ j < i + bs.length then bs[j - i]? else m.read j := by
  induction bs generalizing m i with
  | nil =>
    simp only [Memory.writeBytes, List.length_nil]
    rw [if_neg (by omega)]
  | cons b bs ih =>
    simp only [Memory.writeBytes, ih, Memory.read_write, List.length_cons]
    by_cases hj : j = i
    · subst hj
      rw [if_neg (by omega), if_pos rfl, if_pos (by omega)]
      simp
    · rw [if_neg hj]
      by_cases h : i ≤ j ∧ j < i + (bs.length + 1)
      · obtain ⟨d, rfl⟩ : ∃ d, j = i + 1 + d := ⟨j - (i + 1), by omega⟩
        rw [if_pos (by omega), if_pos h, show i + 1 + d - (i + 1) = d by omega,
          show i + 1 + d - i = d + 1 by omega, List.getElem?_cons_succ]
      · rw [if_neg (by omega), if_neg h]

theorem Memory.read_ofBytes (bs : List Byte) (i : Nat) : (Memory.ofBytes bs).read i = bs[i]? := by
  rw [Memory.ofBytes, Memory.read_writeBytes]
  split_ifs with h
  · rw [Nat.sub_zero]
  · rw [Memory.read_nil, List.getElem?_eq_none (by omega)]

/-- `MemRead` gives `n` bytes just when each of them is written. -/
theorem Memory.readBytes_eq_some {m : Memory} {i n : Nat} {bs : List Byte} :
    m.readBytes i n = some bs ↔ bs.length = n ∧ ∀ j, j < n → m.read (i + j) = bs[j]? := by
  induction n generalizing i bs with
  | zero =>
    simp only [Memory.readBytes, Option.some.injEq, List.length_eq_zero_iff, Nat.not_lt_zero, false_implies,
      implies_true, and_true]
    exact eq_comm
  | succ n ih =>
    simp only [Memory.readBytes]
    constructor
    · intro h
      split at h
      · next b bs' hb hbs =>
        obtain rfl : b :: bs' = bs := by simpa using h
        obtain ⟨hlen, hread⟩ := ih.1 hbs
        refine ⟨by simp [hlen], fun j hj => ?_⟩
        cases j with
        | zero => simpa using hb
        | succ j => simpa [Nat.add_assoc, Nat.add_comm 1 j] using hread j (by omega)
      · cases h
    · rintro ⟨hlen, hread⟩
      obtain ⟨b, bs', rfl⟩ : ∃ b bs', bs = b :: bs' := by
        cases bs with
        | nil => simp at hlen
        | cons b bs' => exact ⟨b, bs', rfl⟩
      have hb : m.read i = some b := by simpa using hread 0 (by omega)
      have hbs : m.readBytes (i + 1) n = some bs' := ih.2
        ⟨by simpa using hlen, fun j hj => by
          simpa [Nat.add_assoc, Nat.add_comm 1 j] using hread (j + 1) (by omega)⟩
      rw [hb, hbs]

theorem Memory.readBytes_length {m : Memory} {i n : Nat} {bs : List Byte} (h : m.readBytes i n = some bs) :
    bs.length = n := (Memory.readBytes_eq_some.1 h).1

theorem Memory.readBytes_isSome {m : Memory} {i n : Nat} :
    (m.readBytes i n).isSome ↔ ∀ j, j < n → (m.read (i + j)).isSome := by
  induction n generalizing i with
  | zero => simp [Memory.readBytes]
  | succ n ih =>
    have split : (m.readBytes i (n + 1)).isSome ↔ (m.read i).isSome ∧ (m.readBytes (i + 1) n).isSome := by
      simp only [Memory.readBytes]
      cases m.read i <;> cases m.readBytes (i + 1) n <;> simp
    rw [split, ih]
    constructor
    · rintro ⟨h0, h⟩ j hj
      cases j with
      | zero => exact h0
      | succ j => simpa [Nat.add_assoc, Nat.add_comm 1 j] using h j (by omega)
    · intro h
      exact ⟨h 0 (by omega), fun j hj => by simpa [Nat.add_assoc, Nat.add_comm 1 j] using h (j + 1) (by omega)⟩

theorem Memory.readBytes_congr {m m' : Memory} {i n : Nat}
    (h : ∀ j, j < n → m.read (i + j) = m'.read (i + j)) : m.readBytes i n = m'.readBytes i n := by
  induction n generalizing i with
  | zero => rfl
  | succ n ih =>
    have h0 : m.read i = m'.read i := h 0 (by omega)
    have h1 : m.readBytes (i + 1) n = m'.readBytes (i + 1) n :=
      ih fun j hj => by simpa [Nat.add_assoc, Nat.add_comm 1 j] using h (j + 1) (by omega)
    simp only [Memory.readBytes, h0, h1]

theorem Memory.readBytes_ofBytes (bs : List Byte) : (Memory.ofBytes bs).readBytes 0 bs.length = some bs :=
  Memory.readBytes_eq_some.2 ⟨rfl, fun j _ => by rw [Nat.zero_add, Memory.read_ofBytes]⟩

theorem Memory.rising_write {lo : Nat} {m : Memory} {i : Nat} {b : Byte} (hlo : lo ≤ i)
    (h : Memory.rising lo m = true) : Memory.rising lo (m.write i b) = true := by
  induction m generalizing lo with
  | nil => simp [Memory.write, Memory.rising, hlo]
  | cons c m ih =>
    obtain ⟨j, c⟩ := c
    simp only [Memory.rising, Bool.and_eq_true, decide_eq_true_eq] at h
    simp only [Memory.write]
    split_ifs with h1 h2
    · simp only [Memory.rising, Bool.and_eq_true, decide_eq_true_eq]
      exact ⟨hlo, by omega, h.2⟩
    · subst h2
      simp only [Memory.rising, Bool.and_eq_true, decide_eq_true_eq]
      exact h
    · simp only [Memory.rising, Bool.and_eq_true, decide_eq_true_eq]
      exact ⟨h.1, ih (by omega) h.2⟩

theorem Memory.all_write {p : Host.Cell → Bool} {m : Memory} {i : Nat} {b : Byte} (hp : p (i, b) = true)
    (h : m.all p = true) : (m.write i b).all p = true := by
  induction m with
  | nil => simp [Memory.write, hp]
  | cons c m ih =>
    obtain ⟨j, c⟩ := c
    simp only [List.all_cons, Bool.and_eq_true] at h
    simp only [Memory.write]
    split_ifs <;> simp_all

/-- `MemWrite` within the range keeps the canonical form. -/
theorem Memory.wf_writeBytes {capacity : Nat} {m : Memory} {i : Nat} {bs : List Byte}
    (hi : i + bs.length ≤ capacity) (h : Memory.wf capacity m = true) :
    Memory.wf capacity (m.writeBytes i bs) = true := by
  induction bs generalizing m i with
  | nil => exact h
  | cons b bs ih =>
    simp only [List.length_cons] at hi
    simp only [Memory.wf, Bool.and_eq_true] at h
    refine ih (by omega) ?_
    simp only [Memory.wf, Bool.and_eq_true]
    exact ⟨Memory.rising_write (Nat.zero_le i) h.1, Memory.all_write (by simp; omega) h.2⟩

@[simp] theorem Memory.wf_nil (capacity : Nat) : Memory.wf capacity [] = true := rfl

theorem Memory.wf_ofBytes {capacity : Nat} {bs : List Byte} (h : bs.length ≤ capacity) :
    Memory.wf capacity (Memory.ofBytes bs) = true :=
  Memory.wf_writeBytes (by omega) (Memory.wf_nil capacity)

/-- Writing above every written index appends. -/
theorem Memory.write_append {m : Memory} {i : Nat} (b : Byte) (h : ∀ c ∈ m, c.1 < i) :
    m.write i b = m ++ [(i, b)] := by
  induction m with
  | nil => rfl
  | cons c m ih =>
    obtain ⟨j, c⟩ := c
    have hj : j < i := h (j, c) (by simp)
    simp only [Memory.write, if_neg (show ¬ i < j by omega), if_neg (show ¬ i = j by omega), List.cons_append]
    rw [ih fun d hd => h d (by simp [hd])]

theorem Memory.writeBytes_append {m : Memory} {i : Nat} (bs : List Byte) (h : ∀ c ∈ m, c.1 < i) :
    (m.writeBytes i bs).map Prod.fst = m.map Prod.fst ++ List.range' i bs.length := by
  induction bs generalizing m i with
  | nil => simp [Memory.writeBytes]
  | cons b bs ih =>
    rw [Memory.writeBytes, Memory.write_append b h, ih]
    · simp [List.range'_succ]
    · intro c hc
      rcases List.mem_append.1 hc with hc | hc
      · exact Nat.lt_succ_of_lt (h c hc)
      · obtain rfl : c = (i, b) := by simpa using hc
        exact Nat.lt_succ_self i

/-- A buffer built from a byte sequence holds exactly its indices. -/
theorem Memory.holds_ofBytes (bs : List Byte) : Memory.holds bs.length (Memory.ofBytes bs) = true := by
  simp [Memory.holds, Memory.ofBytes, Memory.writeBytes_append, List.range_eq_range']

/-- Every index of a buffer that holds `n` bytes is written. -/
theorem Memory.isSome_read_of_mem {m : Memory} {i : Nat} (h : i ∈ m.map Prod.fst) : (m.read i).isSome := by
  induction m with
  | nil => simp at h
  | cons c m ih =>
    obtain ⟨j, c⟩ := c
    simp only [Memory.read]
    split_ifs with hj
    · rfl
    · refine ih ?_
      simp only [List.map_cons, List.mem_cons] at h
      exact h.resolve_left fun e => hj e.symm

theorem Memory.readBytes_of_holds {m : Memory} {n : Nat} (h : Memory.holds n m = true) :
    (m.readBytes 0 n).isSome := by
  refine Memory.readBytes_isSome.2 fun j hj => Memory.isSome_read_of_mem ?_
  rw [beq_iff_eq.1 h]
  simpa using hj

end Sys2Proof.Machine
end

