-- ==== Sys2Proof/Laws/Ops.lean ====
section
/-! SUPPORT. One lemma per shared operation: everything it can do. The meanings' proofs cite these and unfold
no operation. -/

namespace Sys2Proof.Machine

@[simp] theorem need_some {α : Type} (r : Reg) (a : α) (k : α → Result) : need r (some a) k = k a := rfl

@[simp] theorem need_none {α : Type} (r : Reg) (k : α → Result) : need r none k = .fault (.unwrittenRead r) := rfl

/-- A read that goes on to a next state read a value. -/
theorem need_eq_next {α : Type} {r : Reg} {o : Option α} {k : α → Result} {t : State} :
    need r o k = .next t ↔ ∃ a, o = some a ∧ k a = .next t := by
  cases o <;> simp [need]

/-- A read refuses only where what follows it does. -/
theorem need_eq_refused {α : Type} {r : Reg} {o : Option α} {k : α → Result} {f : Refusal} :
    need r o k = .refused f ↔ ∃ a, o = some a ∧ k a = .refused f := by
  cases o <;> simp [need]

theorem memWrite_eq_next {r : Reg} {capacity : Nat} {m : Memory} {i : Nat} {bs : List Byte} {k : Memory → Result}
    {t : State} :
    memWrite r capacity m i bs k = .next t ↔ i + bs.length ≤ capacity ∧ k (m.writeBytes i bs) = .next t := by
  unfold memWrite
  split_ifs with h <;> simp [h]

theorem memWrite_eq_refused {r : Reg} {capacity : Nat} {m : Memory} {i : Nat} {bs : List Byte}
    {k : Memory → Result} {f : Refusal} :
    memWrite r capacity m i bs k = .refused f ↔ i + bs.length ≤ capacity ∧ k (m.writeBytes i bs) = .refused f := by
  unfold memWrite
  split_ifs with h <;> simp [h]

@[simp] theorem raise_eq_next {k : FailKind} {s t : State} : raise k s = .next t ↔ s.fail k = t := by
  simp [raise]

@[simp] theorem succeed_eq_next {r : Results} {s t : State} : succeed r s = .next t ↔ s.commit r = t := by
  simp [succeed]

@[simp] theorem raise_ne_refused {k : FailKind} {s : State} {f : Refusal} : raise k s ≠ .refused f := by
  simp [raise]

@[simp] theorem succeed_ne_refused {r : Results} {s : State} {f : Refusal} : succeed r s ≠ .refused f := by
  simp [succeed]

theorem State.answer_cons {s : State} {a : TransportAnswer} {l : List TransportAnswer} (h : s.port.answers = a :: l) :
    s.answer = a := by
  rw [State.answer, h]

theorem State.answer_nil {s : State} (h : s.port.answers = []) : s.answer = Config.freeAnswer s.port.calls := by
  rw [State.answer, h]

/-- The contract of `Recv(n)` (R221): at most `n` bytes. -/
theorem State.recvAnswer_length {s : State} {n : Nat} {r : List Byte} (h : s.recvAnswer n = some r) :
    r.length ≤ n := by
  unfold State.recvAnswer at h
  split at h
  · obtain rfl := Option.some.inj h
    exact List.length_take_le n _
  · cases h

theorem State.sendOk_ok {s : State} {bs : List Byte} (h : s.answer = .ok bs) : s.sendOk = true := by
  rw [State.sendOk, h]

theorem State.sendOk_err {s : State} (h : s.answer = .err) : s.sendOk = false := by
  rw [State.sendOk, h]

theorem State.recvAnswer_ok {s : State} {bs : List Byte} (n : Nat) (h : s.answer = .ok bs) :
    s.recvAnswer n = some (bs.take n) := by
  rw [State.recvAnswer, h]

theorem State.recvAnswer_err {s : State} (n : Nat) (h : s.answer = .err) : s.recvAnswer n = none := by
  rw [State.recvAnswer, h]

/-- The checks of R96 read the request registers and the capacities alone. -/
theorem failedCheck_congr {s t : State} (i : Instr) (req : t.req = s.req) (cfg : t.cfg = s.cfg) :
    failedCheck i t = failedCheck i s := by
  obtain ⟨c, x, q, r, w, p, h, o⟩ := s
  obtain ⟨c', x', q', r', w', p', h', o'⟩ := t
  simp only at req cfg
  subst req cfg
  cases i <;> rfl

/-- Issue goes on to a next state just when the command's checks pass. -/
theorem issueCommand_eq_next {i : Instr} {first : St} {s t : State} :
    issueCommand i first s = .next t ↔ failedCheck i s = none ∧ s.issue first = t := by
  unfold issueCommand
  split <;> simp_all

@[simp] theorem refuseBusy_ne_next {t : State} : refuseBusy ≠ .next t := by simp [refuseBusy]

theorem needLengths_eq_next {s t : State} {k : Nat → Nat → Result} :
    needLengths s k = .next t ↔ ∃ tx rx, s.req.txLen = some tx ∧ s.req.rxLen = some rx ∧ k tx rx = .next t := by
  simp only [needLengths, need_eq_next]
  constructor
  · rintro ⟨tx, htx, rx, hrx, h⟩
    exact ⟨tx, rx, htx, hrx, h⟩
  · rintro ⟨tx, rx, htx, hrx, h⟩
    exact ⟨tx, htx, rx, hrx, h⟩

theorem needHeader_eq_next {s t : State} {k : List Byte → Result} :
    needHeader s k = .next t ↔ ∃ header, s.req.txBuf.readBytes 0 5 = some header ∧ k header = .next t :=
  need_eq_next

theorem needIns_eq_next {s t : State} {k : Byte → Result} :
    needIns s k = .next t ↔ ∃ ins, s.req.txBuf.read 1 = some ins ∧ k ins = .next t :=
  need_eq_next

theorem needData_eq_next {n : Nat} {s t : State} {k : List Byte → Result} :
    needData n s k = .next t ↔ ∃ data, s.req.txBuf.readBytes 5 (n - 5) = some data ∧ k data = .next t :=
  need_eq_next

theorem inRange_eq_next {r : Reg} {capacity i : Nat} {k : Result} {t : State} :
    inRange r capacity i k = .next t ↔ i < capacity ∧ k = .next t := by
  unfold inRange
  split_ifs with h <;> simp [h]

theorem unlessBusy_idle {a : HostAction} {s : State} {k : Result} (h : s.busy = false) : unlessBusy a s k = k := by
  rw [unlessBusy, if_neg (by simp [h])]

theorem unlessBusy_busy {a : HostAction} {s : State} {k : Result} (h : s.busy = true) :
    unlessBusy a s k = .next (s.reply a (.refused .busy)) := by
  rw [unlessBusy, if_pos h]

/-- After an action settles, the host is answered: accepted with the action's state, or refused with the state as it was. -/
theorem settle_eq_next {a : HostAction} {s t : State} {r : Result} :
    settle a s r = .next t ↔
      (∃ u, r = .next u ∧ u.reply a .accepted = t) ∨ (∃ f, r = .refused (.host f) ∧ s.reply a (.refused f) = t) := by
  cases r with
  | next u => simp [settle]
  | fault f => simp [settle]
  | refused f => cases f <;> simp [settle]

end Sys2Proof.Machine
end

