-- ==== Sys2Proof/Laws/Exec.lean ====
section
/-! SUPPORT. For the step of each state, everything it can do when it answers a next state. -/

namespace Sys2Proof.Machine

theorem inAtr_eq_next {s t : State} {r : Result} : inAtr s r = .next t ↔ s.st = .atr ∧ r = .next t := by
  cases h : s.st <;> simp [inAtr, h]

theorem inApProc_eq_next {s t : State} {r : Result} : inApProc s r = .next t ↔ s.st = .apProc ∧ r = .next t := by
  cases h : s.st <;> simp [inApProc, h]

theorem State.fits_zext (s : State) (v : Nat) : s.cfg.fits (s.zext v) = true := by
  simp [Config.fits, State.zext, Nat.mod_lt]

theorem State.zext_of_fits {s : State} {v : Nat} (h : s.cfg.fits v = true) : s.zext v = v :=
  Nat.mod_eq_of_lt (by simpa [Config.fits] using h)

/-- The `DEC` step fails on an RFU entry, and otherwise commits the three results. -/
theorem decodeIndices_eq_next {f d : Nibble} {s t : State} (h : decodeIndices f d s = .next t) :
    s.fail .unsupportedFi = t ∨ s.fail .unsupportedDi = t ∨
      ∃ fi m di, s.fiEntry f = .valid fi m ∧ s.diEntry d = .valid di ∧
        s.commit { s.res with outFi := some (s.zext fi), outDi := some (s.zext di),
                              outFmax := some (s.zext m) } = t := by
  unfold decodeIndices at h
  split at h
  · exact .inl (raise_eq_next.1 h)
  · exact .inr (.inl (raise_eq_next.1 h))
  · next hf hd => exact .inr (.inr ⟨_, _, _, hf, hd, succeed_eq_next.1 h⟩)

/-- The `ENC` step fails where a search finds nothing, and otherwise commits the joined indices. -/
theorem encodeParameters_eq_next {fi di fmax : Word} {s t : State} (h : encodeParameters fi di fmax s = .next t) :
    s.fail .noFiEncoding = t ∨ s.fail .noDiEncoding = t ∨
      ∃ i j, fiSearch fi fmax s = some i ∧ diSearch di s = some j ∧
        s.commit { s.res with outByte := some (joinNibbles i j) } = t := by
  unfold encodeParameters at h
  split at h
  · exact .inl (raise_eq_next.1 h)
  · split at h
    · exact .inr (.inl (raise_eq_next.1 h))
    · next hi _ _ hj => exact .inr (.inr ⟨_, _, hi, hj, succeed_eq_next.1 h⟩)

/-- PARSE_ATR's two successes (R141). -/
theorem atrSuccess_eq_next {conv : Convention} {s t : State} {u : Result}
    (hu : u = atrWithoutTa1 conv s ∨ u = atrWithTa1 conv s) (h : u = .next t) :
    (∃ c : Convention, s.commit { s.res with conv := some c.code, ta1Valid := some false } = t) ∨
      ∃ (c : Convention) (b : Byte), s.req.atrBuf.read 2 = some b ∧
        s.commit { s.res with conv := some c.code, ta1Valid := some true, ta1 := some b } = t := by
  rcases hu with rfl | rfl
  · exact .inl ⟨conv, succeed_eq_next.1 h⟩
  · obtain ⟨b, hb, h⟩ := need_eq_next.1 h
    exact .inr ⟨conv, b, hb, succeed_eq_next.1 h⟩

theorem atrAfterTs_eq_next {n : Nat} {t0 : Option Bool} {s t : State} {conv : Convention}
    (h : atrAfterTs n t0 s conv = .next t) :
    (∃ c : Convention, s.commit { s.res with conv := some c.code, ta1Valid := some false } = t) ∨
      ∃ (c : Convention) (b : Byte), s.req.atrBuf.read 2 = some b ∧
        s.commit { s.res with conv := some c.code, ta1Valid := some true, ta1 := some b } = t := by
  unfold atrAfterTs at h
  split at h
  · exact atrSuccess_eq_next (.inl rfl) h
  · obtain ⟨b, -, h⟩ := need_eq_next.1 h
    exact atrSuccess_eq_next (conv := conv) (by cases b <;> simp [atrByT0]) h

/-- The `ATR` step fails on an invalid TS, and otherwise commits a convention, without or with a TA1. -/
theorem atrStep_eq_next {ts : Option TsClass} {t0 : Option Bool} {s t : State} (h : atrStep ts t0 s = .next t) :
    s.fail .invalidInitialByte = t ∨
      (∃ c : Convention, s.commit { s.res with conv := some c.code, ta1Valid := some false } = t) ∨
      ∃ (c : Convention) (b : Byte), s.req.atrBuf.read 2 = some b ∧
        s.commit { s.res with conv := some c.code, ta1Valid := some true, ta1 := some b } = t := by
  obtain ⟨n, -, h⟩ := need_eq_next.1 h
  split at h
  · exact .inr (atrSuccess_eq_next (.inl rfl) h)
  · obtain ⟨ts, -, h⟩ := need_eq_next.1 h
    cases ts with
    | direct => exact .inr (atrAfterTs_eq_next h)
    | inverse => exact .inr (atrAfterTs_eq_next h)
    | invalid => exact .inl (raise_eq_next.1 h)

theorem ppsSendFrame_eq_next {frame : List Byte} {s t : State} (h : ppsSendFrame frame s = .next t) :
    (s.sendOk = true ∧ (s.afterSend frame).goto .ppsRecv = t) ∨
      (s.sendOk = false ∧ (s.afterSend frame).fail .transmitFailed = t) := by
  unfold ppsSendFrame at h
  split at h
  · next hs => exact .inl ⟨hs, by simpa using h⟩
  · next hs => exact .inr ⟨by simpa using hs, raise_eq_next.1 h⟩

/-- The `PPS_RECV` step fails unless exactly four bytes come, and otherwise keeps them. -/
theorem ppsReceive_eq_next {s t : State} (h : ppsReceive s = .next t) :
    (s.afterRecv 4).fail .noResponse = t ∨
      ∃ r, s.recvAnswer 4 = some r ∧ r.length = 4 ∧
        (((s.afterRecv 4).goto .ppsCheck).setWork { s.work with ppsRsp := Memory.ofBytes r }) = t := by
  unfold ppsReceive at h
  split at h
  · exact .inl (raise_eq_next.1 h)
  · next r hr =>
    split at h
    · exact .inl (raise_eq_next.1 h)
    · next hlen =>
      exact .inr ⟨r, hr, by have := State.recvAnswer_length hr; omega, by simpa using h⟩

theorem ppsCompare_eq_next {response : List Byte} {s t : State} (h : ppsCompare response s = .next t) :
    ∃ request, s.work.ppsReq.readBytes 0 4 = some request ∧
      (response = request ∧ s.commit s.res = t ∨ response ≠ request ∧ s.fail .mismatch = t) := by
  obtain ⟨request, hr, h⟩ := need_eq_next.1 h
  refine ⟨request, hr, ?_⟩
  split at h
  · next he => exact .inl ⟨he, succeed_eq_next.1 h⟩
  · next he => exact .inr ⟨he, raise_eq_next.1 h⟩

theorem ppsIssue_eq_next {s t : State} (h : ppsIssue s = .next t) :
    ∃ p, s.req.pps1 = some p ∧
      ((s.issue .ppsSend).setWork { Working.unwritten with ppsReq := Memory.ofBytes (ppsFrameBytes p) }) = t := by
  unfold ppsIssue at h
  split at h
  · cases h
  · obtain ⟨p, hp, h⟩ := need_eq_next.1 h
    exact ⟨p, hp, by simpa using h⟩

theorem sw1Byte_eq_next {b : Byte} {s t : State} (h : sw1Byte b s = .next t) :
    ∃ tx rx, s.req.txLen = some tx ∧ s.req.rxLen = some rx ∧
      ((rx ≠ 0 ∨ 5 < tx) ∧ s.fail .unexpectedStatusByte = t ∨
        (rx = 0 ∧ tx ≤ 5) ∧ ((s.goto .apSw2).setWork { s.work with pb := some b }) = t) := by
  obtain ⟨tx, rx, htx, hrx, h⟩ := needLengths_eq_next.1 h
  refine ⟨tx, rx, htx, hrx, ?_⟩
  split at h
  · next hc => exact .inl ⟨hc, raise_eq_next.1 h⟩
  · next hc => exact .inr ⟨by omega, by simpa using h⟩

/-- What a procedure byte of any class can do (R92): nothing, the ACK branch, the SW1 branch, or one of two failures. -/
theorem procedureByte_eq_next {ins b : Byte} {s t : State} (h : procedureByte ins b s = .next t) :
    s.st = .apProc ∧
      (s = t ∨ ((s.goto .apAck).setWork { s.work with pb := some b }) = t ∨
        s.fail .unexpectedStatusByte = t ∨ s.fail .invalidProcedureByte = t ∨
        ∃ b', s.req.rxLen = some 0 ∧ (∃ tx, s.req.txLen = some tx ∧ tx ≤ 5) ∧
          ((s.goto .apSw2).setWork { s.work with pb := some b' }) = t) := by
  have sw : ∀ b', sw1Byte b' s = .next t → (s.fail .unexpectedStatusByte = t ∨ s.fail .invalidProcedureByte = t ∨
      ∃ b', s.req.rxLen = some 0 ∧ (∃ tx, s.req.txLen = some tx ∧ tx ≤ 5) ∧
        ((s.goto .apSw2).setWork { s.work with pb := some b' }) = t) := by
    intro b' h
    obtain ⟨tx, rx, htx, hrx, ⟨-, h⟩ | ⟨⟨rfl, hl⟩, h⟩⟩ := sw1Byte_eq_next h
    · exact .inl h
    · exact .inr (.inr ⟨b', hrx, ⟨tx, htx, hl⟩, h⟩)
  unfold procedureByte at h
  split at h <;> obtain ⟨hst, h⟩ := inApProc_eq_next.1 h <;> refine ⟨hst, ?_⟩
  · exact .inl (by simpa using h)
  · exact .inr (.inl (by simpa using h))
  · exact .inr (.inr (sw _ h))
  · exact .inr (.inr (sw _ h))
  · exact .inr (.inr (.inr (.inl (raise_eq_next.1 h))))

theorem apCheck_eq_next {s t : State} (h : apCheck s = .next t) :
    ∃ tx rx, s.req.txLen = some tx ∧ s.req.rxLen = some rx ∧
      ((5 < tx ∧ 0 < rx) ∧ s.fail .bidirectionalNotSupported = t ∨ (tx ≤ 5 ∨ rx = 0) ∧ s.goto .apHdr = t) := by
  obtain ⟨tx, rx, htx, hrx, h⟩ := needLengths_eq_next.1 h
  refine ⟨tx, rx, htx, hrx, ?_⟩
  split at h
  · next hc => exact .inl ⟨hc, raise_eq_next.1 h⟩
  · next hc => exact .inr ⟨by omega, by simpa using h⟩

theorem apHdr_eq_next {s t : State} (h : apHdr s = .next t) :
    ∃ header, s.req.txBuf.readBytes 0 5 = some header ∧
      (s.sendOk = true ∧ (s.afterSend header).goto .apProc = t ∨
        s.sendOk = false ∧ (s.afterSend header).fail .headerSendFailed = t) := by
  obtain ⟨header, hh, h⟩ := needHeader_eq_next.1 h
  refine ⟨header, hh, ?_⟩
  split at h
  · next hs => exact .inl ⟨hs, by simpa using h⟩
  · next hs => exact .inr ⟨by simpa using hs, raise_eq_next.1 h⟩

/-- The `AP_PROC` step fails unless exactly one byte comes, and otherwise does what that byte's class says. -/
theorem apProc_eq_next {s t : State} (h : apProc s = .next t) :
    (s.afterRecv 1).fail .procedureByteMissing = t ∨
      ∃ b ins, s.recvAnswer 1 = some [b] ∧ s.req.txBuf.read 1 = some ins ∧
        procedureByte ins b (s.afterRecv 1) = .next t := by
  unfold apProc at h
  split at h
  · next b hb =>
    obtain ⟨ins, hins, h⟩ := needIns_eq_next.1 h
    exact .inr ⟨b, ins, hb, hins, h⟩
  · exact .inl (raise_eq_next.1 h)

/-- What the data phase can do (R188): send the data, receive a response, or make no call. -/
theorem apAck_eq_next {s t : State} (h : apAck s = .next t) :
    ∃ tx rx, s.req.txLen = some tx ∧ s.req.rxLen = some rx ∧
      ((5 < tx ∧ ∃ data, s.req.txBuf.readBytes 5 (tx - 5) = some data ∧
          (s.sendOk = true ∧ (((s.afterSend data).goto .apSw).setWork { s.work with k := some 0 }) = t ∨
            s.sendOk = false ∧ (s.afterSend data).fail .dataSendFailed = t)) ∨
        (tx ≤ 5 ∧ 0 < rx ∧
          ((s.afterRecv rx).fail .dataRecvFailed = t ∨
            ∃ r, s.recvAnswer rx = some r ∧ r.length ≤ s.cfg.rxMax ∧
              (((s.afterRecv rx).goto .apSw).setWork { s.work with k := some r.length, dataTmp := s.work.dataTmp.writeBytes 0 r }) = t)) ∨
        (tx ≤ 5 ∧ rx = 0 ∧ ((s.goto .apSw).setWork { s.work with k := some 0 }) = t)) := by
  obtain ⟨tx, rx, htx, hrx, h⟩ := needLengths_eq_next.1 h
  refine ⟨tx, rx, htx, hrx, ?_⟩
  split at h
  · next hc =>
    obtain ⟨data, hd, h⟩ := needData_eq_next.1 h
    refine .inl ⟨hc, data, hd, ?_⟩
    split at h
    · next hs => exact .inl ⟨hs, by simpa using h⟩
    · next hs => exact .inr ⟨by simpa using hs, raise_eq_next.1 h⟩
  · next hc =>
    split at h
    · next hr =>
      refine .inr (.inl ⟨by omega, hr, ?_⟩)
      unfold apAckReceive at h
      split at h
      · exact .inl (raise_eq_next.1 h)
      · next r he =>
        obtain ⟨hlen, h⟩ := memWrite_eq_next.1 h
        exact .inr ⟨r, he, by omega, by simpa using h⟩
    · exact .inr (.inr ⟨by omega, by omega, by simpa using h⟩)

/-- The `AP_SW` step fails unless exactly two bytes come, and otherwise commits the response and the status word. -/
theorem apSw_eq_next {s t : State} (h : apSw s = .next t) :
    (s.afterRecv 2).fail .statusWordMissing = t ∨
      ∃ a b k data, s.recvAnswer 2 = some [a, b] ∧ s.work.k = some k ∧ s.work.dataTmp.readBytes 0 k = some data ∧
        k ≤ s.cfg.rxMax ∧
        (s.afterRecv 2).commit { s.res with respLen := some k, rxBuf := s.res.rxBuf.writeBytes 0 data,
                                            sw1 := some a, sw2 := some b } = t := by
  unfold apSw at h
  split at h
  · next a b hab =>
    obtain ⟨k, hk, h⟩ := need_eq_next.1 h
    obtain ⟨data, hd, h⟩ := need_eq_next.1 h
    obtain ⟨hlen, h⟩ := memWrite_eq_next.1 h
    have := Memory.readBytes_length hd
    exact .inr ⟨a, b, k, data, hab, hk, hd, by simp only [State.afterRecv_cfg] at hlen; omega, succeed_eq_next.1 h⟩
  · exact .inl (raise_eq_next.1 h)

/-- The `AP_SW2` step fails unless exactly one byte comes, and otherwise commits the status word. -/
theorem apSw2_eq_next {s t : State} (h : apSw2 s = .next t) :
    (s.afterRecv 1).fail .statusWordMissing = t ∨
      ∃ pb b, s.recvAnswer 1 = some [b] ∧ s.work.pb = some pb ∧
        (s.afterRecv 1).commit { s.res with respLen := some 0, sw1 := some pb, sw2 := some b } = t := by
  unfold apSw2 at h
  split at h
  · next b hb =>
    obtain ⟨pb, hpb, h⟩ := need_eq_next.1 h
    exact .inr ⟨pb, b, hb, hpb, succeed_eq_next.1 h⟩
  · exact .inl (raise_eq_next.1 h)

end Sys2Proof.Machine
end

