-- ==== Sys2Proof/Laws/Effect.lean ====
section
/-! SUPPORT. Everything an instruction can do in a busy state, said once: `Effect s t` holds of each next state `t`.
An invariant or a frame of the engine is proved by cases on it. -/

namespace Sys2Proof.Machine

/-- The next states of an instruction in a busy state `s`. -/
inductive Effect (s : State) : State → Prop
  | decFail (k : FailKind) (st : s.st = .dec) (kind : k = .unsupportedFi ∨ k = .unsupportedDi) : Effect s (s.fail k)
  | decOk (fi m di : Nat) (st : s.st = .dec)
      (entries : ∃ f d, s.fiEntry f = .valid fi m ∧ s.diEntry d = .valid di) :
      Effect s (s.commit { s.res with outFi := some (s.zext fi), outDi := some (s.zext di),
                                      outFmax := some (s.zext m) })
  | encFail (k : FailKind) (st : s.st = .enc) (kind : k = .noFiEncoding ∨ k = .noDiEncoding) : Effect s (s.fail k)
  | encOk (i j : Nibble) (st : s.st = .enc)
      (found : ∃ fi di fmax, fiSearch fi fmax s = some i ∧ diSearch di s = some j) :
      Effect s (s.commit { s.res with outByte := some (joinNibbles i j) })
  | atrFail (st : s.st = .atr) : Effect s (s.fail .invalidInitialByte)
  | atrWithout (c : Convention) (st : s.st = .atr) :
      Effect s (s.commit { s.res with conv := some c.code, ta1Valid := some false })
  | atrWith (c : Convention) (b : Byte) (st : s.st = .atr) (ta1 : s.req.atrBuf.read 2 = some b) :
      Effect s (s.commit { s.res with conv := some c.code, ta1Valid := some true, ta1 := some b })
  | ppsSent (frame : List Byte) (st : s.st = .ppsSend) (length : frame.length = 4) :
      Effect s ((s.afterSend frame).goto .ppsRecv)
  | ppsUnsent (frame : List Byte) (st : s.st = .ppsSend) (length : frame.length = 4) :
      Effect s ((s.afterSend frame).fail .transmitFailed)
  | ppsReceived (r : List Byte) (st : s.st = .ppsRecv) (length : r.length = 4) :
      Effect s (((s.afterRecv 4).goto .ppsCheck).setWork { s.work with ppsRsp := Memory.ofBytes r })
  | ppsNoResponse (st : s.st = .ppsRecv) : Effect s ((s.afterRecv 4).fail .noResponse)
  | ppsMatch (st : s.st = .ppsCheck) : Effect s (s.commit s.res)
  | ppsMismatch (st : s.st = .ppsCheck) : Effect s (s.fail .mismatch)
  | apBidirectional (st : s.st = .apCheck) : Effect s (s.fail .bidirectionalNotSupported)
  | apChecked (st : s.st = .apCheck)
      (lengths : ∃ tx rx, s.req.txLen = some tx ∧ s.req.rxLen = some rx ∧ (tx ≤ 5 ∨ rx = 0)) :
      Effect s (s.goto .apHdr)
  | apHeaderSent (header : List Byte) (st : s.st = .apHdr) (length : header.length = 5) :
      Effect s ((s.afterSend header).goto .apProc)
  | apHeaderUnsent (header : List Byte) (st : s.st = .apHdr) (length : header.length = 5) :
      Effect s ((s.afterSend header).fail .headerSendFailed)
  | pbMissing (st : s.st = .apProc) : Effect s ((s.afterRecv 1).fail .procedureByteMissing)
  | pbNull (u : State) (st : s.st = .apProc) (from' : u = s ∨ u = s.afterRecv 1) : Effect s u
  | pbAck (u : State) (b : Byte) (st : s.st = .apProc) (from' : u = s ∨ u = s.afterRecv 1) :
      Effect s ((u.goto .apAck).setWork { u.work with pb := some b })
  | pbFail (u : State) (k : FailKind) (st : s.st = .apProc) (from' : u = s ∨ u = s.afterRecv 1)
      (kind : k = .unexpectedStatusByte ∨ k = .invalidProcedureByte) : Effect s (u.fail k)
  | pbSw1 (u : State) (b : Byte) (st : s.st = .apProc) (from' : u = s ∨ u = s.afterRecv 1)
      (noData : s.req.rxLen = some 0 ∧ ∃ tx, s.req.txLen = some tx ∧ tx ≤ 5) :
      Effect s ((u.goto .apSw2).setWork { u.work with pb := some b })
  | dataSent (tx : Nat) (data : List Byte) (st : s.st = .apAck) (txLen : s.req.txLen = some tx) (more : 5 < tx)
      (length : data.length = tx - 5) :
      Effect s (((s.afterSend data).goto .apSw).setWork { s.work with k := some 0 })
  | dataUnsent (tx : Nat) (data : List Byte) (st : s.st = .apAck) (txLen : s.req.txLen = some tx) (more : 5 < tx)
      (length : data.length = tx - 5) : Effect s ((s.afterSend data).fail .dataSendFailed)
  | dataReceived (tx rx : Nat) (r : List Byte) (st : s.st = .apAck) (txLen : s.req.txLen = some tx) (none : tx ≤ 5)
      (rxLen : s.req.rxLen = some rx) (some' : 0 < rx) (answer : s.recvAnswer rx = some r)
      (fits : r.length ≤ s.cfg.rxMax) :
      Effect s (((s.afterRecv rx).goto .apSw).setWork { s.work with k := some r.length, dataTmp := s.work.dataTmp.writeBytes 0 r })
  | dataUnreceived (rx : Nat) (st : s.st = .apAck) (rxLen : s.req.rxLen = some rx) (some' : 0 < rx) :
      Effect s ((s.afterRecv rx).fail .dataRecvFailed)
  | noData (st : s.st = .apAck) : Effect s ((s.goto .apSw).setWork { s.work with k := some 0 })
  | statusMissing (n : Nat) (st : s.st = .apSw ∧ n = 2 ∨ s.st = .apSw2 ∧ n = 1) :
      Effect s ((s.afterRecv n).fail .statusWordMissing)
  | statusWord (a b : Byte) (k : Nat) (data : List Byte) (st : s.st = .apSw) (count : s.work.k = some k)
      (read : s.work.dataTmp.readBytes 0 k = some data) (fits : k ≤ s.cfg.rxMax) :
      Effect s ((s.afterRecv 2).commit { s.res with
        respLen := some k, rxBuf := s.res.rxBuf.writeBytes 0 data, sw1 := some a, sw2 := some b })
  | secondByte (pb b : Byte) (st : s.st = .apSw2) (first : s.work.pb = some pb) :
      Effect s ((s.afterRecv 1).commit { s.res with respLen := some 0, sw1 := some pb, sw2 := some b })

theorem effect_of_decodeIndices {f d : Nibble} {s t : State} (st : s.st = .dec) (h : decodeIndices f d s = .next t) :
    Effect s t := by
  obtain rfl | rfl | ⟨fi, m, di, hf, hd, rfl⟩ := decodeIndices_eq_next h
  · exact .decFail _ st (.inl rfl)
  · exact .decFail _ st (.inr rfl)
  · exact .decOk fi m di st ⟨f, d, hf, hd⟩

theorem effect_of_atrStep {ts : Option TsClass} {t0 : Option Bool} {s t : State} (st : s.st = .atr)
    (h : atrStep ts t0 s = .next t) : Effect s t := by
  obtain rfl | ⟨c, rfl⟩ | ⟨c, b, hb, rfl⟩ := atrStep_eq_next h
  · exact .atrFail st
  · exact .atrWithout c st
  · exact .atrWith c b st hb

theorem effect_of_inAtr {ts : Option TsClass} {t0 : Option Bool} {s t : State}
    (h : inAtr s (atrStep ts t0 s) = .next t) : Effect s t :=
  have ⟨st, h⟩ := inAtr_eq_next.1 h
  effect_of_atrStep st h

theorem effect_of_ppsSendFrame {frame : List Byte} {s t : State} (st : s.st = .ppsSend) (length : frame.length = 4)
    (h : ppsSendFrame frame s = .next t) : Effect s t := by
  obtain ⟨-, rfl⟩ | ⟨-, rfl⟩ := ppsSendFrame_eq_next h
  · exact .ppsSent frame st length
  · exact .ppsUnsent frame st length

theorem effect_of_ppsCompare {response : List Byte} {s t : State} (st : s.st = .ppsCheck)
    (h : ppsCompare response s = .next t) : Effect s t := by
  obtain ⟨-, -, ⟨-, rfl⟩ | ⟨-, rfl⟩⟩ := ppsCompare_eq_next h
  · exact .ppsMatch st
  · exact .ppsMismatch st

theorem effect_of_sw1Byte {b : Byte} {u s t : State} (st : s.st = .apProc) (from' : u = s ∨ u = s.afterRecv 1)
    (h : sw1Byte b u = .next t) : Effect s t := by
  have req : u.req = s.req := by rcases from' with rfl | rfl <;> rfl
  obtain ⟨tx, rx, htx, hrx, ⟨-, rfl⟩ | ⟨⟨rfl, hl⟩, rfl⟩⟩ := sw1Byte_eq_next h
  · exact .pbFail u _ st from' (.inl rfl)
  · exact .pbSw1 u b st from' ⟨req ▸ hrx, tx, req ▸ htx, hl⟩

theorem effect_of_procedureByte {ins b : Byte} {u s t : State} (from' : u = s ∨ u = s.afterRecv 1)
    (h : procedureByte ins b u = .next t) : Effect s t := by
  have st : s.st = .apProc := by
    have := (procedureByte_eq_next h).1
    rcases from' with rfl | rfl <;> exact this
  unfold procedureByte at h
  split at h <;> obtain ⟨-, h⟩ := inApProc_eq_next.1 h
  · obtain rfl : u = t := by simpa using h
    exact .pbNull u st from'
  · obtain rfl := Host.Outcome.next.inj h
    exact .pbAck u b st from'
  · exact effect_of_sw1Byte st from' h
  · exact effect_of_sw1Byte st from' h
  · obtain rfl := raise_eq_next.1 h
    exact .pbFail u _ st from' (.inr rfl)

theorem effect_of_apProc {s t : State} (st : s.st = .apProc) (h : apProc s = .next t) : Effect s t := by
  obtain rfl | ⟨b, ins, -, -, h⟩ := apProc_eq_next h
  · exact .pbMissing st
  · exact effect_of_procedureByte (.inr rfl) h

theorem effect_of_apAck {s t : State} (st : s.st = .apAck) (h : apAck s = .next t) : Effect s t := by
  obtain ⟨tx, rx, htx, hrx, ⟨hl, data, hd, ⟨-, rfl⟩ | ⟨-, rfl⟩⟩ | ⟨hl, hr, rfl | ⟨r, ha, hf, rfl⟩⟩ | ⟨-, -, rfl⟩⟩ :=
    apAck_eq_next h
  · exact .dataSent tx data st htx hl (Memory.readBytes_length hd)
  · exact .dataUnsent tx data st htx hl (Memory.readBytes_length hd)
  · exact .dataUnreceived rx st hrx hr
  · exact .dataReceived tx rx r st htx hl hrx hr ha hf
  · exact .noData st

/-- The step of a command in a state of its own operation. -/
theorem effect_of_command {i : Instr} {s t : State} (busy : s.busy = true) (op : s.st.operation = some i)
    (h : exec i s = .next t) : Effect s t := by
  cases st : s.st <;> simp only [State.busy, St.busy, St.operation, st, Option.some.injEq] at busy op <;>
    first | contradiction | (subst op; simp only [exec, execDecode, execEncode, execParseAtr, execNegotiatePps,
      execApduExchange, st] at h)
  · obtain ⟨b, -, h⟩ := need_eq_next.1 h
    simp only [execParamByte, st] at h
    exact effect_of_decodeIndices st h
  · obtain ⟨fi, -, h⟩ := need_eq_next.1 h
    obtain ⟨di, -, h⟩ := need_eq_next.1 h
    obtain ⟨fmax, -, h⟩ := need_eq_next.1 h
    obtain rfl | rfl | ⟨a, b, ha, hb, rfl⟩ := encodeParameters_eq_next h
    · exact .encFail _ st (.inl rfl)
    · exact .encFail _ st (.inr rfl)
    · exact .encOk a b st ⟨fi, di, fmax, ha, hb⟩
  · exact effect_of_atrStep st h
  · obtain ⟨frame, hf, h⟩ := need_eq_next.1 h
    exact effect_of_ppsSendFrame st (Memory.readBytes_length hf) h
  · obtain rfl | ⟨r, -, hl, rfl⟩ := ppsReceive_eq_next h
    · exact .ppsNoResponse st
    · exact .ppsReceived r st hl
  · obtain ⟨response, -, h⟩ := need_eq_next.1 h
    exact effect_of_ppsCompare st h
  · obtain ⟨tx, rx, htx, hrx, ⟨-, rfl⟩ | ⟨hl, rfl⟩⟩ := apCheck_eq_next h
    · exact .apBidirectional st
    · exact .apChecked st ⟨tx, rx, htx, hrx, hl⟩
  · obtain ⟨header, hh, ⟨-, rfl⟩ | ⟨-, rfl⟩⟩ := apHdr_eq_next h
    · exact .apHeaderSent header st (Memory.readBytes_length hh)
    · exact .apHeaderUnsent header st (Memory.readBytes_length hh)
  · exact effect_of_apProc st h
  · exact effect_of_apAck st h
  · obtain rfl | ⟨a, b, k, data, -, hk, hd, hf, rfl⟩ := apSw_eq_next h
    · exact .statusMissing 2 (.inl ⟨st, rfl⟩)
    · exact .statusWord a b k data st hk hd hf
  · obtain rfl | ⟨pb, b, -, hpb, rfl⟩ := apSw2_eq_next h
    · exact .statusMissing 1 (.inr ⟨st, rfl⟩)
    · exact .secondByte pb b st hpb

/-- A command in a busy state of another operation has no next state (R25). -/
theorem command_next_own {s t : State} (busy : s.busy = true) :
    (execDecode s = .next t → s.st.operation = some .decode) ∧
    (execEncode s = .next t → s.st.operation = some .encode) ∧
    (execParseAtr s = .next t → s.st.operation = some .parseAtr) ∧
    (execNegotiatePps s = .next t → s.st.operation = some .negotiatePps) ∧
    (execApduExchange s = .next t → s.st.operation = some .apduExchange) := by
  unfold State.busy at busy
  unfold execDecode execEncode execParseAtr execNegotiatePps execApduExchange
  cases st : s.st <;> simp only [st, St.busy] at busy <;> first | contradiction | simp [St.operation]

/-- Everything an instruction can do in a busy state. -/
theorem effect_of_exec {i : Instr} {s t : State} (busy : s.busy = true) (h : exec i s = .next t) : Effect s t := by
  have own := command_next_own (t := t) busy
  cases i with
  | decode => exact effect_of_command busy (own.1 h) h
  | encode => exact effect_of_command busy (own.2.1 h) h
  | parseAtr => exact effect_of_command busy (own.2.2.1 h) h
  | negotiatePps => exact effect_of_command busy (own.2.2.2.1 h) h
  | apduExchange => exact effect_of_command busy (own.2.2.2.2 h) h
  | paramByte f d =>
    cases st : s.st <;> simp only [exec, execParamByte, st] at h <;> first | cases h | exact effect_of_decodeIndices st h
  | tsDirect => exact effect_of_inAtr h
  | tsInverse => exact effect_of_inAtr h
  | tsInvalid ts => exact effect_of_inAtr h
  | t0Ta1Present hi lo => exact effect_of_inAtr h
  | t0Ta1Absent hi lo => exact effect_of_inAtr h
  | ppsFrame p =>
    cases st : s.st <;> simp only [exec, execPpsFrame, st] at h <;>
      first | cases h | exact effect_of_ppsSendFrame st rfl h | exact effect_of_ppsCompare st h
  | pbNull =>
    obtain ⟨st, h⟩ := inApProc_eq_next.1 h
    obtain rfl : s = t := by simpa using h
    exact .pbNull s st (.inl rfl)
  | pbAck ins =>
    obtain ⟨st, h⟩ := inApProc_eq_next.1 h
    obtain rfl := Host.Outcome.next.inj h
    exact .pbAck s ins st (.inl rfl)
  | pbSw16x lo =>
    obtain ⟨st, h⟩ := inApProc_eq_next.1 h
    exact effect_of_sw1Byte st (.inl rfl) h
  | pbSw19x lo =>
    obtain ⟨st, h⟩ := inApProc_eq_next.1 h
    exact effect_of_sw1Byte st (.inl rfl) h
  | pbInvalid b =>
    obtain ⟨st, h⟩ := inApProc_eq_next.1 h
    obtain rfl := raise_eq_next.1 h
    exact .pbFail s _ st (.inl rfl) (.inr rfl)

end Sys2Proof.Machine
end

