-- ==== Sys2Proof/Laws/PerInstr.lean ====
section
/-! SUPPORT. Facts proved instruction by instruction. -/

namespace Sys2Proof.Laws.EncodedSize

/-- A PPS frame is encoded in four bytes (R87), every other row of the table in one. -/
def Statement (i : Instr) : Prop :=
  (encode i).length = match i with
    | .ppsFrame _ => 4
    | _ => 1

theorem decode : Statement .decode := rfl
theorem encode : Statement .encode := rfl
theorem parseAtr : Statement .parseAtr := rfl
theorem negotiatePps : Statement .negotiatePps := rfl
theorem apduExchange : Statement .apduExchange := rfl
theorem paramByte (fiIdx diIdx : Nibble) : Statement (.paramByte fiIdx diIdx) := rfl
theorem tsDirect : Statement .tsDirect := rfl
theorem tsInverse : Statement .tsInverse := rfl
theorem tsInvalid (ts : Byte) : Statement (.tsInvalid ts) := rfl
theorem t0Ta1Present (hi : BitVec 3) (lo : Nibble) : Statement (.t0Ta1Present hi lo) := rfl
theorem t0Ta1Absent (hi : BitVec 3) (lo : Nibble) : Statement (.t0Ta1Absent hi lo) := rfl
theorem ppsFrame (pps1 : Byte) : Statement (.ppsFrame pps1) := rfl
theorem pbNull : Statement .pbNull := rfl
theorem pbAck (ins : Byte) : Statement (.pbAck ins) := rfl
theorem pbSw16x (lo : Nibble) : Statement (.pbSw16x lo) := rfl
theorem pbSw19x (lo : Nibble) : Statement (.pbSw19x lo) := rfl
theorem pbInvalid (pb : Byte) : Statement (.pbInvalid pb) := rfl

end Sys2Proof.Laws.EncodedSize
end

