-- ==== Sys2Proof/Laws/Step.lean ====
section
/-! SUPPORT. The step of the machine: which agent moves, and everything it can do. -/

namespace Sys2Proof.Machine

theorem State.turn_cons {s : State} {a : Agent} {l : List Agent} (h : s.sched.turns = a :: l) : s.turn = a := by
  rw [State.turn, h]

theorem State.turn_nil {s : State} (h : s.sched.turns = []) : s.turn = Config.freeTurn s.sched.count := by
  rw [State.turn, h]

@[simp] theorem State.nextAction_busy (rest : List HostAction) (s : State) : (s.nextAction rest).busy = s.busy := rfl

@[simp] theorem State.takeTurn_busy (s : State) : s.takeTurn.busy = s.busy := rfl

/-! The invariant is about the engine alone. -/

@[simp] theorem State.nextAction_inv (rest : List HostAction) (s : State) : (s.nextAction rest).inv = s.inv := rfl

@[simp] theorem State.takeTurn_inv (s : State) : s.takeTurn.inv = s.inv := rfl

@[simp] theorem State.reply_inv (a : HostAction) (r : HostReply) (s : State) : (s.reply a r).inv = s.inv := rfl

/-! ## Which agent moves -/

theorem step_noAction {s : State} (pending : s.host.pending = []) : step s = engineStep s := by
  simp [step, machineStep, pending]

theorem step_notBusy {s : State} {a : HostAction} {rest : List HostAction} (busy : s.busy = false)
    (pending : s.host.pending = a :: rest) : step s = hostAct a (s.nextAction rest) := by
  simp [step, machineStep, pending, busy]

theorem step_wait {s : State} {rest : List HostAction} (busy : s.busy = true)
    (pending : s.host.pending = .awaitDone :: rest) : step s = engineStep s := by
  simp [step, machineStep, pending, busy, busyStep]

theorem step_engineTurn {s : State} {a : HostAction} {rest : List HostAction} (busy : s.busy = true)
    (pending : s.host.pending = a :: rest) (waits : a ≠ .awaitDone) (turn : s.turn = .engine) :
    step s = engineStep s.takeTurn := by
  simp [step, machineStep, pending, busy, busyStep, waits, turn]

theorem step_hostTurn {s : State} {a : HostAction} {rest : List HostAction} (busy : s.busy = true)
    (pending : s.host.pending = a :: rest) (waits : a ≠ .awaitDone) (turn : s.turn = .host) :
    step s = hostAct a (s.takeTurn.nextAction rest) := by
  simp [step, machineStep, pending, busy, busyStep, waits, turn]

/-- A step is the engine's or the host's, from the state as it is or with a turn taken. -/
theorem step_cases (s : State) :
    (∃ u, (u = s ∨ u = s.takeTurn) ∧ step s = engineStep u) ∨
    (∃ a rest u, s.host.pending = a :: rest ∧
      (s.busy = false ∧ u = s ∨ s.busy = true ∧ a ≠ .awaitDone ∧ s.turn = .host ∧ u = s.takeTurn) ∧
      step s = hostAct a (u.nextAction rest)) := by
  cases pending : s.host.pending with
  | nil => exact .inl ⟨s, .inl rfl, step_noAction pending⟩
  | cons a rest =>
    cases busy : s.busy with
    | false => exact .inr ⟨a, rest, s, rfl, .inl ⟨rfl, rfl⟩, step_notBusy busy pending⟩
    | true =>
      by_cases waits : a = .awaitDone
      · subst waits
        exact .inl ⟨s, .inl rfl, step_wait busy pending⟩
      · cases turn : s.turn with
        | engine => exact .inl ⟨_, .inr rfl, step_engineTurn busy pending waits turn⟩
        | host => exact .inr ⟨a, rest, _, rfl, .inr ⟨rfl, waits, rfl, rfl⟩, step_hostTurn busy pending waits turn⟩

/-! ## What the engine's step can do -/

theorem St.operation_of_notBusy {x : St} (h : x.busy = false) : x.operation = none := by
  cases x <;> first | rfl | cases h

/-- The engine's step leaves an engine that is not busy as it is; a busy one takes its operation's step. -/
theorem engineStep_eq_next {s t : State} (h : engineStep s = .next t) :
    s.busy = false ∧ t = s ∨ s.busy = true ∧ Effect s t := by
  cases busy : s.busy with
  | false =>
    rw [engineStep, St.operation_of_notBusy busy] at h
    exact .inl ⟨rfl, (Host.Outcome.next.inj h).symm⟩
  | true =>
    unfold engineStep at h
    split at h
    · exact .inr ⟨rfl, effect_of_exec busy h⟩
    · next op => cases st : s.st <;> simp [State.busy, St.busy, St.operation, st] at busy op

/-! ## What a host action can do -/

/-- The next states of a host action `a`. -/
inductive HostEffect (a : HostAction) (s : State) : State → Prop
  /-- The host is answered, and nothing else changes: a read, a set-up call, the wait, or a refused action. -/
  | answered (r : HostReply) : HostEffect a s (s.reply a r)
  /-- A request register or a run of a request buffer is written. -/
  | stored (q : Request) (idle : s.busy = false)
      (isWrite : (∀ c, a ≠ .writeCmd c) ∧ (∀ r, a ≠ .read r) ∧ (∀ c, a ≠ .setup c) ∧ a ≠ .awaitDone ∧ a ≠ .powerOn)
      (atr : q.atrBuf = s.req.atrBuf ∨
        ∃ i bs, i + bs.length ≤ s.cfg.atrMax ∧ q.atrBuf = s.req.atrBuf.writeBytes i bs)
      (tx : q.txBuf = s.req.txBuf ∨ ∃ i bs, i + bs.length ≤ s.cfg.txMax ∧ q.txBuf = s.req.txBuf.writeBytes i bs)
      (fi : q.inFi = s.req.inFi ∨ s.cfg.fitsReg q.inFi = true) (di : q.inDi = s.req.inDi ∨ s.cfg.fitsReg q.inDi = true)
      (fmax : q.inFmax = s.req.inFmax ∨ s.cfg.fitsReg q.inFmax = true) :
      HostEffect a s ((s.setReq q).reply a .accepted)
  /-- A command is issued. -/
  | issued (c : Byte) (i : Instr) (t : State) (idle : s.busy = false) (isCmd : a = .writeCmd c)
      (decoded : ∃ rest, decode .hostCommand [c] = .ok i rest) (issue : exec i s = .next t) :
      HostEffect a s (t.reply a .accepted)
  /-- Power-on. -/
  | reset (isReset : a = .powerOn) : HostEffect a s (s.powerOn.reply a .accepted)

theorem unlessBusy_eq_next {a : HostAction} {s t : State} {k : Result} :
    unlessBusy a s k = .next t ↔
      s.busy = true ∧ s.reply a (.refused .busy) = t ∨ s.busy = false ∧ k = .next t := by
  cases h : s.busy <;> simp [unlessBusy, h]

theorem commandWrite_eq_next {c : Byte} {s t : State} (h : commandWrite c s = .next t) :
    ∃ i rest, decode .hostCommand [c] = .ok i rest ∧ exec i s = .next t := by
  unfold commandWrite at h
  split at h
  · next i rest hd => exact ⟨i, rest, hd, h⟩
  · cases h

theorem hostRead_eq_next {r : Reg} {s t : State} (h : hostRead r s = .next t) : ∃ v, s.reply (.read r) (.value v) = t := by
  cases r <;> simp only [hostRead, reduceCtorEq] at h
  case rxBuf i =>
    obtain ⟨v, -, h⟩ := need_eq_next.1 (inRange_eq_next.1 h).2
    exact ⟨v, Host.Outcome.next.inj h⟩
  all_goals
    obtain ⟨v, -, h⟩ := need_eq_next.1 h
    exact ⟨v, Host.Outcome.next.inj h⟩

/-- Everything a host action can do. -/
theorem hostEffect_of_hostAct {a : HostAction} {s t : State} (h : hostAct a s = .next t) : HostEffect a s t := by
  have store {q : Request} (h : storeRequest a q s = .next t) : (s.setReq q).reply a .accepted = t :=
    Host.Outcome.next.inj h
  have integer {r : Reg} {v : Word} {q : Request} (h : hostWriteInt a r v q s = .next t) :
      s.busy = true ∧ s.reply a (.refused .busy) = t ∨
        s.busy = false ∧ s.cfg.fits v = true ∧ (s.setReq q).reply a .accepted = t := by
    refine (unlessBusy_eq_next.1 h).imp_right fun ⟨idle, h⟩ => ?_
    split at h
    · next fits => exact ⟨idle, fits, store h⟩
    · cases h
  have buffer {r : Reg} {capacity i : Nat} {m : Memory} {bs : List Byte} {q : Memory → Request}
      (h : unlessBusy a s (memWrite r capacity m i bs fun m => storeRequest a (q m) s) = .next t) :
      s.busy = true ∧ s.reply a (.refused .busy) = t ∨
        s.busy = false ∧ i + bs.length ≤ capacity ∧ (s.setReq (q (m.writeBytes i bs))).reply a .accepted = t := by
    refine (unlessBusy_eq_next.1 h).imp_right fun ⟨idle, h⟩ => ?_
    exact ⟨idle, (memWrite_eq_next.1 h).imp_right store⟩
  cases a <;> simp only [hostAct] at h
  case setInByte v | setAtrLen v | setPps1 v | setTxLen v | setRxLen v =>
    obtain ⟨-, rfl⟩ | ⟨idle, h⟩ := unlessBusy_eq_next.1 h
    · exact .answered _
    · obtain rfl := store h
      exact .stored _ idle (by simp) (.inl rfl) (.inl rfl) (.inl rfl) (.inl rfl) (.inl rfl)
  case setInFi v =>
    obtain ⟨-, rfl⟩ | ⟨idle, fits, rfl⟩ := integer h
    · exact .answered _
    · exact .stored _ idle (by simp) (.inl rfl) (.inl rfl) (.inr fits) (.inl rfl) (.inl rfl)
  case setInDi v =>
    obtain ⟨-, rfl⟩ | ⟨idle, fits, rfl⟩ := integer h
    · exact .answered _
    · exact .stored _ idle (by simp) (.inl rfl) (.inl rfl) (.inl rfl) (.inr fits) (.inl rfl)
  case setInFmax v =>
    obtain ⟨-, rfl⟩ | ⟨idle, fits, rfl⟩ := integer h
    · exact .answered _
    · exact .stored _ idle (by simp) (.inl rfl) (.inl rfl) (.inl rfl) (.inl rfl) (.inr fits)
  case setAtrBuf bs =>
    obtain ⟨-, rfl⟩ | ⟨idle, range, rfl⟩ := buffer (q := fun m => { s.req with atrBuf := m, atrLen := some bs.length }) h
    · exact .answered _
    · exact .stored _ idle (by simp) (.inr ⟨0, bs, range, rfl⟩) (.inl rfl) (.inl rfl) (.inl rfl) (.inl rfl)
  case writeAtrBuf i bs =>
    obtain ⟨-, rfl⟩ | ⟨idle, range, rfl⟩ := buffer (q := fun m => { s.req with atrBuf := m }) h
    · exact .answered _
    · exact .stored _ idle (by simp) (.inr ⟨i, bs, range, rfl⟩) (.inl rfl) (.inl rfl) (.inl rfl) (.inl rfl)
  case setTxBuf bs =>
    obtain ⟨-, rfl⟩ | ⟨idle, range, rfl⟩ := buffer (q := fun m => { s.req with txBuf := m, txLen := some bs.length }) h
    · exact .answered _
    · exact .stored _ idle (by simp) (.inl rfl) (.inr ⟨0, bs, range, rfl⟩) (.inl rfl) (.inl rfl) (.inl rfl)
  case writeTxBuf i bs =>
    obtain ⟨-, rfl⟩ | ⟨idle, range, rfl⟩ := buffer (q := fun m => { s.req with txBuf := m }) h
    · exact .answered _
    · exact .stored _ idle (by simp) (.inl rfl) (.inr ⟨i, bs, range, rfl⟩) (.inl rfl) (.inl rfl) (.inl rfl)
  case writeCmd c =>
    obtain ⟨-, rfl⟩ | ⟨idle, h⟩ := unlessBusy_eq_next.1 h
    · exact .answered _
    · obtain ⟨u, written, rfl⟩ | ⟨f, -, rfl⟩ := settle_eq_next.1 h
      · obtain ⟨i, rest, decoded, issue⟩ := commandWrite_eq_next written
        exact .issued c i u idle rfl ⟨rest, decoded⟩ issue
      · exact .answered _
  case read r =>
    obtain ⟨v, rfl⟩ := hostRead_eq_next h
    exact .answered _
  case setup c =>
    obtain ⟨-, rfl⟩ | ⟨-, h⟩ := unlessBusy_eq_next.1 h
    · exact .answered _
    · obtain rfl := Host.Outcome.next.inj h
      exact .answered _
  case awaitDone =>
    obtain rfl := Host.Outcome.next.inj h
    exact .answered _
  case powerOn =>
    obtain rfl := Host.Outcome.next.inj h
    exact .reset rfl

end Sys2Proof.Machine
end

