-- ==== Sys2Proof/Tests/Slice0.lean ====
section
/-! SUPPORT. The model's own tests. Expected values are those of spec/ (the encoding tables of 30_encoding.md and the vectors of
95_test_vectors.md, named beside each test); the last part shows for every obligation a state that meets its hypotheses. -/

namespace Sys2Proof.Tests

open Sys2Proof.Machine

/-! ## Small states -/

/-- The reset state with a host that has these actions to take. -/
def hosting (l : List HostAction) (s : State) : State := { s with host := ⟨l, []⟩ }

/-- A Transport that gives these answers first. -/
def answering (l : List TransportAnswer) (s : State) : State := { s with port := ⟨l, 0, []⟩ }

/-- An order of the turns, first. -/
def taking (l : List Agent) (s : State) : State := { s with sched := ⟨l, 0⟩ }

/-- A state of `st`. -/
def at' (st : St) (s : State) : State := { s with st := st }

/-- Request registers. -/
def asking (q : Request) (s : State) : State := { s with req := q }

/-- Internal registers. -/
def working (w : Working) (s : State) : State := { s with work := w }

/-- Result registers. -/
def giving (r : Results) (s : State) : State := { s with res := r }

/-- Small buffers: TX_MAX = 7, RX_MAX = 2, ATR_MAX = 4. -/
def small : State := State.resetOf { Config.standard with atrMax := 4, txDataMax := 2, rxMax := 2 }

def byteReq (b : Byte) : Request := { Request.unwritten with inByte := some b }

def rateReq (fi di fmax : Word) : Request :=
  { Request.unwritten with inFi := some fi, inDi := some di, inFmax := some fmax }

def atrReq (bs : List Byte) : Request :=
  { Request.unwritten with atrLen := some bs.length, atrBuf := Memory.ofBytes bs }

def ppsReqs (p : Byte) : Request := { Request.unwritten with pps1 := some p }

def apReq (bs : List Byte) (rx : Nat) : Request :=
  { Request.unwritten with txLen := some bs.length, txBuf := Memory.ofBytes bs, rxLen := some rx }

/-- The frame of PPS1 = 0x11 as the request (95_test_vectors.md, 2.4). -/
def frame11 : Working := { Working.unwritten with ppsReq := Memory.ofBytes [0xFF, 0x10, 0x11, 0xFE] }

/-- READ BINARY of two bytes, INS 0xB0 (AP-2 and on). -/
def readReq : Request := apReq [0xA0, 0xB0, 0x00, 0x00, 0x02] 2

/-- An outgoing-data command, INS 0xD6 (AP-6). -/
def writeReq : Request := apReq [0xA0, 0xD6, 0x00, 0x00, 0x02, 0x12, 0x34] 0

/-- A no-data command, INS 0xF2 (AP-1). -/
def plainReq : Request := apReq [0x80, 0xF2, 0x00, 0x00, 0x00] 0

/-- The result of a step meets a check. -/
def after (r : Result) (p : State → Bool) : Bool :=
  match r with
  | .next t => p t
  | _ => false

/-- A step stops with this fault. -/
def faults (r : Result) (f : Fault) : Bool :=
  match r with
  | .fault g => g == f
  | _ => false

/-- A step is refused for this reason. -/
def refuses (r : Result) (f : Refusal) : Bool :=
  match r with
  | .refused g => g == f
  | _ => false

/-! ## WellFormed: an ill-formed term for each check -/

theorem test_wf_tsInvalid : (Instr.tsInvalid 0x3B).wf = false ∧ (Instr.tsInvalid 0x3F).wf = false := by decide
theorem test_wf_pbAck : (Instr.pbAck 0x60).wf = false := by decide
theorem test_wf_pbSw16x : (Instr.pbSw16x 0).wf = false := by decide
theorem test_wf_pbInvalid : (Instr.pbInvalid 0x6A).wf = false ∧ (Instr.pbInvalid 0x90).wf = false := by decide
theorem test_wf_format : Instr.wfIn .atrTs .decode = false ∧ Instr.wfIn .hostCommand (.paramByte 0 1) = false := by decide
theorem test_wf_ackIsIns : Instr.wfIn (.procedureByte 0xB0) (.pbAck 0xB1) = false := by decide
theorem test_wf_sw1IsNotIns :
    Instr.wfIn (.procedureByte 0x94) (.pbSw19x 4) = false ∧ Instr.wfIn (.procedureByte 0x6A) (.pbSw16x 10) = false := by decide
theorem test_wf_invalidIsNotIns : Instr.wfIn (.procedureByte 0x5B) (.pbInvalid 0x5B) = false := by decide

/-! ## Decoding: words written out from 30_encoding.md -/

/-- R24. -/
theorem test_decode_commands :
    decode .hostCommand [0b00000001#8] = .ok .decode [] ∧ decode .hostCommand [0b00000010#8] = .ok .encode [] ∧
    decode .hostCommand [0b00000011#8] = .ok .parseAtr [] ∧ decode .hostCommand [0b00000100#8] = .ok .negotiatePps [] ∧
    decode .hostCommand [0b00000101#8] = .ok .apduExchange [] := by decide

/-- R95. -/
theorem test_decode_reserved :
    decode .hostCommand [0x00#8] = .reject (.reservedCommand 0x00) ∧
    decode .hostCommand [0x06#8] = .reject (.reservedCommand 0x06) := by decide

/-- R82: bits 7:4 are the Fi index, bits 3:0 the Di index. -/
theorem test_decode_paramByte : decode .paramByte [0b10010110#8, 0xAA#8] = .ok (.paramByte 9 6) [0xAA#8] := by decide

/-- R85. -/
theorem test_decode_ts :
    decode .atrTs [0b00111011#8] = .ok .tsDirect [] ∧ decode .atrTs [0b00111111#8] = .ok .tsInverse [] ∧
    decode .atrTs [0x3C#8] = .ok (.tsInvalid 0x3C) [] := by decide

/-- R86 and R146: bit 4 decides. -/
theorem test_decode_t0 :
    decode .atrT0 [0b10011010#8] = .ok (.t0Ta1Present 4 10) [] ∧
    decode .atrT0 [0b11101111#8] = .ok (.t0Ta1Absent 7 15) [] := by decide

/-- R87 and R88: the frames of 95_test_vectors.md for PPS1 0x11 and 0x61, and one with a wrong PCK. -/
theorem test_decode_ppsFrame :
    decode .ppsFrame [0xFF#8, 0x10#8, 0x11#8, 0xFE#8] = .ok (.ppsFrame 0x11) [] ∧
    decode .ppsFrame [0xFF#8, 0x10#8, 0x61#8, 0x8E#8] = .ok (.ppsFrame 0x61) [] ∧
    decode .ppsFrame [0xFF#8, 0x10#8, 0x11#8, 0xFF#8] = .reject .notPpsFrame ∧
    decode .ppsFrame [0xFF#8, 0x10#8, 0x11#8] = .reject .truncated := by decide

/-- R92 with INS 0xF2: PB-1 to PB-12. -/
theorem test_decode_procedureByte :
    decode (.procedureByte 0xF2) [0x5F#8] = .ok (.pbInvalid 0x5F) [] ∧
    decode (.procedureByte 0xF2) [0x60#8] = .ok .pbNull [] ∧
    decode (.procedureByte 0xF2) [0x61#8] = .ok (.pbSw16x 1) [] ∧
    decode (.procedureByte 0xF2) [0x6F#8] = .ok (.pbSw16x 15) [] ∧
    decode (.procedureByte 0xF2) [0x70#8] = .ok (.pbInvalid 0x70) [] ∧
    decode (.procedureByte 0xF2) [0x90#8] = .ok (.pbSw19x 0) [] ∧
    decode (.procedureByte 0xF2) [0x9F#8] = .ok (.pbSw19x 15) [] ∧
    decode (.procedureByte 0xF2) [0xF2#8] = .ok (.pbAck 0xF2) [] := by decide

/-- R195: with INS 0x60 the byte 0x60 is NULL; with INS 0x94 the byte 0x94 is ACK. -/
theorem test_decode_procedureByte_ins :
    decode (.procedureByte 0x60) [0x60#8] = .ok .pbNull [] ∧
    decode (.procedureByte 0x94) [0x94#8] = .ok (.pbAck 0x94) [] := by decide

/-- The rows of the opcode table, in its own numbering. -/
theorem test_decodeTableWord :
    decodeTableWord 8 0x01 = some .decode ∧ decodeTableWord 8 0x05 = some .apduExchange ∧
    decodeTableWord 8 0x3B = some .tsDirect ∧ decodeTableWord 8 0x60 = some .pbNull ∧
    decodeTableWord 8 0x9A = some (.pbSw19x 10) ∧ decodeTableWord 8 0x10 = some (.t0Ta1Present 0 0) ∧
    decodeTableWord 32 0xFE1110FF = some (.ppsFrame 0x11) ∧ decodeTableWord 16 0x01 = none := by decide

/-! ## One step -/

/-- DEC-3. -/
theorem test_decode_step :
    after (exec .decode (at' .dec (asking (byteReq 0x96) State.reset)))
      (fun t => t.st == .done && t.res.err == some 0x00 && t.res.outFi == some 512 && t.res.outDi == some 32
        && t.res.outFmax == some 5000000) = true := by decide

/-- DEC-14: both nibbles RFU. -/
theorem test_decode_rfu :
    after (exec .decode (at' .dec (asking (byteReq 0x80) State.reset)))
      (fun t => t.res == { Results.unwritten with err := some 0x01 }) = true := by decide

/-- ENC-4: the first Hz above index 0. -/
theorem test_encode_skips :
    after (exec .encode (at' .enc (asking (rateReq 372 1 4000001) State.reset)))
      (fun t => t.res == { Results.unwritten with err := some 0x00, outByte := some 0x11 }) = true := by decide

/-- ENC-14: both searches fail. -/
theorem test_encode_none :
    after (exec .encode (at' .enc (asking (rateReq 373 3 4000000) State.reset)))
      (fun t => t.res == { Results.unwritten with err := some 0x03 }) = true := by decide

/-- ATR-12. -/
theorem test_parseAtr_ta1 :
    after (exec .parseAtr (at' .atr (asking (atrReq [0x3B, 0x9F, 0x95, 0x80, 0x1F]) State.reset)))
      (fun t => t.res == { Results.unwritten with err := some 0x00, conv := some 1, ta1Valid := some true,
                                                  ta1 := some 0x95 }) = true := by decide

/-- ATR-6: T0 announces TA1 at length 2. -/
theorem test_parseAtr_length2 :
    after (exec .parseAtr (at' .atr (asking (atrReq [0x3B, 0x10]) State.reset)))
      (fun t => t.res == { Results.unwritten with err := some 0x00, conv := some 1, ta1Valid := some false }) = true := by decide

/-- E12: the frame of PPS1 = 0x11, built at issue. -/
theorem test_negotiatePps_issue :
    after (exec .negotiatePps (asking (ppsReqs 0x11) State.reset))
      (fun t => t.st == .ppsSend && t.work == frame11) = true := by decide

/-- PPS-4: three bytes come back. -/
theorem test_negotiatePps_short :
    after (exec .negotiatePps (answering [.ok [0xFF, 0x10, 0x11]] (at' .ppsRecv (working frame11 State.reset))))
      (fun t => t.st == .done && t.res.err == some 0x07 && t.port.trace == [.recv 4 (some [0xFF, 0x10, 0x11])])
      = true := by decide

/-- AP-7: data in both directions. -/
theorem test_apduExchange_bidirectional :
    after (exec .apduExchange (at' .apCheck (asking (apReq [0xA0, 0xD6, 0x00, 0x00, 0x01, 0x55] 1) State.reset)))
      (fun t => t.res.err == some 0x09 && t.port.trace == []) = true := by decide

/-- AP-24: `0x60` in the status word is SW1. -/
theorem test_apduExchange_status :
    after (exec .apduExchange (answering [.ok [0x60, 0x90]] (at' .apSw (asking readReq (working
        { Working.unwritten with pb := some 0xB0, k := some 2, dataTmp := [(0, 0x12), (1, 0x34)] } State.reset)))))
      (fun t => t.res == { Results.unwritten with err := some 0x00, respLen := some 2, rxBuf := [(0, 0x12), (1, 0x34)],
                                                  sw1 := some 0x60, sw2 := some 0x90 }) = true := by decide

/-- DEC-19: the highest valid Di index with the lowest Fi index. -/
theorem test_paramByte :
    after (exec (.paramByte 0 9) (at' .dec State.reset))
      (fun t => t.res.outFi == some 372 && t.res.outDi == some 20 && t.res.outFmax == some 4000000) = true := by decide

/-- ATR-10. -/
theorem test_tsDirect :
    after (exec .tsDirect (at' .atr (asking (atrReq [0x3B, 0x00, 0x96]) State.reset)))
      (fun t => t.res.conv == some 1 && t.res.ta1Valid == some false && t.res.ta1 == none) = true := by decide

/-- ATR-9. -/
theorem test_tsInverse :
    after (exec .tsInverse (at' .atr (asking (atrReq [0x3F, 0x10, 0x11]) State.reset)))
      (fun t => t.res.conv == some 2 && t.res.ta1 == some 0x11) = true := by decide

/-- ATR-13. -/
theorem test_tsInvalid :
    after (exec (.tsInvalid 0x3C) (at' .atr (asking (atrReq [0x3C, 0x10, 0x96]) State.reset)))
      (fun t => t.res == { Results.unwritten with err := some 0x05 }) = true := by decide

/-- R146: `0x1F` announces TA1. -/
theorem test_t0Ta1Present :
    after (exec (.t0Ta1Present 0 15) (at' .atr (asking (atrReq [0x3B, 0x1F, 0x96]) State.reset)))
      (fun t => t.res.ta1 == some 0x96) = true := by decide

/-- ATR-11. -/
theorem test_t0Ta1Absent :
    after (exec (.t0Ta1Absent 7 15) (at' .atr (asking (atrReq [0x3B, 0xEF, 0x96, 0x00]) State.reset)))
      (fun t => t.res.ta1Valid == some false && t.res.ta1 == none) = true := by decide

/-- PPS-6: PCK differs. -/
theorem test_ppsFrame_mismatch :
    after (exec .negotiatePps (at' .ppsCheck (working { frame11 with ppsRsp := Memory.ofBytes [0xFF, 0x10, 0x11, 0xFF] }
        State.reset))) (fun t => t.res.err == some 0x08) = true := by decide

/-- PPS-1: the request itself comes back. -/
theorem test_ppsFrame_match :
    after (exec (.ppsFrame 0x11) (at' .ppsCheck (working frame11 State.reset))) (fun t => t.res.err == some 0x00) = true := by decide

/-- PB-3: NULL changes no register. -/
theorem test_pbNull :
    after (exec .pbNull (at' .apProc (asking plainReq State.reset)))
      (fun t => t == at' .apProc (asking plainReq State.reset)) = true := by decide

/-- PB-11. -/
theorem test_pbAck :
    after (exec (.pbAck 0xF2) (at' .apProc (asking plainReq State.reset)))
      (fun t => t.st == .apAck && t.work.pb == some 0xF2) = true := by decide

/-- PB-4. -/
theorem test_pbSw16x :
    after (exec (.pbSw16x 1) (at' .apProc (asking plainReq State.reset)))
      (fun t => t.st == .apSw2 && t.work.pb == some 0x61) = true := by decide

/-- AP-16: a status byte while data was to go out. -/
theorem test_pbSw16x_unexpected :
    after (exec (.pbSw16x 10) (at' .apProc (asking writeReq State.reset))) (fun t => t.res.err == some 0x0F) = true := by decide

/-- PB-9. -/
theorem test_pbSw19x :
    after (exec (.pbSw19x 15) (at' .apProc (asking plainReq State.reset)))
      (fun t => t.st == .apSw2 && t.work.pb == some 0x9F) = true := by decide

/-- AP-17. -/
theorem test_pbInvalid :
    after (exec (.pbInvalid 0x5B) (at' .apProc (asking writeReq State.reset)))
      (fun t => t.res == { Results.unwritten with err := some 0x10 }) = true := by decide

/-! ## The host and the placing of an instruction -/

/-- REF-1. -/
theorem test_read_after_reset : faults (step (hosting [.read .err] State.reset)) (.unwrittenRead .err) = true := by decide

/-- REF-2. -/
theorem test_reserved_refused :
    after (step (hosting [.writeCmd 0x06] State.reset))
      (fun t => t.st == .idle && t.host.log == [⟨.writeCmd 0x06, .refused (.reservedCommand 0x06)⟩]) = true := by decide

/-- REF-4: TX_LEN = 4. -/
theorem test_short_header_refused :
    after (step (hosting [.writeCmd 0x05] (asking (apReq [0xA0, 0xB0, 0x00, 0x00] 0) State.reset)))
      (fun t => t.st == .idle && t.port.trace == []
        && t.host.log == [⟨.writeCmd 0x05, .refused (.illFormed .wfApduHdr)⟩]) = true := by decide

/-- REF-7. -/
theorem test_busy_refused :
    after (step (taking [.host] (hosting [.setRxLen 1] (at' .apProc (asking plainReq State.reset)))))
      (fun t => t.st == .apProc && t.req == plainReq && t.host.log == [⟨.setRxLen 1, .refused .busy⟩]) = true := by decide

/-- R22 and R23: a host that polls `st` in `AP_CHECK` reads 7, and at the engine's turn, with the same action pending, the
engine goes on. -/
theorem test_poll_between_steps :
    after (step (taking [.host] (hosting [.read .st] (at' .apCheck (asking plainReq State.reset)))))
      (fun t => t.st == .apCheck && t.host.log == [⟨.read .st, .value 7⟩]) = true ∧
    after (step (taking [.engine] (hosting [.read .st] (at' .apCheck (asking plainReq State.reset)))))
      (fun t => t.st == .apHdr && t.host.pending == [.read .st]) = true := by decide

/-- R65: the host reads back what it wrote to an integer register. R61: `TX_BUF` is read by APDU_EXCHANGE alone. -/
theorem test_read_request :
    after (step (hosting [.read .inFmax] (asking (rateReq 372 1 4000000) State.reset)))
      (fun t => t.host.log == [⟨.read .inFmax, .value 4000000⟩]) = true ∧
    faults (step (hosting [.read (.txBuf 1)] (asking readReq State.reset))) (.noReadPath (.txBuf 1)) = true := by decide

/-- A placed command is issued by the next step, and a placed byte is examined by it. -/
theorem test_withFetchWord :
    after (step (State.reset.withFetchWord 8 0x05)) (fun t => t.st == .apCheck) = true ∧
    after (step (State.reset.withFetchWord 8 0x3F)) (fun t => t.res.conv == some 2) = true ∧
    after (step (State.reset.withFetchWord 8 0x60)) (fun t => t.st == .apProc) = true ∧
    after (step (State.reset.withFetchWord 8 0x92)) (fun t => t.st == .apSw2) = true ∧
    after (step (State.reset.withFetchWord 32 0xFE1110FF))
      (fun t => t.port.trace == [.send [0xFF, 0x10, 0x11, 0xFE] true]) = true := by decide

/-! ## For every obligation with hypotheses, values that meet them: one conjunct per clause, at the ends of its range -/

theorem witness_DecodeOfEncodeIsIdentity :
    Instr.wfIn .hostCommand .apduExchange = true ∧ Instr.wfIn .paramByte (.paramByte 15 15) = true ∧
    Instr.wfIn .atrTs .tsDirect = true ∧ Instr.wfIn .atrTs .tsInverse = true ∧ Instr.wfIn .atrTs (.tsInvalid 0x3C) = true ∧
    Instr.wfIn .atrT0 (.t0Ta1Present 7 15) = true ∧ Instr.wfIn .atrT0 (.t0Ta1Absent 0 0) = true ∧
    Instr.wfIn .ppsFrame (.ppsFrame 0xFF) = true ∧ Instr.wfIn (.procedureByte 0x60) .pbNull = true ∧
    Instr.wfIn (.procedureByte 0x94) (.pbAck 0x94) = true ∧ Instr.wfIn (.procedureByte 0x94) (.pbSw16x 1) = true ∧
    Instr.wfIn (.procedureByte 0x94) (.pbSw19x 15) = true ∧ Instr.wfIn (.procedureByte 0x94) (.pbInvalid 0x5F) = true := by
  decide

theorem witness_EncodeOfDecodeIsIdentity :
    decode .ppsFrame [0xFF, 0x10, 0x00, 0xEF, 0xAA] = .ok (.ppsFrame 0x00) [0xAA] ∧
    decode (.procedureByte 0xF2) [0x61] = .ok (.pbSw16x 1) [] := by decide

theorem witness_ReservedCommandIsRefused : ∀ c ∈ [0x00#8, 0x06#8, 0xFF#8],
    (hosting [.writeCmd c] State.reset).busy = false ∧ (hosting [.writeCmd c] State.reset).host.pending = [.writeCmd c] ∧
    (c.toNat = 0 ∨ 5 < c.toNat) := by decide

theorem witness_StepRunsDecodedCommand : ∀ c ∈ [0x01#8, 0x05#8],
    (hosting [.writeCmd c, .awaitDone] State.reset).busy = false ∧
    (hosting [.writeCmd c, .awaitDone] State.reset).host.pending = .writeCmd c :: [.awaitDone] ∧
    decode .hostCommand [c] = .ok (if c = 0x01 then .decode else .apduExchange) [] := by decide

theorem witness_StepRunsOperationInFlight :
    (∀ x ∈ [St.dec, .enc, .atr, .ppsSend, .ppsRecv, .ppsCheck, .apCheck, .apHdr, .apProc, .apAck, .apSw, .apSw2],
      (at' x State.reset).host.pending = [] ∧ (at' x State.reset).st = x ∧
      (at' x (hosting [.awaitDone] State.reset)).host.pending = .awaitDone :: [] ∧
      (at' x (hosting [.read .st] State.reset)).host.pending = .read .st :: [] ∧
      (at' x (taking [.engine] State.reset)).turn = .engine) ∧
    HostAction.read .st ≠ .awaitDone ∧ State.reset.st = .idle ∧ (at' .done State.reset).st = .done ∧
    (hosting [.awaitDone] State.reset).host.pending = .awaitDone :: [] := by decide

theorem witness_ExaminedBytesRunTheirFormat :
    ((byteReq 0x96).inByte = some 0x96 ∧ decode .paramByte [0x96] = .ok (.paramByte 9 6) []) ∧
    ((atrReq [0x3B, 0x10, 0x96]).atrBuf.read 0 = some 0x3B ∧ decode .atrTs [0x3B] = .ok .tsDirect []) ∧
    ((atrReq [0x3B, 0x10, 0x96]).atrBuf.read 1 = some 0x10 ∧ decode .atrT0 [0x10] = .ok (.t0Ta1Present 0 0) []) ∧
    (frame11.ppsReq.readBytes 0 4 = some [0xFF, 0x10, 0x11, 0xFE] ∧
      decode .ppsFrame [0xFF, 0x10, 0x11, 0xFE] = .ok (.ppsFrame 0x11) []) ∧
    ({ frame11 with ppsRsp := Memory.ofBytes [0xFF, 0x10, 0x12, 0xFD] }.ppsRsp.readBytes 0 4
        = some [0xFF, 0x10, 0x12, 0xFD] ∧
      decode .ppsFrame [0xFF, 0x10, 0x12, 0xFD] = .ok (.ppsFrame 0x12) []) ∧
    ((answering [.ok [0x61]] (at' .apProc (asking plainReq State.reset))).recvAnswer 1 = some [0x61] ∧
      plainReq.txBuf.read 1 = some 0xF2 ∧ decode (.procedureByte 0xF2) [0x61] = .ok (.pbSw16x 1) []) := by decide

theorem witness_IssueTransition :
    State.reset.busy = false ∧ (at' .done State.reset).busy = false ∧ (byteReq 0x00).inByte = some 0x00 ∧
    (rateReq 1 2 3).inFi = some 1 ∧ (rateReq 1 2 3).inDi = some 2 ∧ (rateReq 1 2 3).inFmax = some 3 ∧
    (∀ bs ∈ [[], [0x3B], [0x3B, 0x00, 0x01, 0x02]], (atrReq bs).atrLen = some bs.length ∧ bs.length ≤ small.cfg.atrMax ∧
      ∀ j, j < min bs.length 3 → ((atrReq bs).atrBuf.read j).isSome) ∧
    (ppsReqs 0x11).pps1 = some 0x11 ∧
    (∀ q ∈ [readReq, writeReq, plainReq], ∃ n ∈ [5, 7], ∃ r ∈ [0, 2], q.txLen = some n ∧ q.rxLen = some r ∧ 5 ≤ n ∧
      n ≤ small.cfg.txMax ∧ r ≤ small.cfg.rxMax ∧ ∀ j, j < n → (q.txBuf.read j).isSome) ∧
    ((at' .apProc (hosting [.writeCmd 0x01] State.reset)).busy = true ∧ (taking [.host] State.reset).turn = .host ∧
      (at' .apProc (hosting [.writeCmd 0x01] State.reset)).host.pending = [.writeCmd 0x01]) := by decide

theorem witness_IllFormedCommandIsRefused :
    small.busy = false ∧ small.req.inByte = none ∧ small.req.inFi = none ∧ small.req.atrLen = none ∧
    ((atrReq [0, 1, 2, 3, 4]).atrLen = some 5 ∧ small.cfg.atrMax < 5) ∧
    ({ atrReq [0, 1, 2] with atrBuf := [(0, 0), (1, 1)] }.atrLen = some 3 ∧
      2 < min 3 3 ∧ Memory.read [(0, 0), (1, 1)] 2 = none) ∧
    small.req.pps1 = none ∧ small.req.txLen = none ∧ ((apReq [1, 2, 3, 4] 0).txLen = some 4 ∧ 4 < 5) ∧
    (∀ n ∈ [8], (apReq [1, 2, 3, 4, 5, 6, 7, 8] 0).txLen = some n ∧ 5 ≤ n ∧ small.cfg.txMax < n) ∧
    ({ plainReq with rxLen := none }.txLen = some 5 ∧ { plainReq with rxLen := none }.rxLen = none) ∧
    ({ plainReq with rxLen := some 3 }.rxLen = some 3 ∧ small.cfg.rxMax < 3) ∧
    ({ plainReq with txLen := some 7 }.txLen = some 7 ∧ plainReq.rxLen = some 0 ∧ 5 ≤ 7 ∧ 7 ≤ small.cfg.txMax ∧
      0 ≤ small.cfg.rxMax ∧ 6 < 7 ∧ plainReq.txBuf.read 6 = none) := by decide

theorem witness_IllFormedCommandIsRefused_write :
    (hosting [.writeCmd 0x01] small).busy = false ∧ (hosting [.writeCmd 0x01] small).host.pending = .writeCmd 0x01 :: [] ∧
    decode .hostCommand [0x01] = .ok .decode [] ∧
    exec .decode ((hosting [.writeCmd 0x01] small).nextAction []) = .refused (.host (.illFormed .wfDecode)) :=
  ⟨rfl, rfl, rfl, rfl⟩

theorem witness_BusyEngineRefusesHostActions :
    let s := at' .apProc (taking [.host] (hosting [.setRxLen 1] State.reset))
    s.busy = true ∧ s.turn = .host ∧ s.host.pending = .setRxLen 1 :: [] ∧ (∀ r, HostAction.setRxLen 1 ≠ .read r) ∧
    HostAction.setRxLen 1 ≠ .awaitDone ∧ HostAction.setRxLen 1 ≠ .powerOn :=
  ⟨rfl, rfl, rfl, nofun, nofun, nofun⟩

theorem witness_HostWritesRequestRegisters :
    (∀ a ∈ [HostAction.setInByte 0, .setInFi (2 ^ 32 - 1), .setInDi (2 ^ 32), .setInFmax 0, .setAtrLen 34, .setPps1 0,
        .setTxLen 4, .setRxLen 257, .setAtrBuf [0, 1, 2, 3], .writeAtrBuf 3 [9], .writeAtrBuf 4 [9],
        .setTxBuf [0, 1, 2, 3, 4, 5, 6], .writeTxBuf 6 [9], .writeTxBuf 7 [9], .setAtrBuf [0, 1, 2, 3, 4],
        .setTxBuf [0, 1, 2, 3, 4, 5, 6, 7]],
      (hosting [a] small).busy = false ∧ (hosting [a] small).host.pending = a :: []) ∧
    2 ^ 32 - 1 < 2 ^ small.cfg.intW ∧ 2 ^ small.cfg.intW ≤ 2 ^ 32 ∧ [0, 1, 2, 3].length ≤ small.cfg.atrMax ∧
    3 + [9].length ≤ small.cfg.atrMax ∧ small.cfg.atrMax < 4 + [9].length ∧
    [0, 1, 2, 3, 4, 5, 6].length ≤ small.cfg.txMax ∧ 6 + [9].length ≤ small.cfg.txMax ∧
    small.cfg.txMax < 7 + [9].length ∧ small.cfg.atrMax < [0, 1, 2, 3, 4].length ∧
    small.cfg.txMax < [0, 1, 2, 3, 4, 5, 6, 7].length := by decide

/-- Every result register written at once, so that one state meets each clause about a read. -/
def allResults : Results :=
  { err := some 0x00, outFi := some 372, outDi := some 1, outFmax := some 5000000, outByte := some 0x11, conv := some 1,
    ta1Valid := some true, ta1 := some 0x96, respLen := some 2, rxBuf := [(0, 0x12), (1, 0x34)], sw1 := some 0x90,
    sw2 := some 0x00 }

theorem witness_HostReadsGiveRegisterValues :
    (∀ r ∈ [Reg.st, .busy, .err, .outFi, .outDi, .outFmax, .outByte, .conv, .ta1Valid, .ta1, .respLen, .rxBuf 1, .sw1, .sw2],
      (hosting [.read r] (at' .done (giving allResults small))).host.pending = .read r :: [] ∧
      (hosting [.read r] (at' .done (giving allResults small))).busy = false) ∧
    (∀ x ∈ [St.idle, .dec, .enc, .atr, .ppsSend, .ppsRecv, .ppsCheck, .apCheck, .apHdr, .apProc, .apAck, .apSw, .apSw2, .done],
      (at' x (taking [.host] (hosting [.read .st] small))).host.pending = .read .st :: [] ∧
      (at' x (taking [.host] (hosting [.read .st] small))).turn = .host ∧
      (at' x (taking [.host] (hosting [.read .st] small))).st = x) ∧
    (∀ r ∈ [Reg.inFi, .inDi, .inFmax],
      (taking [.host] (hosting [.read r] (at' .enc (asking (rateReq 372 1 0) small)))).host.pending = .read r :: [] ∧
      (taking [.host] (hosting [.read r] (at' .enc (asking (rateReq 372 1 0) small)))).turn = .host) ∧
    (rateReq 372 1 0).inFi = some 372 ∧ (rateReq 372 1 0).inDi = some 1 ∧ (rateReq 372 1 0).inFmax = some 0 ∧
    1 < small.cfg.rxMax ∧ allResults.rxBuf.read 1 = some 0x34 := by decide

theorem witness_HostReadsOfUnwrittenResultsFault :
    (∀ r ∈ [Reg.err, .cat, .outFi, .outDi, .outFmax, .outByte, .conv, .ta1Valid, .ta1, .respLen, .rxBuf 1, .sw1, .sw2],
      (taking [.host] (hosting [.read r] (at' .dec small))).host.pending = .read r :: [] ∧
      (taking [.host] (hosting [.read r] (at' .dec small))).busy = true ∧
      (taking [.host] (hosting [.read r] (at' .dec small))).turn = .host) ∧
    (∀ r ∈ [Reg.err, .rxBuf 1, .rxBuf 2, .atrBuf 4, .txBuf 7, .cmd, .ppsReq 0, .ppsRsp 3, .pb, .k, .dataTmp 0, .inByte,
        .inFi, .inDi, .inFmax, .atrLen, .atrBuf 3, .pps1, .txLen, .txBuf 6, .rxLen],
      (hosting [.read r] small).host.pending = .read r :: [] ∧ (hosting [.read r] small).busy = false) ∧
    small.req = Request.unwritten ∧
    1 < small.cfg.rxMax ∧ small.cfg.rxMax ≤ 2 ∧ small.res.rxBuf.read 1 = none ∧ small.res = Results.unwritten := by decide

theorem witness_SetupCallsLeaveTheEngine :
    (hosting [.setup .coldReset] State.reset).busy = false ∧
    (hosting [.setup .coldReset] State.reset).host.pending = .setup .coldReset :: [] := by decide

theorem witness_PowerOnResetsEveryRegister :
    (hosting [.powerOn] State.reset).host.pending = .powerOn :: [] ∧ (hosting [.powerOn] State.reset).busy = false ∧
    (taking [.host] (hosting [.powerOn] (at' .apProc State.reset))).host.pending = .powerOn :: [] ∧
    (taking [.host] (hosting [.powerOn] (at' .apProc State.reset))).turn = .host := by decide

/-- Bytes that select an RFU Fi entry, an RFU Di entry, and two valid entries (R110, R111). -/
theorem witness_DecodeStep : ∀ b ∈ [0x71#8, 0x00#8, 0x01#8, 0xD9#8],
    (at' .dec (asking (byteReq b) State.reset)).st = .dec ∧ (byteReq b).inByte = some b ∧
    (State.reset.cfg.fiTable[b.toNat / 16]? = some .rfu ∨
      State.reset.cfg.fiTable[b.toNat / 16]? = some (.valid 372 4000000) ∧ State.reset.cfg.diTable[b.toNat % 16]? = some .rfu ∨
      State.reset.cfg.fiTable[b.toNat / 16]? = some (.valid 372 4000000) ∧
        State.reset.cfg.diTable[b.toNat % 16]? = some (.valid 1) ∨
      State.reset.cfg.fiTable[b.toNat / 16]? = some (.valid 2048 20000000) ∧
        State.reset.cfg.diTable[b.toNat % 16]? = some (.valid 20)) := by decide

theorem witness_ParamByteSelectsTableEntries :
    (at' .dec State.reset).st = .dec ∧ State.reset.cfg.fiTable[(7 : Nibble).toNat]? = some .rfu ∧
    State.reset.cfg.fiTable[(0 : Nibble).toNat]? = some (.valid 372 4000000) ∧
    State.reset.cfg.diTable[(10 : Nibble).toNat]? = some .rfu ∧
    State.reset.cfg.diTable[(9 : Nibble).toNat]? = some (.valid 20) := by decide

theorem witness_DecodeOutcomeOfEveryByte : ∀ d ∈ [DiEntry.valid 64, .rfu],
    (d = .valid 64 ∨ d = .rfu) ∧ (at' .dec (asking (byteReq 0x07) (State.resetOf (Config.iso d)))).cfg = Config.iso d ∧
    (byteReq 0x07).inByte = some 0x07 := by decide

theorem witness_DecodedParametersAreValid :
    (at' .dec (asking (byteReq 0x96) State.reset)).cfg.wf = true ∧
    after (exec .decode (at' .dec (asking (byteReq 0x96) State.reset))) (fun t => t.res.err == some 0x00) = true := by decide

/-- ENC-2, where the first index does not fit; ENC-6, where none fits; ENC-13, where no Di fits. -/
theorem witness_EncodeStep :
    (at' .enc (asking (rateReq 372 1 5000000) State.reset)).st = .enc ∧ (rateReq 372 1 5000000).inFi = some 372 ∧
    (rateReq 372 1 5000000).inDi = some 1 ∧ (rateReq 372 1 5000000).inFmax = some 5000000 ∧
    (∀ i : Nat, ¬ ∃ m, State.reset.cfg.fiTable[i]? = some (.valid 372 m) ∧ 99000000 ≤ m) ∧
    (∀ j : Nat, ¬ State.reset.cfg.diTable[j]? = some (.valid 3)) ∧
    (∃ m, State.reset.cfg.fiTable[1]? = some (.valid 372 m) ∧ 5000000 ≤ m) ∧
    (∀ i' : Nat, i' < 1 → ¬ ∃ m, State.reset.cfg.fiTable[i']? = some (.valid 372 m) ∧ 5000000 ≤ m) ∧
    State.reset.cfg.diTable[1]? = some (.valid 1) ∧ (∀ j' : Nat, j' < 1 → ¬ State.reset.cfg.diTable[j']? = some (.valid 1)) := by
  have fi : ∀ i : Fin 16, ∀ m, State.reset.cfg.fiTable[i] = .valid 372 m → m ≤ 5000000 := by
    intro i m h
    have : ∀ i : Fin 16, (match State.reset.cfg.fiTable[i] with
      | .valid f m => decide (f = 372 → m ≤ 5000000)
      | .rfu => true) = true := by decide
    have h' := this i
    rw [h] at h'
    simpa using h'
  have di : ∀ j : Fin 16, State.reset.cfg.diTable[j] ≠ .valid 3 := by decide
  refine ⟨rfl, rfl, rfl, rfl, ?_, ?_, ⟨5000000, rfl, by decide⟩, ?_, rfl, ?_⟩
  · rintro i ⟨m, h, hm⟩
    obtain ⟨hi, h⟩ := Vector.getElem?_eq_some_iff.1 h
    have := fi ⟨i, hi⟩ m h
    omega
  · intro j h
    obtain ⟨hj, h⟩ := Vector.getElem?_eq_some_iff.1 h
    exact di ⟨j, hj⟩ h
  · rintro i' hi' ⟨m, h, hm⟩
    obtain rfl : i' = 0 := by omega
    obtain rfl : 4000000 = m := by simpa [State.reset, State.resetOf, Config.standard, Config.iso, Config.isoFiTable] using h
    omega
  · intro j' hj' h
    obtain rfl : j' = 0 := by omega
    exact absurd h (by decide)

/-- ENC-1. -/
theorem witness_EncodedByteAlwaysDecodes :
    (at' .enc (asking (rateReq 372 1 4000000) State.reset)).st = .enc ∧
    after (exec .encode (at' .enc (asking (rateReq 372 1 4000000) State.reset)))
      (fun t => t.res.err == some 0x00 && t.res.outByte == some 0x01) = true ∧
    (at' .dec (asking (byteReq 0x01) State.reset)).cfg = State.reset.cfg ∧
    (at' .dec (asking (byteReq 0x01) State.reset)).st = .dec ∧ (byteReq 0x01).inByte = some 0x01 := by decide

/-- The pair of Fi index 1 and Di index 1, and the one of the highest indices. -/
theorem witness_RateByteRoundTrip :
    (at' .enc (asking (rateReq 372 1 5000000) State.reset)).cfg = Config.iso (.valid 64) ∧
    (at' .dec (asking (byteReq 0x11) State.reset)).cfg = Config.iso (.valid 64) ∧
    (byteReq 0x11).inByte = some (BitVec.ofNat 8 (16 * 1 + 1)) ∧
    (Config.iso (.valid 64)).fiTable[1]? = some (.valid 372 5000000) ∧ (Config.iso (.valid 64)).diTable[1]? = some (.valid 1) ∧
    (Config.iso .rfu).fiTable[13]? = some (.valid 2048 20000000) ∧ (Config.iso .rfu).diTable[9]? = some (.valid 20) := by decide

/-- A byte and a triple of each outcome, in two states that differ elsewhere. -/
theorem witness_CodecIsPure :
    (∀ b ∈ [0x11#8, 0x70#8], ∀ s ∈ [State.reset, hosting [.awaitDone] (answering [.err] (giving { Results.unwritten with ta1 := some 0 } State.reset))],
      (at' .dec (asking (byteReq b) s)).cfg.fiTable = Config.standard.fiTable ∧
      (at' .dec (asking (byteReq b) s)).cfg.diTable = Config.standard.diTable ∧
      (at' .dec (asking (byteReq b) s)).cfg.intW = 32 ∧ (at' .dec (asking (byteReq b) s)).st = .dec ∧
      (at' .dec (asking (byteReq b) s)).req.inByte = some b) ∧
    (∀ m ∈ [0, 99000000], (at' .enc (asking (rateReq 372 1 m) State.reset)).cfg.fiTable = Config.standard.fiTable ∧
      (at' .enc (asking (rateReq 372 1 m) State.reset)).cfg.diTable = Config.standard.diTable ∧
      (at' .enc (asking (rateReq 372 1 m) State.reset)).st = .enc ∧ (rateReq 372 1 m).inFi = some 372 ∧
      (rateReq 372 1 m).inDi = some 1 ∧ (rateReq 372 1 m).inFmax = some m) := by decide

/-- Lengths 0, 1, 2 and 3 (ATR-1, ATR-3, ATR-4, ATR-8), and TS one off `0x3B` (ATR-13). -/
theorem witness_ParseAtrStep :
    (at' .atr State.reset).st = .atr ∧ ((atrReq []).atrLen = some 0 ∧ (atrReq [0x41]).atrLen = some 1) ∧
    ((atrReq [0x3C, 0x10, 0x96]).atrLen = some 3 ∧ (atrReq [0x3C, 0x10, 0x96]).atrBuf.read 0 = some 0x3C ∧
      0x3C#8 ≠ 0x3B ∧ 0x3C#8 ≠ 0x3F) ∧
    ((atrReq [0x3B, 0x00]).atrLen = some 2 ∧ (atrReq [0x3B, 0x00]).atrBuf.read 0 = some 0x3B) ∧
    (∀ t0 ∈ [0x10#8, 0xEF#8], (atrReq [0x3F, t0, 0x96]).atrLen = some 3 ∧ (atrReq [0x3F, t0, 0x96]).atrBuf.read 0 = some 0x3F ∧
      (atrReq [0x3F, t0, 0x96]).atrBuf.read 1 = some t0 ∧ (atrReq [0x3F, t0, 0x96]).atrBuf.read 2 = some 0x96 ∧
      t0.getLsbD 4 = (t0 == 0x10)) := by decide

theorem witness_TsRowsInAtr :
    (at' .atr State.reset).st = .atr ∧ (atrReq [0x41]).atrLen = some 1 ∧ (atrReq [0x3B, 0x00]).atrLen = some 2 ∧
    (atrReq [0x3B, 0x00, 0x96]).atrLen = some 3 ∧ (atrReq [0x3B, 0x00, 0x96]).atrBuf.read 1 = some 0x00 ∧
    (0x00#8).getLsbD 4 = false ∧ (atrReq [0x3B, 0x10, 0x96]).atrBuf.read 1 = some 0x10 ∧ (0x10#8).getLsbD 4 = true ∧
    (atrReq [0x3B, 0x10, 0x96]).atrBuf.read 2 = some 0x96 := by decide

theorem witness_T0RowsInAtr :
    (at' .atr State.reset).st = .atr ∧ (atrReq [0x41]).atrLen = some 1 ∧
    ((atrReq [0x41, 0x00]).atrLen = some 2 ∧ (atrReq [0x41, 0x00]).atrBuf.read 0 = some 0x41) ∧
    ((atrReq [0x3B, 0x00]).atrLen = some 2 ∧ (atrReq [0x3B, 0x00]).atrBuf.read 0 = some 0x3B) ∧
    ((atrReq [0x3F, 0x1F, 0x96]).atrLen = some 3 ∧ (atrReq [0x3F, 0x1F, 0x96]).atrBuf.read 0 = some 0x3F ∧
      (atrReq [0x3F, 0x1F, 0x96]).atrBuf.read 2 = some 0x96) := by decide

theorem witness_ParseAtrReadsThreeBytes :
    (at' .atr (asking (atrReq [0x3B, 0x10, 0x96, 0x00]) State.reset)).st = .atr ∧
    (∀ j, j < 3 → Memory.read (Memory.ofBytes [0x3B, 0x10, 0x96, 0xFF]) j = (atrReq [0x3B, 0x10, 0x96, 0x00]).atrBuf.read j) ∧
    after (exec .parseAtr (at' .atr (asking (atrReq [0x3B, 0x10, 0x96, 0x00]) State.reset))) (fun _ => true) = true ∧
    faults (exec .parseAtr (at' .atr State.reset)) (.unwrittenRead .atrLen) = true := by decide

theorem witness_PpsSendStep :
    (at' .ppsSend (working frame11 State.reset)).st = .ppsSend ∧
    (at' .ppsSend (working frame11 State.reset)).work.ppsReq.readBytes 0 4 = some [0xFF, 0x10, 0x11, 0xFE] ∧
    (answering [.ok []] State.reset).answer = .ok [] ∧ (answering [.err] State.reset).answer = .err := by decide

theorem witness_PpsReceiveStep :
    (at' .ppsRecv (working frame11 State.reset)).st = .ppsRecv ∧
    (answering [.ok [0xFF, 0x10, 0x11, 0xFE]] State.reset).answer = .ok [0xFF, 0x10, 0x11, 0xFE] ∧
    (answering [.ok [0xFF, 0x10, 0x11]] State.reset).answer = .ok [0xFF, 0x10, 0x11] ∧ [0xFF, 0x10, 0x11].length < 4 ∧
    (answering [.err] State.reset).answer = .err := by decide

theorem witness_PpsCheckStep :
    ∀ rsp ∈ [[0xFF#8, 0x10#8, 0x11#8, 0xFE#8], [0xFF#8, 0x10#8, 0x11#8, 0xFF#8]],
      (at' .ppsCheck (working { frame11 with ppsRsp := Memory.ofBytes rsp } State.reset)).st = .ppsCheck ∧
      frame11.ppsReq.readBytes 0 4 = some [0xFF, 0x10, 0x11, 0xFE] ∧ (Memory.ofBytes rsp).readBytes 0 4 = some rsp := by decide

theorem witness_PpsFrameRow :
    (at' .ppsSend (answering [.ok []] State.reset)).answer = .ok [] ∧
    (at' .ppsSend (answering [.err] State.reset)).answer = .err ∧ (at' .ppsSend State.reset).st = .ppsSend ∧
    (at' .ppsCheck (working frame11 State.reset)).st = .ppsCheck ∧
    frame11.ppsReq.readBytes 0 4 = some [0xFF#8, 0x10, 0x11, 0xEF ^^^ 0x11] ∧
    frame11.ppsReq.readBytes 0 4 ≠ some [0xFF#8, 0x10, 0x12, 0xEF ^^^ 0x12] := by decide

theorem witness_NegotiationSucceedsOnlyOnEcho :
    let s := hosting [.writeCmd 0x04] (answering [.ok [], .ok [0xFF, 0x10, 0x11, 0xFE]] (asking (ppsReqs 0x11) State.reset))
    s.busy = false ∧ s.req.pps1 = some 0x11 ∧ s.host.pending = [.writeCmd 0x04] ∧
    s.port.answers = .ok [] :: .ok [0xFF, 0x10, 0x11, 0xFE] :: [] := by decide

/-- AP-7 and the three other shapes of R196. -/
theorem witness_BidirectionalCheckStep :
    (at' .apCheck State.reset).st = .apCheck ∧
    (apReq [0xA0, 0xD6, 0x00, 0x00, 0x01, 0x55] 1).txLen = some 6 ∧ (apReq [0xA0, 0xD6, 0x00, 0x00, 0x01, 0x55] 1).rxLen = some 1 ∧
    readReq.txLen = some 5 ∧ readReq.rxLen = some 2 ∧ writeReq.txLen = some 7 ∧ writeReq.rxLen = some 0 ∧
    plainReq.txLen = some 5 ∧ plainReq.rxLen = some 0 := by decide

theorem witness_HeaderStep :
    (at' .apHdr State.reset).st = .apHdr ∧ readReq.txBuf.read 0 = some 0xA0 ∧ readReq.txBuf.read 1 = some 0xB0 ∧
    readReq.txBuf.read 2 = some 0x00 ∧ readReq.txBuf.read 3 = some 0x00 ∧ readReq.txBuf.read 4 = some 0x02 ∧
    (answering [.ok []] State.reset).answer = .ok [] ∧ (answering [.err] State.reset).answer = .err := by decide

/-- Each class of R92 at its ends, with INS 0xF2. -/
theorem witness_ProcedureByteStep :
    (at' .apProc (asking plainReq State.reset)).st = .apProc ∧ plainReq.txBuf.read 1 = some 0xF2 ∧
    plainReq.txLen = some 5 ∧ plainReq.rxLen = some 0 ∧ writeReq.txLen = some 7 ∧ readReq.rxLen = some 2 ∧
    (answering [.err] State.reset).answer = .err ∧ (answering [.ok []] State.reset).answer = .ok [] ∧
    (∀ b ∈ [0x60#8, 0xF2#8, 0x61#8, 0x6F#8, 0x90#8, 0x9F#8, 0x00#8, 0x5F#8, 0x70#8, 0x8F#8, 0xA0#8, 0xFF#8],
      (answering [.ok [b]] State.reset).answer = .ok (b :: [])) ∧
    (∀ b ∈ [0x61#8, 0x6F#8, 0x90#8, 0x9F#8], b ≠ 0x60 ∧ b ≠ 0xF2 ∧ (b.toNat / 16 = 6 ∨ b.toNat / 16 = 9)) ∧
    (∀ b ∈ [0x00#8, 0x5F#8, 0x70#8, 0x8F#8, 0xA0#8, 0xFF#8], b ≠ 0xF2 ∧ b.toNat / 16 ≠ 6 ∧ b.toNat / 16 ≠ 9) := by decide

theorem witness_ProcedureByteRows :
    (at' .apProc (asking plainReq State.reset)).st = .apProc ∧ plainReq.txLen = some 5 ∧ plainReq.rxLen = some 0 ∧
    writeReq.txLen = some 7 ∧ writeReq.rxLen = some 0 := by decide

/-- The three shapes of the data phase (R196). -/
theorem witness_DataPhaseStep :
    (at' .apAck State.reset).st = .apAck ∧ writeReq.txLen = some 7 ∧ writeReq.rxLen = some 0 ∧
    writeReq.txBuf.readBytes 5 (7 - 5) = some [0x12, 0x34] ∧ readReq.txLen = some 5 ∧ readReq.rxLen = some 2 ∧
    2 ≤ small.cfg.rxMax ∧ plainReq.txLen = some 5 ∧ plainReq.rxLen = some 0 ∧
    (answering [.ok [0x12]] State.reset).answer = .ok [0x12] ∧ (answering [.err] State.reset).answer = .err := by decide

theorem witness_StatusWordStep :
    (at' .apSw State.reset).st = .apSw ∧
    (∀ data ∈ [[], [0x12#8], [0x12#8, 0x34#8]],
      (Memory.ofBytes data).readBytes 0 data.length = some data ∧ data.length ≤ small.cfg.rxMax) ∧
    (answering [.ok [0x90, 0x00]] State.reset).answer = .ok (0x90 :: 0x00 :: []) ∧
    (answering [.ok [0x90]] State.reset).answer = .ok [0x90] ∧ [0x90].length < 2 ∧
    (answering [.err] State.reset).answer = .err := by decide

theorem witness_SecondStatusByteStep :
    (at' .apSw2 (working { Working.unwritten with pb := some 0x90 } State.reset)).st = .apSw2 ∧
    { Working.unwritten with pb := some 0x90 }.pb = some 0x90 ∧
    (answering [.ok [0x00]] State.reset).answer = .ok (0x00 :: []) ∧ (answering [.ok []] State.reset).answer = .ok [] ∧
    (answering [.err] State.reset).answer = .err := by decide

/-- AP-2 with one NULL byte: the whole answer list of an acknowledged read. -/
def readAnswers : List TransportAnswer :=
  [.ok [], .ok [0x60], .ok [0xB0], .ok [0x12, 0x34], .ok [0x90, 0x00]]

theorem witness_AcknowledgedReadReturnsData :
    let s := at' .apCheck (answering readAnswers (asking readReq State.reset))
    s.st = .apCheck ∧ s.host.pending = [] ∧ s.req.txLen = some 5 ∧
    s.req.txBuf.readBytes 0 5 = some [0xA0, 0xB0, 0x00, 0x00, 0x02] ∧ s.req.rxLen = some 2 ∧ 0 < 2 ∧ 2 ≤ s.cfg.rxMax ∧
    (0xB0#8) ≠ 0x60 ∧ [0x12#8, 0x34#8].length ≤ 2 ∧
    s.port.answers = TransportAnswer.ok [] :: (List.replicate 1 (TransportAnswer.ok [0x60#8])
      ++ ([TransportAnswer.ok [0xB0#8], TransportAnswer.ok [0x12#8, 0x34#8], TransportAnswer.ok [0x90#8, 0x00#8]] ++ [])) := by
  decide

theorem witness_NullStreamIsNotBounded :
    let s := at' .apProc (answering [.ok [0x60], .ok [0x60]] (asking plainReq State.reset))
    s.st = .apProc ∧ s.host.pending = [] ∧ s.req.txBuf.read 1 = some 0xF2 ∧
    s.port.answers = List.replicate 2 (TransportAnswer.ok [0x60#8]) ++ [] := by decide

theorem witness_ExchangeEndsUnderTransportTimeout :
    let s := at' .apCheck (answering readAnswers (asking readReq State.reset))
    s.inv = true ∧ s.st = .apCheck ∧ s.host.pending = [] ∧
    s.port.answers = TransportAnswer.ok [] :: (List.replicate 1 (TransportAnswer.ok [0x60#8])
      ++ TransportAnswer.ok [0xB0#8] :: [TransportAnswer.ok [0x12#8, 0x34#8], TransportAnswer.ok [0x90#8, 0x00#8]]) ∧
    (∀ more, TransportAnswer.ok [0xB0] ≠ .ok (0x60 :: more)) := by
  refine ⟨by decide, by decide, by decide, by decide, fun more h => ?_⟩
  simp at h

theorem witness_P3IsOnlyTransmitted :
    let s := at' .apAck (answering [.ok [0x12]] (asking readReq State.reset))
    s.req.txBuf.read 4 = some 0x02 ∧ s.st ≠ .apHdr ∧ after (exec .apduExchange s) (fun _ => true) = true := by decide

theorem witness_StepKeepsInvariant :
    let s := at' .apAck (answering [.ok [0x12]] (asking readReq (working { Working.unwritten with pb := some 0xB0 } State.reset)))
    s.inv = true ∧ after (step s) (fun t => t.st == .apSw) = true := by decide

theorem witness_BusyEngineIsNeverStuck :
    let s := at' .apSw2 (asking plainReq (working { Working.unwritten with pb := some 0x90 } State.reset))
    s.inv = true ∧ s.busy = true ∧ s.host.pending = [] ∧ (hosting [.awaitDone] s).host.pending = .awaitDone :: [] ∧
    (taking [.engine] (hosting [.read .st] s)).inv = true ∧ (taking [.engine] (hosting [.read .st] s)).turn = .engine := by decide

theorem witness_RequestRegistersAreTheHosts :
    let s := hosting [.setPps1 0x11] State.reset
    after (exec .decode (at' .dec (asking (byteReq 0x11) State.reset))) (fun _ => true) = true ∧
    (at' .apProc (taking [.host] (hosting [.setPps1 0x11] State.reset))).busy = true ∧
    after (step (at' .apProc (taking [.host] (hosting [.setPps1 0x11] State.reset)))) (fun _ => true) = true ∧
    after (step s) (fun t => t.req != s.req) = true := by decide

theorem witness_TablesNeverChange : after (step (hosting [.powerOn] State.reset)) (fun _ => true) = true := by decide

theorem witness_StateRegisterTransitions :
    after (step (at' .apCheck (asking plainReq State.reset))) (fun t => t.st == .apHdr) = true := by decide

theorem witness_AtMostOneTransportCallPerStep :
    after (step (at' .apHdr (answering [.err] (asking plainReq State.reset))))
      (fun t => t.port.trace == [.send [0x80, 0xF2, 0x00, 0x00, 0x00] false]) = true := by decide

/-- A busy step that ends its operation with a failure, one that ends it with success, and one that goes on. -/
theorem witness_busySteps :
    (at' .dec (asking (byteReq 0x71) State.reset)).busy = true ∧
    after (exec .decode (at' .dec (asking (byteReq 0x71) State.reset))) (fun t => t.st == .done && t.res.err == some 0x01) = true ∧
    after (exec .decode (at' .dec (asking (byteReq 0x11) State.reset))) (fun t => t.st == .done && t.res.err == some 0x00) = true ∧
    after (exec .apduExchange (at' .apCheck (asking plainReq State.reset))) (fun t => t.st == .apHdr) = true := by decide

/-- The frames' clauses: a data phase that receives one byte, read at index 1, and a status word after one byte, read at
index 1. -/
theorem witness_EngineStepFrameOnBuffers :
    let s := at' .apAck (answering [.ok [0x12]] (asking readReq State.reset))
    let u := at' .apSw (answering [.ok [0x90, 0x00]] (working { Working.unwritten with k := some 1, dataTmp := [(0, 0x12)] }
      (asking readReq State.reset)))
    s.busy = true ∧ s.req.txLen = some 5 ∧ s.req.rxLen = some 2 ∧ s.recvAnswer 2 = some [0x12] ∧ [0x12#8].length ≤ 1 ∧
    after (exec .apduExchange s) (fun t => t.st == .apSw) = true ∧ u.busy = true ∧ u.work.k = some 1 ∧ 1 ≤ 1 ∧
    after (exec .apduExchange u) (fun t => t.st == .done) = true := by decide

theorem witness_CatIsAViewOfErr : ∀ c ∈ [0x00#8, 0x01#8, 0x10#8],
    (hosting [.read .cat] (at' .done (giving { Results.unwritten with err := some c } State.reset))).busy = false ∧
    (hosting [.read .cat] (at' .done (giving { Results.unwritten with err := some c } State.reset))).host.pending
      = .read .cat :: [] ∧ c.toNat ≤ 0x10 := by decide

theorem witness_InstructionsOutsideTheirStates :
    State.reset.st ≠ .dec ∧ State.reset.st ≠ .atr ∧ State.reset.st ≠ .ppsSend ∧ State.reset.st ≠ .ppsCheck ∧
    State.reset.st ≠ .apProc ∧ (at' .dec State.reset).busy = true ∧ (at' .dec State.reset).st ≠ .apProc ∧
    (at' .enc State.reset).st ≠ .dec := by decide

end Sys2Proof.Tests
end

section
/-! The configuration is the same after every step (R47). The issue of a command, the one thing an instruction can do
while the engine is not busy, is said once here, beside `Effect` (a busy engine) and `HostEffect` (the host). -/

namespace Sys2Proof.Machine

theorem State.st_of_notBusy {s : State} (idle : s.busy = false) : s.st = .idle ∨ s.st = .done := by
  unfold State.busy at idle
  cases st : s.st <;> simp [st, St.busy] at idle ⊢

/-- The next states of a command `i` that is issued in `s` (R25, R161). -/
inductive Issue (i : Instr) (s : State) : State → Prop
  /-- The four commands that issue with no internal register written. -/
  | plain (x : St) (first : x.first = true) (own : x.operation = some i) (notPps : i ≠ .negotiatePps)
      (checked : failedCheck i s = none) : Issue i s (s.issue x)
  /-- NEGOTIATE_PPS, which builds its request frame. -/
  | pps (p : Byte) (isPps : i = .negotiatePps) (pps1 : s.req.pps1 = some p) :
      Issue i s ((s.issue .ppsSend).setWork { Working.unwritten with ppsReq := Memory.ofBytes (ppsFrameBytes p) })

theorem issue_of_issueCommand {i : Instr} {x : St} {s t : State} (first : x.first = true)
    (own : x.operation = some i) (notPps : i ≠ .negotiatePps) (h : issueCommand i x s = .next t) : Issue i s t := by
  obtain ⟨checked, rfl⟩ := issueCommand_eq_next.1 h
  exact .plain x first own notPps checked

/-- While the engine is not busy, each command is its issue transition (R25). -/
theorem command_notBusy {s : State} (idle : s.busy = false) :
    exec .decode s = issueCommand .decode .dec s ∧
    exec .encode s = issueCommand .encode .enc s ∧
    exec .parseAtr s = issueCommand .parseAtr .atr s ∧
    exec .negotiatePps s = ppsIssue s ∧
    exec .apduExchange s = issueCommand .apduExchange .apCheck s := by
  simp only [exec, execDecode, execEncode, execParseAtr, execNegotiatePps, execApduExchange]
  obtain st | st := State.st_of_notBusy idle <;> simp only [st, and_self]

/-- Everything an instruction can do while the engine is not busy: the issue of a command. A byte format has no
event there. -/
theorem issue_of_exec {i : Instr} {s t : State} (idle : s.busy = false) (h : exec i s = .next t) : Issue i s t := by
  obtain ⟨hDecode, hEncode, hAtr, hPps, hApdu⟩ := command_notBusy idle
  have notIn {x : St} (busy : x.busy = true) (st : s.st = x) : Issue i s t := by
    simp [State.busy, st, busy] at idle
  cases i with
  | decode => exact issue_of_issueCommand rfl rfl nofun (hDecode.symm.trans h)
  | encode => exact issue_of_issueCommand rfl rfl nofun (hEncode.symm.trans h)
  | parseAtr => exact issue_of_issueCommand rfl rfl nofun (hAtr.symm.trans h)
  | apduExchange => exact issue_of_issueCommand rfl rfl nofun (hApdu.symm.trans h)
  | negotiatePps =>
    obtain ⟨p, pps1, rfl⟩ := ppsIssue_eq_next (hPps.symm.trans h)
    exact .pps p rfl pps1
  | paramByte f d => obtain st | st := State.st_of_notBusy idle <;> simp [exec, execParamByte, st] at h
  | ppsFrame p => obtain st | st := State.st_of_notBusy idle <;> simp [exec, execPpsFrame, st] at h
  | tsDirect | tsInverse | tsInvalid _ | t0Ta1Present _ _ | t0Ta1Absent _ _ => exact notIn rfl (inAtr_eq_next.1 h).1
  | pbNull | pbAck _ | pbSw16x _ | pbSw19x _ | pbInvalid _ => exact notIn rfl (inApProc_eq_next.1 h).1

/-! ## Each agent keeps the configuration -/

theorem Issue.cfg {i : Instr} {s t : State} (h : Issue i s t) : t.cfg = s.cfg := by
  cases h with
  | plain => exact State.issue_cfg s _
  | pps => rfl

theorem Effect.cfg {s t : State} (h : Effect s t) : t.cfg = s.cfg := by
  cases h with
  | pbNull _ _ from' | pbAck _ _ _ from' | pbFail _ _ _ from' _ | pbSw1 _ _ _ from' _ =>
    obtain rfl | rfl := from' <;> rfl
  | _ => rfl

theorem HostEffect.cfg {a : HostAction} {s t : State} (h : HostEffect a s t) : t.cfg = s.cfg := by
  cases h with
  | answered r => exact State.reply_cfg s a r
  | stored q => rfl
  | issued c i u idle isCmd decoded issue => exact (issue_of_exec idle issue).cfg
  | reset => rfl

theorem engineStep_cfg {s t : State} (h : engineStep s = .next t) : t.cfg = s.cfg := by
  obtain ⟨-, rfl⟩ | ⟨-, effect⟩ := engineStep_eq_next h
  · rfl
  · exact effect.cfg

/-- Settles O50: a step is the engine's or the host's, and neither writes the configuration. -/
theorem tablesNeverChange : Obligations.TablesNeverChange := by
  intro s t h
  obtain ⟨u, from', engine⟩ | ⟨a, rest, u, -, from', host⟩ := step_cases s
  · have kept : t.cfg = u.cfg := engineStep_cfg (engine.symm.trans h)
    obtain rfl | rfl := from' <;> exact kept
  · have kept : t.cfg = u.cfg := (hostEffect_of_hostAct (host.symm.trans h)).cfg
    obtain ⟨-, rfl⟩ | ⟨-, -, -, rfl⟩ := from' <;> exact kept

end Sys2Proof.Machine
end

section
/-! DECODE and ENCODE (40_codec.md): the table entries as the statements write them, what the two searches of ENCODE
return, and one equation per outcome of the states `DEC` and `ENC`. -/

namespace Sys2Proof.Machine

/-! ## The searches -/

theorem getElem?_fiTable (s : State) (i : Nibble) : s.cfg.fiTable[i.toNat]? = some (s.fiEntry i) :=
  Vector.getElem?_eq_getElem i.isLt

theorem getElem?_diTable (s : State) (j : Nibble) : s.cfg.diTable[j.toNat]? = some (s.diEntry j) :=
  Vector.getElem?_eq_getElem j.isLt

/-- The condition of R119 on an index, in or out of the table. -/
def State.fiFits (s : State) (fi fmax : Word) (i : Nat) : Prop :=
  ∃ m, s.cfg.fiTable[i]? = some (.valid fi m) ∧ fmax ≤ m

/-- The condition of R120 on an index, in or out of the table. -/
def State.diFits (s : State) (di : Word) (j : Nat) : Prop := s.cfg.diTable[j]? = some (.valid di)

theorem fiMatches_iff_fiFits {s : State} {fi fmax : Word} {i : Nibble} :
    fiMatches fi fmax (s.fiEntry i) = true ↔ s.fiFits fi fmax i.toNat := by
  simp only [State.fiFits, getElem?_fiTable]
  cases s.fiEntry i <;> simp [fiMatches]

theorem diMatches_iff_diFits {s : State} {di : Word} {j : Nibble} :
    diMatches di (s.diEntry j) = true ↔ s.diFits di j.toNat := by
  simp only [State.diFits, getElem?_diTable]
  cases s.diEntry j <;> simp [diMatches]

theorem State.fiFits.lt {s : State} {fi fmax : Word} {i : Nat} (h : s.fiFits fi fmax i) : i < 16 := by
  obtain ⟨m, entry, -⟩ := h
  exact (Vector.getElem?_eq_some_iff.1 entry).1

theorem State.diFits.lt {s : State} {di : Word} {j : Nat} (h : s.diFits di j) : j < 16 :=
  (Vector.getElem?_eq_some_iff.1 h).1

/-- The indices stand in rising order from 0. -/
theorem toNat_getElem_tableIndices : ∀ n (h : n < tableIndices.length), tableIndices[n].toNat = n := by decide

theorem mem_tableIndices (i : Nibble) : i ∈ tableIndices := by
  have at_i : tableIndices[i.toNat]'i.isLt = i := BitVec.eq_of_toNat_eq (toNat_getElem_tableIndices _ _)
  exact at_i ▸ List.getElem_mem _

/-- A search through the indices `0..15` returns the least index with the property it looks for. -/
theorem find?_tableIndices_eq_some {p : Nibble → Bool} {fits : Nat → Prop} {i : Nibble}
    (meets : ∀ i, p i = true ↔ fits i.toNat) :
    tableIndices.find? p = some i ↔ fits i.toNat ∧ ∀ i', i' < i.toNat → ¬ fits i' := by
  have meets_at (n : Nat) (h : n < tableIndices.length) : (!p tableIndices[n]) = true ↔ ¬ fits n := by
    rw [Bool.not_eq_true', ← Bool.not_eq_true, meets, toNat_getElem_tableIndices]
  rw [List.find?_eq_some_iff_getElem, meets]
  refine and_congr_right fun _ => ⟨?_, fun below => ?_⟩
  · rintro ⟨n, hn, rfl, below⟩ i' lt
    rw [toNat_getElem_tableIndices] at lt
    exact (meets_at i' (lt.trans hn)).1 (below i' lt)
  · refine ⟨i.toNat, i.isLt, BitVec.eq_of_toNat_eq (toNat_getElem_tableIndices _ _), fun n lt => ?_⟩
    exact (meets_at n (lt.trans i.isLt)).2 (below n lt)

/-- A search through the indices `0..15` fails just when no index has the property it looks for. -/
theorem find?_tableIndices_eq_none {p : Nibble → Bool} {fits : Nat → Prop}
    (meets : ∀ i, p i = true ↔ fits i.toNat) (inTable : ∀ {n}, fits n → n < 16) :
    tableIndices.find? p = none ↔ ∀ n, ¬ fits n := by
  rw [List.find?_eq_none]
  constructor
  · intro noneMeets n found
    have toNat_n : (BitVec.ofNat 4 n).toNat = n := Nat.mod_eq_of_lt (inTable found)
    exact noneMeets (BitVec.ofNat 4 n) (mem_tableIndices _) ((meets _).2 (by rwa [toNat_n]))
  · exact fun noneFits i _ found => noneFits i.toNat ((meets i).1 found)

/-- Settles O60: each search goes through the indices in order, and its test is the rule's condition. -/
theorem searchesReturnTheLeastIndex : Obligations.SearchesReturnTheLeastIndex := by
  intro s fi di fmax
  refine ⟨fun i => ?_, ?_, fun j => ?_, ?_⟩
  · exact find?_tableIndices_eq_some fun _ => fiMatches_iff_fiFits
  · exact find?_tableIndices_eq_none (fun _ => fiMatches_iff_fiFits) State.fiFits.lt
  · exact find?_tableIndices_eq_some fun _ => diMatches_iff_diFits
  · exact find?_tableIndices_eq_none (fun _ => diMatches_iff_diFits) State.diFits.lt

/-! ## The outcomes of a step -/

theorem exec_decode_dec {s : State} {b : Byte} (st : s.st = .dec) (inByte : s.req.inByte = some b) :
    exec .decode s = decodeIndices (hiNibble b) (loNibble b) s := by
  simp only [exec, execDecode, execParamByte, st, inByte, need_some]

theorem exec_encode_enc {s : State} {fi di fmax : Word} (st : s.st = .enc) (inFi : s.req.inFi = some fi)
    (inDi : s.req.inDi = some di) (inFmax : s.req.inFmax = some fmax) :
    exec .encode s = encodeParameters fi di fmax s := by
  simp only [exec, execEncode, st, inFi, inDi, inFmax, need_some]

theorem decodeIndices_of_fiRfu {s : State} {i j : Nibble} (fiRfu : s.fiEntry i = .rfu) :
    decodeIndices i j s = .next (s.fail .unsupportedFi) := by
  simp only [decodeIndices, fiRfu, raise]

theorem decodeIndices_of_diRfu {s : State} {i j : Nibble} {f m : Nat} (fi : s.fiEntry i = .valid f m)
    (diRfu : s.diEntry j = .rfu) : decodeIndices i j s = .next (s.fail .unsupportedDi) := by
  simp only [decodeIndices, fi, diRfu, raise]

theorem decodeIndices_of_valid {s : State} {i j : Nibble} {f m d : Nat} (fi : s.fiEntry i = .valid f m)
    (di : s.diEntry j = .valid d) :
    decodeIndices i j s =
      .next (s.commit { s.res with outFi := some (s.zext f), outDi := some (s.zext d), outFmax := some (s.zext m) }) := by
  simp only [decodeIndices, fi, di, succeed]

theorem encodeParameters_of_noFi {s : State} {fi di fmax : Word} (noFi : fiSearch fi fmax s = none) :
    encodeParameters fi di fmax s = .next (s.fail .noFiEncoding) := by
  simp only [encodeParameters, noFi, raise]

theorem encodeParameters_of_noDi {s : State} {fi di fmax : Word} {i : Nibble} (foundFi : fiSearch fi fmax s = some i)
    (noDi : diSearch di s = none) : encodeParameters fi di fmax s = .next (s.fail .noDiEncoding) := by
  simp only [encodeParameters, foundFi, noDi, raise]

theorem encodeParameters_of_found {s : State} {fi di fmax : Word} {i j : Nibble}
    (foundFi : fiSearch fi fmax s = some i) (foundDi : diSearch di s = some j) :
    encodeParameters fi di fmax s = .next (s.commit { s.res with outByte := some (joinNibbles i j) }) := by
  simp only [encodeParameters, foundFi, foundDi, succeed]

/-- Settles O23: the outcome of DECODE is fixed by the two entries its byte selects, and that of ENCODE by its two
searches, both of which read the tables alone. -/
theorem codecIsPure : Obligations.CodecIsPure := by
  refine fun fiTable diTable => ⟨fun width b => ?_, fun fi di fmax => ?_⟩
  · cases fiEntry : fiTable[(hiNibble b).toFin] with
    | rfu =>
      refine ⟨FailKind.unsupportedFi.code, none, ?_⟩
      rintro s rfl - - st inByte
      exact (exec_decode_dec st inByte).trans (decodeIndices_of_fiRfu fiEntry)
    | valid f m =>
      cases diEntry : diTable[(loNibble b).toFin] with
      | rfu =>
        refine ⟨FailKind.unsupportedDi.code, none, ?_⟩
        rintro s rfl rfl - st inByte
        exact (exec_decode_dec st inByte).trans (decodeIndices_of_diRfu fiEntry diEntry)
      | valid d =>
        refine ⟨0x00, some (f % 2 ^ width, d % 2 ^ width, m % 2 ^ width), ?_⟩
        rintro s rfl rfl rfl st inByte
        exact (exec_decode_dec st inByte).trans (decodeIndices_of_valid fiEntry diEntry)
  · cases foundFi : tableIndices.find? fun i => fiMatches fi fmax fiTable[i.toFin] with
    | none =>
      refine ⟨FailKind.noFiEncoding.code, none, ?_⟩
      rintro s rfl - st inFi inDi inFmax
      exact (exec_encode_enc st inFi inDi inFmax).trans (encodeParameters_of_noFi foundFi)
    | some i =>
      cases foundDi : tableIndices.find? fun j => diMatches di diTable[j.toFin] with
      | none =>
        refine ⟨FailKind.noDiEncoding.code, none, ?_⟩
        rintro s rfl rfl st inFi inDi inFmax
        exact (exec_encode_enc st inFi inDi inFmax).trans (encodeParameters_of_noDi foundFi foundDi)
      | some j =>
        refine ⟨0x00, some (joinNibbles i j), ?_⟩
        rintro s rfl rfl st inFi inDi inFmax
        exact (exec_encode_enc st inFi inDi inFmax).trans (encodeParameters_of_found foundFi foundDi)

end Sys2Proof.Machine
end

section
/-! NEGOTIATE_PPS (42_pps.md): the step of state `PPS_SEND`, one equation per answer of its `Send`. -/

namespace Sys2Proof.Machine

theorem State.afterSend_of_ok {s : State} {bs : List Byte} (ok : s.answer = .ok bs) (frame : List Byte) :
    s.afterSend frame = { s with port := s.port.after (.send frame true) } := by
  rw [State.afterSend, State.sendOk_ok ok]

theorem State.afterSend_of_err {s : State} (err : s.answer = .err) (frame : List Byte) :
    s.afterSend frame = { s with port := s.port.after (.send frame false) } := by
  rw [State.afterSend, State.sendOk_err err]

theorem ppsSendFrame_of_ok {s : State} {bs : List Byte} (ok : s.answer = .ok bs) (frame : List Byte) :
    ppsSendFrame frame s = .next { s with st := .ppsRecv, port := s.port.after (.send frame true) } := by
  rw [ppsSendFrame, if_pos (State.sendOk_ok ok), State.afterSend_of_ok ok, State.goto]

theorem ppsSendFrame_of_err {s : State} (err : s.answer = .err) (frame : List Byte) :
    ppsSendFrame frame s =
      .next ({ s with port := s.port.after (.send frame false) }.fail .transmitFailed) := by
  rw [ppsSendFrame, if_neg (Bool.eq_false_iff.1 (State.sendOk_err err)), raise, State.afterSend_of_err err]

theorem exec_negotiatePps_ppsSend {s : State} {frame : List Byte} (st : s.st = .ppsSend)
    (request : s.work.ppsReq.readBytes 0 4 = some frame) : exec .negotiatePps s = ppsSendFrame frame s := by
  simp only [exec, execNegotiatePps, st, request, need_some]

/-- Settles O28: the step sends the frame held in `PPS_REQ`, and the answer of that one call picks the next state. -/
theorem ppsSendStep : Obligations.PpsSendStep := by
  intro s frame st request
  have step : exec .negotiatePps s = ppsSendFrame frame s := exec_negotiatePps_ppsSend st request
  exact ⟨fun _ ok => step.trans (ppsSendFrame_of_ok ok frame), fun err => step.trans (ppsSendFrame_of_err err frame)⟩

end Sys2Proof.Machine
end

section
/-! APDU_EXCHANGE (43_apdu.md): the classes of a procedure byte, the step of each state of an exchange, one equation per
outcome, and the run of an acknowledged read, put together from its steps. -/

namespace Sys2Proof.Machine

/-! ## The class of a procedure byte -/

theorem hiNibble_eq_iff {b : Byte} {h : Nibble} : hiNibble b = h ↔ b.toNat / 16 = h.toNat := by
  have : b.toNat < 256 := b.isLt
  rw [← BitVec.toNat_inj, hiNibble, BitVec.extractLsb'_toNat, Nat.shiftRight_eq_div_pow]
  omega

theorem joinNibbles_hiNibble_loNibble (b : Byte) : joinNibbles (hiNibble b) (loNibble b) = b := by
  ext i lt
  simp only [joinNibbles, hiNibble, loNibble, BitVec.getElem_or, BitVec.getElem_shiftLeft, BitVec.getElem_setWidth,
    BitVec.getLsbD_extractLsb', BitVec.getLsbD_eq_getElem lt, Nat.zero_add]
  by_cases low : i < 4
  · simp [low]
  · simp [low, show i - 4 < 4 by omega, show 4 + (i - 4) = i by omega, BitVec.getLsbD_eq_getElem lt]

/-! ## A received procedure byte, by its class (R92) -/

theorem inApProc_of_st {s : State} (st : s.st = .apProc) (r : Result) : inApProc s r = r := by
  simp only [inApProc, st]

theorem sw1Byte_of_lengths {s : State} {tx rx : Nat} (txLen : s.req.txLen = some tx) (rxLen : s.req.rxLen = some rx)
    (b : Byte) :
    sw1Byte b s = if rx ≠ 0 ∨ 5 < tx then .next (s.fail .unexpectedStatusByte)
      else .next { s with st := .apSw2, work := { s.work with pb := some b } } := by
  simp only [sw1Byte, needLengths, txLen, rxLen, need_some]
  rfl

theorem procedureByte_null {s : State} (st : s.st = .apProc) (ins : Byte) : procedureByte ins 0x60 s = .next s := by
  have null : pbClass ins 0x60 = .null := if_pos rfl
  simp only [procedureByte, null, execPbNull, inApProc_of_st st]

theorem procedureByte_ack {s : State} (st : s.st = .apProc) {ins : Byte} (notNull : ins ≠ 0x60#8) :
    procedureByte ins ins s = .next { s with st := .apAck, work := { s.work with pb := some ins } } := by
  have ack : pbClass ins ins = .ack := by rw [pbClass, if_neg notNull, if_pos rfl]
  simp only [procedureByte, ack, execPbAck, inApProc_of_st st]
  rfl

theorem procedureByte_sw1 {s : State} (st : s.st = .apProc) {ins b : Byte} (notNull : b ≠ 0x60#8) (notAck : b ≠ ins)
    (sw1 : b.toNat / 16 = 6 ∨ b.toNat / 16 = 9) : procedureByte ins b s = sw1Byte b s := by
  obtain six | nine := sw1
  · have hi : hiNibble b = 6#4 := hiNibble_eq_iff.2 six
    have six : pbClass ins b = .sw1Six := by rw [pbClass, if_neg notNull, if_neg notAck, if_pos hi]
    simp only [procedureByte, six, execPbSw16x, inApProc_of_st st, ← hi, joinNibbles_hiNibble_loNibble]
  · have hi : hiNibble b = 9#4 := hiNibble_eq_iff.2 nine
    have nine : pbClass ins b = .sw1Nine := by
      rw [pbClass, if_neg notNull, if_neg notAck, if_neg (by rw [hi]; decide), if_pos hi]
    simp only [procedureByte, nine, execPbSw19x, inApProc_of_st st, ← hi, joinNibbles_hiNibble_loNibble]

theorem procedureByte_invalid {s : State} (st : s.st = .apProc) {ins b : Byte} (notAck : b ≠ ins)
    (notSix : b.toNat / 16 ≠ 6) (notNine : b.toNat / 16 ≠ 9) :
    procedureByte ins b s = .next (s.fail .invalidProcedureByte) := by
  have notNull : b ≠ 0x60#8 := fun null => notSix (null ▸ rfl)
  have invalid : pbClass ins b = .invalid := by
    rw [pbClass, if_neg notNull, if_neg notAck, if_neg (mt hiNibble_eq_iff.1 notSix), if_neg (mt hiNibble_eq_iff.1 notNine)]
  simp only [procedureByte, invalid, execPbInvalid, inApProc_of_st st, raise]

/-! ## The step of each state -/

/-- The state after a `Recv(1)` that gave this byte. -/
def State.afterByte (b : Byte) (s : State) : State := { s with port := s.port.after (.recv 1 (some [b])) }

theorem State.afterRecv_one {s : State} {b : Byte} {more : List Byte} (ok : s.answer = .ok (b :: more)) :
    s.afterRecv 1 = s.afterByte b := by
  rw [State.afterRecv, State.recvAnswer_ok 1 ok]
  rfl

theorem exec_apduExchange_apCheck {s : State} {tx rx : Nat} (st : s.st = .apCheck) (txLen : s.req.txLen = some tx)
    (rxLen : s.req.rxLen = some rx) :
    exec .apduExchange s =
      if 5 < tx ∧ 0 < rx then .next (s.fail .bidirectionalNotSupported) else .next (s.goto .apHdr) := by
  simp only [exec, execApduExchange, st, apCheck, needLengths, txLen, rxLen, need_some, raise]

theorem exec_apduExchange_apHdr {s : State} {header : List Byte} (st : s.st = .apHdr)
    (read : s.req.txBuf.readBytes 0 5 = some header) :
    exec .apduExchange s = if s.sendOk then .next ((s.afterSend header).goto .apProc)
      else .next ((s.afterSend header).fail .headerSendFailed) := by
  simp only [exec, execApduExchange, st, apHdr, needHeader, read, need_some, raise]

theorem exec_apduExchange_apHdr_of_ok {s : State} {header bs : List Byte} (st : s.st = .apHdr)
    (read : s.req.txBuf.readBytes 0 5 = some header) (ok : s.answer = .ok bs) :
    exec .apduExchange s = .next { s with st := .apProc, port := s.port.after (.send header true) } := by
  rw [exec_apduExchange_apHdr st read, if_pos (State.sendOk_ok ok), State.afterSend_of_ok ok, State.goto]

theorem exec_apduExchange_apHdr_of_err {s : State} {header : List Byte} (st : s.st = .apHdr)
    (read : s.req.txBuf.readBytes 0 5 = some header) (err : s.answer = .err) :
    exec .apduExchange s =
      .next ({ s with port := s.port.after (.send header false) }.fail .headerSendFailed) := by
  rw [exec_apduExchange_apHdr st read, if_neg (Bool.eq_false_iff.1 (State.sendOk_err err)), State.afterSend_of_err err]

theorem exec_apduExchange_apProc {s : State} (st : s.st = .apProc) : exec .apduExchange s = apProc s := by
  simp only [exec, execApduExchange, st]

theorem exec_apduExchange_apProc_of_byte {s : State} {ins b : Byte} {more : List Byte} (st : s.st = .apProc)
    (read : s.req.txBuf.read 1 = some ins) (ok : s.answer = .ok (b :: more)) :
    exec .apduExchange s = procedureByte ins b (s.afterByte b) := by
  have received : s.recvAnswer 1 = some [b] := State.recvAnswer_ok 1 ok
  simp only [exec_apduExchange_apProc st, apProc, received, needIns, read, need_some, State.afterRecv_one ok]

/-- R184: an error and an empty answer both end the exchange. -/
theorem exec_apduExchange_apProc_of_noByte {s : State} {answer : Option (List Byte)} (st : s.st = .apProc)
    (received : s.recvAnswer 1 = answer) (noByte : ∀ b, answer ≠ some [b]) :
    exec .apduExchange s =
      .next ({ s with port := s.port.after (.recv 1 answer) }.fail .procedureByteMissing) := by
  subst received
  rw [exec_apduExchange_apProc st, apProc]
  split
  · next b byte => exact absurd byte (noByte b)
  · rfl

/-- The data phase of a command that expects a response (R188), where the response fits `DATA_TMP`. -/
theorem exec_apduExchange_apAck_of_response {s : State} {tx rx : Nat} {data : List Byte} (st : s.st = .apAck)
    (txLen : s.req.txLen = some tx) (rxLen : s.req.rxLen = some rx) (noData : tx ≤ 5) (response : 0 < rx)
    (received : s.recvAnswer rx = some data) (fits : data.length ≤ s.cfg.rxMax) :
    exec .apduExchange s = .next { s with
      st := .apSw
      work := { s.work with k := some data.length, dataTmp := s.work.dataTmp.writeBytes 0 data }
      port := s.port.after (.recv rx (some data)) } := by
  have bounded : 0 + data.length ≤ s.cfg.rxMax := by rwa [Nat.zero_add]
  simp only [exec, execApduExchange, st, apAck, needLengths, txLen, rxLen, need_some, if_neg noData.not_gt,
    if_pos response, apAckReceive, received, memWrite, if_pos bounded, State.afterRecv]
  rfl

/-- The commit of a whole status word (R189). -/
theorem exec_apduExchange_apSw_of_word {s : State} {k : Nat} {data more : List Byte} {a b : Byte} (st : s.st = .apSw)
    (count : s.work.k = some k) (read : s.work.dataTmp.readBytes 0 k = some data) (fits : k ≤ s.cfg.rxMax)
    (ok : s.answer = .ok (a :: b :: more)) :
    exec .apduExchange s = .next { s with
      st := .done
      res := { s.res with err := some 0x00, respLen := some k, rxBuf := s.res.rxBuf.writeBytes 0 data,
                          sw1 := some a, sw2 := some b }
      port := s.port.after (.recv 2 (some [a, b])) } := by
  have received : s.recvAnswer 2 = some [a, b] := State.recvAnswer_ok 2 ok
  have bounded : 0 + data.length ≤ s.cfg.rxMax := by rwa [Nat.zero_add, Memory.readBytes_length read]
  simp only [exec, execApduExchange, st, apSw, received, apCommit, State.afterRecv, count, read, need_some, memWrite,
    if_pos bounded, succeed]
  rfl

/-- Settles O33: the two lengths alone pick the outcome. -/
theorem bidirectionalCheckStep : Obligations.BidirectionalCheckStep := by
  intro s tx rx st txLen rxLen
  have step := exec_apduExchange_apCheck st txLen rxLen
  exact ⟨fun both => step.trans (if_pos both), fun notBoth => step.trans (if_neg notBoth)⟩

/-- Settles O34: the five bytes read are the header, and the answer of its one `Send` picks the next state. -/
theorem headerStep : Obligations.HeaderStep := by
  intro s cla ins p1 p2 p3 st hCla hIns hP1 hP2 hP3
  have read : s.req.txBuf.readBytes 0 5 = some [cla, ins, p1, p2, p3] := by
    simp only [Memory.readBytes, Nat.zero_add, Nat.reduceAdd, hCla, hIns, hP1, hP2, hP3]
  exact ⟨fun _ ok => exec_apduExchange_apHdr_of_ok st read ok, exec_apduExchange_apHdr_of_err st read⟩

/-- Settles O35: the one `Recv(1)` yields no byte or a byte, and a byte does what its class says. -/
theorem procedureByteStep : Obligations.ProcedureByteStep := by
  intro s ins tx rx st read txLen rxLen
  refine ⟨fun err => exec_apduExchange_apProc_of_noByte st (State.recvAnswer_err 1 err) nofun,
    fun empty => exec_apduExchange_apProc_of_noByte st (State.recvAnswer_ok 1 empty) nofun, fun b more ok => ?_⟩
  have step := exec_apduExchange_apProc_of_byte st read ok
  refine ⟨?null, ?ack, ?sw1, ?invalid⟩
  case null =>
    rintro rfl
    exact step.trans (procedureByte_null (s := s.afterByte 0x60) st ins)
  case ack =>
    rintro notNull rfl
    exact step.trans (procedureByte_ack (s := s.afterByte b) st notNull)
  case sw1 =>
    intro notNull notAck sw1
    have step := (step.trans (procedureByte_sw1 (s := s.afterByte b) st notNull notAck sw1)).trans
      (sw1Byte_of_lengths (s := s.afterByte b) txLen rxLen b)
    exact ⟨fun ⟨noTx, noRx⟩ => step.trans (if_neg (not_or.2 ⟨not_not.2 noRx, noTx.not_gt⟩)),
      fun data => step.trans (if_pos (data.symm.imp_left Nat.pos_iff_ne_zero.1))⟩
  case invalid =>
    intro notAck notSix notNine
    exact step.trans (procedureByte_invalid (s := s.afterByte b) st notAck notSix notNine)

/-! ## The run of an acknowledged read -/

theorem Memory.readBytes_writeBytes (m : Memory) (i : Nat) (bs : List Byte) :
    (m.writeBytes i bs).readBytes i bs.length = some bs := by
  refine Memory.readBytes_eq_some.2 ⟨rfl, fun j lt => ?_⟩
  rw [Memory.read_writeBytes, if_pos (by omega), Nat.add_sub_cancel_left]

theorem run_succ_of_next {M : Host.Core} {s u : M.State} (n : Nat) (next : M.step s = .next u) :
    M.run (n + 1) s = M.run n u := by
  rw [Host.Core.run, next]

/-- With no host action pending, a run goes on from the exchange's own step. -/
theorem run_apduExchange {s u : State} (n : Nat) (pending : s.host.pending = [])
    (own : s.st.operation = some .apduExchange) (next : exec .apduExchange s = .next u) :
    core.run (n + 1) s = core.run n u := by
  refine run_succ_of_next (M := core) n ((step_noAction pending).trans ?_)
  rw [engineStep, own]
  exact next

/-- The header phase of a command without outgoing data: its check and its one `Send`. -/
theorem run_header {s : State} {rx : Nat} {header x : List Byte} (n : Nat) (st : s.st = .apCheck)
    (pending : s.host.pending = []) (txLen : s.req.txLen = some 5) (rxLen : s.req.rxLen = some rx)
    (read : s.req.txBuf.readBytes 0 5 = some header) (ok : s.answer = .ok x) :
    core.run (n + 2) s = core.run n { s with st := .apProc, port := s.port.after (.send header true) } := by
  have check : exec .apduExchange s = .next (s.goto .apHdr) :=
    (exec_apduExchange_apCheck st txLen rxLen).trans (if_neg (by omega))
  calc core.run (n + 2) s
    _ = core.run (n + 1) (s.goto .apHdr) := run_apduExchange _ pending (congrArg St.operation st) check
    _ = core.run n _ := run_apduExchange (s := s.goto .apHdr) _ pending rfl (exec_apduExchange_apHdr_of_ok rfl read ok)

/-- The NULL loop (R184): each NULL byte takes one step and one answer, and leaves its event. -/
theorem run_nulls {s : State} {ins : Byte} {rest : List TransportAnswer} (k n : Nat) (st : s.st = .apProc)
    (pending : s.host.pending = []) (read : s.req.txBuf.read 1 = some ins)
    (answers : s.port.answers = List.replicate k (.ok [0x60]) ++ rest) :
    core.run (n + k) s = core.run n { s with
      port := { answers := rest, calls := s.port.calls + k,
                trace := s.port.trace ++ List.replicate k (.recv 1 (some [0x60])) } } := by
  induction k generalizing s with
  | zero =>
    obtain rfl : s.port.answers = rest := answers
    simp only [List.replicate_zero, List.append_nil, Nat.add_zero]
  | succ k ih =>
    have cons : s.port.answers = .ok [0x60] :: (List.replicate k (.ok [0x60]) ++ rest) := answers
    have next := (exec_apduExchange_apProc_of_byte st read (State.answer_cons cons)).trans
      (procedureByte_null (s := s.afterByte 0x60) st ins)
    rw [← Nat.add_assoc, run_apduExchange _ pending (congrArg St.operation st) next,
      ih (s := s.afterByte 0x60) st pending read (congrArg List.tail cons)]
    simp only [State.afterByte, Port.after, List.replicate_succ, List.append_assoc, List.singleton_append, Nat.add_assoc,
      Nat.add_comm 1 k]

/-- The end of an acknowledged read: the ACK byte, the data phase and the commit. -/
theorem run_acknowledgedRead {s : State} {n : Nat} {ins sw1 sw2 : Byte} {data : List Byte}
    {rest : List TransportAnswer} (st : s.st = .apProc) (pending : s.host.pending = [])
    (read : s.req.txBuf.read 1 = some ins) (notNull : ins ≠ 0x60#8) (txLen : s.req.txLen = some 5)
    (rxLen : s.req.rxLen = some n) (response : 0 < n) (fits : n ≤ s.cfg.rxMax) (short : data.length ≤ n)
    (answers : s.port.answers = .ok [ins] :: .ok data :: .ok [sw1, sw2] :: rest) :
    core.run 3 s = .next { s with
      st := .done
      res := { s.res with err := some 0x00, respLen := some data.length, rxBuf := s.res.rxBuf.writeBytes 0 data,
                          sw1 := some sw1, sw2 := some sw2 }
      work := { s.work with pb := some ins, k := some data.length, dataTmp := s.work.dataTmp.writeBytes 0 data }
      port := ((s.port.after (.recv 1 (some [ins]))).after (.recv n (some data))).after (.recv 2 (some [sw1, sw2])) } := by
  have ack := (exec_apduExchange_apProc_of_byte st read (State.answer_cons answers)).trans
    (procedureByte_ack (s := s.afterByte ins) st notNull)
  have afterAck : (s.afterByte ins).port.answers = .ok data :: .ok [sw1, sw2] :: rest := congrArg List.tail answers
  have received : (s.afterByte ins).recvAnswer n = some data := by
    rw [State.recvAnswer_ok n (State.answer_cons afterAck), List.take_of_length_le short]
  calc core.run 3 s
    _ = core.run 2 _ := run_apduExchange _ pending (congrArg St.operation st) ack
    _ = core.run 1 _ := run_apduExchange _ pending rfl
        (exec_apduExchange_apAck_of_response rfl txLen rxLen le_rfl response received (short.trans fits))
    _ = core.run 0 _ := run_apduExchange _ pending rfl
        (exec_apduExchange_apSw_of_word rfl rfl (Memory.readBytes_writeBytes _ 0 data) (short.trans fits)
          (State.answer_cons (congrArg List.tail afterAck)))

/-- Settles O40: the header phase, the NULL loop and the acknowledged read follow each other. -/
theorem acknowledgedReadReturnsData : Obligations.AcknowledgedReadReturnsData := by
  intro s k n cla ins p1 p2 p3 sw1 sw2 x data rest header nulls last nullEvents lastEvents st pending txLen read rxLen
    response fits notNull short answers
  have readIns : s.req.txBuf.read 1 = some ins := (Memory.readBytes_eq_some.1 read).2 1 (by decide)
  have afterHeader : (s.port.after (.send header true)).answers = nulls ++ (last ++ rest) := congrArg List.tail answers
  have run := calc core.run (5 + k) s
    _ = core.run (3 + k + 2) s := by rw [Nat.add_right_comm]
    _ = core.run (3 + k) _ := run_header _ st pending txLen rxLen read (State.answer_cons answers)
    _ = core.run 3 _ := run_nulls k 3 rfl pending readIns afterHeader
    _ = .next _ := run_acknowledgedRead rfl pending readIns notNull txLen rxLen response fits short rfl
  refine ⟨_, run, rfl, rfl, rfl, fun j lt => ?rxBuf, rfl, rfl, rfl, ?trace⟩
  case rxBuf =>
    exact (Memory.read_writeBytes _ 0 j data).trans (if_pos (by omega))
  case trace =>
    simp [nullEvents, lastEvents]

end Sys2Proof.Machine
end

section
/-! The invariant of the engine (R41, R42, R61, R96). It is taken apart into the registers' own ranges, the results and the
state's own premise; a step ends the operation, or moves on within it, or starts one, and each is one lemma. -/

namespace Sys2Proof.Machine

/-! ## The parts of the invariant -/

/-- The ranges of the request registers (R27, R61). -/
structure Request.Wf (c : Config) (q : Request) : Prop where
  atrBuf : Memory.wf c.atrMax q.atrBuf = true
  txBuf : Memory.wf c.txMax q.txBuf = true
  inFi : c.fitsReg q.inFi = true
  inDi : c.fitsReg q.inDi = true
  inFmax : c.fitsReg q.inFmax = true

/-- The ranges of the result registers (R35, R61). -/
structure Results.Wf (c : Config) (r : Results) : Prop where
  rxBuf : Memory.wf c.rxMax r.rxBuf = true
  outFi : c.fitsReg r.outFi = true
  outDi : c.fitsReg r.outDi = true
  outFmax : c.fitsReg r.outFmax = true

/-- The ranges of the internal registers (R61). -/
structure Working.Wf (c : Config) (w : Working) : Prop where
  ppsReq : Memory.wf 4 w.ppsReq = true
  ppsRsp : Memory.wf 4 w.ppsRsp = true
  dataTmp : Memory.wf c.rxMax w.dataTmp = true

/-- Internal registers that hold just the PPS request frame for `p` (R161). -/
def Working.framing (p : Byte) : Working := { Working.unwritten with ppsReq := Memory.ofBytes (ppsFrameBytes p) }

/-- Internal registers that hold just a procedure byte (R185, R186). -/
def Working.holding (pb : Byte) : Working := { Working.unwritten with pb := some pb }

/-- What the state `x` relies on, of the request registers of `s` and the internal registers `w` (R42). -/
def State.Premise (s : State) (w : Working) : St → Prop
  | .idle => w = Working.unwritten
  | .done => True
  | .dec => failedCheck .decode s = none ∧ w = Working.unwritten
  | .enc => failedCheck .encode s = none ∧ w = Working.unwritten
  | .atr => failedCheck .parseAtr s = none ∧ w = Working.unwritten
  | .ppsSend | .ppsRecv => ∃ p, s.req.pps1 = some p ∧ w = Working.framing p
  | .ppsCheck => ∃ p rsp, s.req.pps1 = some p ∧ w = { Working.framing p with ppsRsp := rsp } ∧ Memory.holds 4 rsp = true
  | .apCheck => failedCheck .apduExchange s = none ∧ w = Working.unwritten
  | .apHdr | .apProc => s.apduRequest = true ∧ w = Working.unwritten
  | .apAck => s.apduRequest = true ∧ ∃ pb, w = Working.holding pb
  | .apSw => s.apduRequest = true ∧ ∃ pb n rx m, w = { Working.holding pb with k := some n, dataTmp := m } ∧
      s.req.rxLen = some rx ∧ Memory.holds n m = true ∧ n ≤ rx
  | .apSw2 => s.apduRequest = true ∧ (∃ pb, w = Working.holding pb) ∧ s.req.txLen = some 5 ∧ s.req.rxLen = some 0

theorem State.ppsFraming_iff {s : State} :
    s.ppsFraming = true ↔ ∃ p, s.req.pps1 = some p ∧ s.work = Working.framing p := by
  unfold State.ppsFraming
  cases s.req.pps1 <;> simp [Working.framing]

theorem Working.isHolding_iff {w : Working} :
    w.pb.isSome = true ∧ w = { Working.unwritten with pb := w.pb } ↔ ∃ pb, w = Working.holding pb := by
  constructor
  · rintro ⟨isSome, eq⟩
    obtain ⟨pb, eq'⟩ := Option.isSome_iff_exists.1 isSome
    exact ⟨pb, eq.trans (by rw [eq', Working.holding])⟩
  · rintro ⟨pb, rfl⟩
    exact ⟨rfl, rfl⟩

theorem State.flightValid_iff {s : State} : s.flightValid = true ↔ s.Premise s.work s.st := by
  unfold State.flightValid
  cases st : s.st <;>
    simp only [State.Premise, Bool.and_eq_true, beq_iff_eq, Option.isNone_iff_eq_none, State.ppsFraming_iff,
      and_assoc, Working.isHolding_iff]
  case ppsCheck =>
    constructor
    · rintro ⟨⟨p, pps1, frame⟩, holds⟩
      refine ⟨p, s.work.ppsRsp, pps1, ?_, holds⟩
      rw [← frame]
    · rintro ⟨p, rsp, pps1, frame, holds⟩
      rw [frame]
      exact ⟨⟨p, pps1, rfl⟩, holds⟩
  case apSw =>
    refine and_congr_right fun _ => ?_
    constructor
    · rintro ⟨pb, frame, data⟩
      obtain ⟨pb, pbEq⟩ := Option.isSome_iff_exists.1 pb
      split at data
      · next n rx count rxLen =>
        obtain ⟨holds, le⟩ : Memory.holds n s.work.dataTmp = true ∧ n ≤ rx := by simpa using data
        exact ⟨pb, n, rx, s.work.dataTmp, frame.trans (by rw [pbEq, count, Working.holding]), rxLen, holds, le⟩
      · cases data
    · rintro ⟨pb, n, rx, m, frame, rxLen, holds, le⟩
      rw [frame, rxLen]
      simp [Working.holding, holds, le]
/-- The invariant `State.inv`, register file by register file. -/
structure State.Inv (s : State) : Prop where
  req : s.req.Wf s.cfg
  res : s.res.Wf s.cfg
  work : s.work.Wf s.cfg
  results : s.resultsValid = true
  premise : s.Premise s.work s.st

theorem State.inv_iff {s : State} : s.inv = true ↔ s.Inv := by
  simp only [State.inv, State.buffersWf, State.integersWf, State.flightValid_iff, Bool.and_eq_true, and_assoc]
  constructor
  · rintro ⟨atrBuf, txBuf, rxBuf, ppsReq, ppsRsp, dataTmp, inFi, inDi, inFmax, outFi, outDi, outFmax, results, premise⟩
    exact ⟨⟨atrBuf, txBuf, inFi, inDi, inFmax⟩, ⟨rxBuf, outFi, outDi, outFmax⟩, ⟨ppsReq, ppsRsp, dataTmp⟩, results,
      premise⟩
  · rintro ⟨⟨atrBuf, txBuf, inFi, inDi, inFmax⟩, ⟨rxBuf, outFi, outDi, outFmax⟩, ⟨ppsReq, ppsRsp, dataTmp⟩, results,
      premise⟩
    exact ⟨atrBuf, txBuf, rxBuf, ppsReq, ppsRsp, dataTmp, inFi, inDi, inFmax, outFi, outDi, outFmax, results, premise⟩

theorem Request.wf_unwritten (c : Config) : Request.unwritten.Wf c := ⟨rfl, rfl, rfl, rfl, rfl⟩

theorem Results.wf_unwritten (c : Config) : Results.unwritten.Wf c := ⟨rfl, rfl, rfl, rfl⟩

theorem Working.wf_unwritten (c : Config) : Working.unwritten.Wf c := ⟨rfl, rfl, rfl⟩

/-! ## The results -/

/-- Until its operation has ended, a state has no results (R25, R41). -/
theorem State.resultsValid_iff_of_busy {s : State} (busy : s.busy = true) :
    s.resultsValid = true ↔ s.res = Results.unwritten := by
  unfold State.resultsValid
  split
  · next done => simp [State.busy, done, St.busy] at busy
  · exact beq_iff_eq

theorem State.Inv.res_eq {s : State} (inv : s.Inv) (busy : s.busy = true) : s.res = Results.unwritten :=
  (State.resultsValid_iff_of_busy busy).1 inv.results

/-- The results of an operation that has ended with success (R41). -/
def Results.OfSuccess (rxMax : Nat) (r : Results) : Prop :=
  r.onlyErr = true ∨ r.ofDecode = true ∨ r.ofEncode = true ∨ r.ofParseAtr = true ∨ r.ofApdu rxMax = true

/-- A failure's code is legal (R240), and not that of success. -/
theorem FailKind.code_legal (k : FailKind) : k.code ≠ 0x00#8 ∧ k.code.toNat ≤ 0x10 := by
  cases k <;> decide

theorem State.resultsValid_fail {s : State} (k : FailKind) (res : s.res = Results.unwritten) :
    (s.fail k).resultsValid = true := by
  obtain ⟨notZero, legal⟩ := k.code_legal
  simp [State.resultsValid, res, notZero, legal, Results.onlyErr]

theorem State.resultsValid_commit {s : State} {r : Results}
    (ends : { r with err := some 0x00 }.OfSuccess s.cfg.rxMax) : (s.commit r).resultsValid = true := by
  simpa [Results.OfSuccess, State.resultsValid, or_assoc] using ends

theorem Convention.code_ne_three (c : Convention) : c.code ≠ 3#2 := by
  cases c <;> decide

/-! ## The three ways an instruction changes the state -/

/-- A busy operation that fails keeps the invariant. -/
theorem State.Inv.fail {s : State} (inv : s.Inv) (busy : s.busy = true) (k : FailKind) : (s.fail k).Inv where
  req := inv.req
  res := ⟨inv.res.rxBuf, inv.res.outFi, inv.res.outDi, inv.res.outFmax⟩
  work := inv.work
  results := State.resultsValid_fail k (inv.res_eq busy)
  premise := trivial

/-- An operation that succeeds with results of its own kind keeps the invariant. -/
theorem State.Inv.commit {s : State} (inv : s.Inv) {r : Results} (range : r.Wf s.cfg)
    (ends : { r with err := some 0x00 }.OfSuccess s.cfg.rxMax) : (s.commit r).Inv where
  req := inv.req
  res := ⟨range.rxBuf, range.outFi, range.outDi, range.outFmax⟩
  work := inv.work
  results := State.resultsValid_commit ends
  premise := trivial

/-- An operation that goes on to a busy state, whose premise its internal registers meet, keeps the invariant. -/
theorem State.Inv.move {s : State} (inv : s.Inv) (busy : s.busy = true) (x : St) (w : Working) (going : x.busy = true)
    (range : w.Wf s.cfg) (premise : s.Premise w x) : ((s.goto x).setWork w).Inv where
  req := inv.req
  res := inv.res
  work := range
  results := (State.resultsValid_iff_of_busy (s := (s.goto x).setWork w) going).2 (inv.res_eq busy)
  premise := premise

/-- The start of an operation, whose premise its first internal registers meet, keeps the invariant. -/
theorem State.Inv.start {s : State} (inv : s.Inv) (x : St) (w : Working) (going : x.busy = true) (range : w.Wf s.cfg)
    (premise : s.Premise w x) : ((s.issue x).setWork w).Inv where
  req := inv.req
  res := Results.wf_unwritten _
  work := range
  results := (State.resultsValid_iff_of_busy (s := (s.issue x).setWork w) going).2 rfl
  premise := premise

/-! A Transport call changes the port alone, of which the invariant does not speak. -/

theorem State.Inv.afterSend {s : State} (inv : s.Inv) (bs : List Byte) : (s.afterSend bs).Inv :=
  ⟨inv.req, inv.res, inv.work, inv.results, inv.premise⟩

theorem State.Inv.afterRecv {s : State} (inv : s.Inv) (n : Nat) : (s.afterRecv n).Inv :=
  ⟨inv.req, inv.res, inv.work, inv.results, inv.premise⟩

/-! ## What the states of an exchange rely on -/

/-- The request of an exchange that the two checks have admitted (R96, R182). -/
theorem State.apduRequest_iff {s : State} : s.apduRequest = true ↔
    failedCheck .apduExchange s = none ∧
      ∃ tx rx, s.req.txLen = some tx ∧ s.req.rxLen = some rx ∧ (tx ≤ 5 ∨ rx = 0) := by
  unfold State.apduRequest
  cases s.req.txLen <;> cases s.req.rxLen <;> simp

theorem wfApduHdr_iff {s : State} : wfApduHdr s = true ↔ ∃ tx, s.req.txLen = some tx ∧ 5 ≤ tx := by
  unfold wfApduHdr
  cases s.req.txLen <;> simp

theorem wfApduLen_iff {s : State} : wfApduLen s = true ↔
    ∃ tx rx, s.req.txLen = some tx ∧ s.req.rxLen = some rx ∧ tx ≤ s.cfg.txMax ∧ rx ≤ s.cfg.rxMax := by
  unfold wfApduLen
  cases s.req.txLen <;> cases s.req.rxLen <;> simp

theorem wfApduBuf_iff {s : State} : wfApduBuf s = true ↔
    ∃ tx, s.req.txLen = some tx ∧ (s.req.txBuf.readBytes 0 tx).isSome = true := by
  unfold wfApduBuf
  cases s.req.txLen <;> simp

theorem failedCheck_apduExchange_eq_none {s : State} : failedCheck .apduExchange s = none ↔
    wfApduHdr s = true ∧ wfApduLen s = true ∧ wfApduBuf s = true := by
  unfold failedCheck
  cases wfApduHdr s <;> cases wfApduLen s <;> cases wfApduBuf s <;> simp

theorem State.Inv.premise_of_st {s : State} {x : St} (inv : s.Inv) (st : s.st = x) : s.Premise s.work x :=
  st ▸ inv.premise

/-- R186: a status word without a data phase stands after a request of five bytes. -/
theorem State.Premise.afterSw1 {s : State} {tx : Nat} (proc : s.Premise s.work .apProc) (rxLen : s.req.rxLen = some 0)
    (txLen : s.req.txLen = some tx) (le : tx ≤ 5) (pb : Byte) : s.Premise { s.work with pb := some pb } .apSw2 := by
  obtain ⟨request, unwritten⟩ := proc
  obtain ⟨checked, -⟩ := State.apduRequest_iff.1 request
  obtain ⟨tx', txLen', ge⟩ := wfApduHdr_iff.1 (failedCheck_apduExchange_eq_none.1 checked).1
  obtain rfl : tx = tx' := Option.some.inj (txLen.symm.trans txLen')
  obtain rfl : tx = 5 := le.antisymm ge
  exact ⟨request, ⟨pb, by rw [unwritten, Working.holding]⟩, txLen, rxLen⟩

/-- R188: after a data phase that receives nothing, no byte is kept. -/
theorem State.Premise.afterNoData {s : State} (ack : s.Premise s.work .apAck) :
    s.Premise { s.work with k := some 0 } .apSw := by
  obtain ⟨request, pb, held⟩ := ack
  obtain ⟨-, -, rx, -, rxLen, -⟩ := State.apduRequest_iff.1 request
  exact ⟨request, pb, 0, rx, [], by rw [held]; rfl, rxLen, rfl, Nat.zero_le rx⟩

/-- R188, R194: after a response, exactly its bytes are kept, at most `RX_LEN` of them. -/
theorem State.Premise.afterResponse {s : State} {rx : Nat} {r : List Byte} (ack : s.Premise s.work .apAck)
    (rxLen : s.req.rxLen = some rx) (le : r.length ≤ rx) :
    s.Premise { s.work with k := some r.length, dataTmp := s.work.dataTmp.writeBytes 0 r } .apSw := by
  obtain ⟨request, pb, held⟩ := ack
  exact ⟨request, pb, r.length, rx, Memory.ofBytes r, by rw [held]; rfl, rxLen, Memory.holds_ofBytes r, le⟩

/-! ## Every step keeps the invariant -/

theorem Effect.inv {s t : State} (effect : Effect s t) (inv : s.Inv) (busy : s.busy = true) : t.Inv := by
  have res := inv.res_eq busy
  have wf := inv.work
  have proc {u : State} (st : s.st = .apProc) (from' : u = s ∨ u = s.afterRecv 1) :
      u.Inv ∧ u.busy = true ∧ u.Premise u.work .apProc := by
    obtain rfl | rfl := from'
    · exact ⟨inv, busy, inv.premise_of_st st⟩
    · exact ⟨inv.afterRecv 1, busy, inv.premise_of_st st⟩
  cases effect with
  | decFail k | encFail k => exact inv.fail busy k
  | atrFail | ppsMismatch | apBidirectional => exact inv.fail busy _
  | ppsUnsent frame | apHeaderUnsent frame | dataUnsent _ frame => exact (inv.afterSend frame).fail busy _
  | ppsNoResponse | pbMissing | dataUnreceived _ | statusMissing _ => exact (inv.afterRecv _).fail busy _
  | decOk fi m di =>
    refine inv.commit ⟨inv.res.rxBuf, s.fits_zext fi, s.fits_zext di, s.fits_zext m⟩ (.inr (.inl ?_))
    simp [res, Results.ofDecode, Results.unwritten]
  | encOk i j =>
    refine inv.commit ⟨inv.res.rxBuf, inv.res.outFi, inv.res.outDi, inv.res.outFmax⟩ (.inr (.inr (.inl ?_)))
    simp [res, Results.ofEncode, Results.unwritten]
  | atrWithout c | atrWith c b =>
    refine inv.commit ⟨inv.res.rxBuf, inv.res.outFi, inv.res.outDi, inv.res.outFmax⟩ (.inr (.inr (.inr (.inl ?_))))
    simp [res, Results.ofParseAtr, Results.unwritten, c.code_ne_three]
  | ppsMatch =>
    refine inv.commit inv.res (.inl ?_)
    simp [res, Results.onlyErr, Results.unwritten]
  | statusWord a b k data st count read fits =>
    have length := Memory.readBytes_length read
    have holds : Memory.holds k (Memory.ofBytes data) = true := length ▸ Memory.holds_ofBytes data
    refine (inv.afterRecv 2).commit
      ⟨Memory.wf_writeBytes (by simpa [length] using fits) inv.res.rxBuf, inv.res.outFi, inv.res.outDi, inv.res.outFmax⟩
      (.inr (.inr (.inr (.inr ?_))))
    simpa [res, Results.ofApdu, Results.unwritten, fits, Memory.ofBytes] using holds
  | secondByte pb b =>
    refine (inv.afterRecv 1).commit ⟨inv.res.rxBuf, inv.res.outFi, inv.res.outDi, inv.res.outFmax⟩
      (.inr (.inr (.inr (.inr ?_))))
    simp [res, Results.ofApdu, Results.unwritten, Memory.holds]
  | ppsSent frame st => exact (inv.afterSend frame).move busy .ppsRecv s.work rfl wf (inv.premise_of_st st)
  | ppsReceived r st length =>
    obtain ⟨p, pps1, frame⟩ := inv.premise_of_st st
    refine (inv.afterRecv 4).move busy .ppsCheck _ rfl ⟨wf.ppsReq, Memory.wf_ofBytes length.le, wf.dataTmp⟩ ?_
    exact ⟨p, Memory.ofBytes r, pps1, by rw [frame], length ▸ Memory.holds_ofBytes r⟩
  | apChecked st lengths =>
    obtain ⟨checked, unwritten⟩ := inv.premise_of_st st
    exact inv.move busy .apHdr s.work rfl wf ⟨State.apduRequest_iff.2 ⟨checked, lengths⟩, unwritten⟩
  | apHeaderSent header st => exact (inv.afterSend header).move busy .apProc s.work rfl wf (inv.premise_of_st st)
  | pbNull u st from' => exact (proc st from').1
  | pbAck u b st from' =>
    obtain ⟨inv, busy, request, unwritten⟩ := proc st from'
    refine inv.move busy .apAck _ rfl ⟨inv.work.ppsReq, inv.work.ppsRsp, inv.work.dataTmp⟩ ⟨request, b, ?_⟩
    rw [unwritten, Working.holding]
  | pbFail u k st from' =>
    obtain ⟨inv, busy, -⟩ := proc st from'
    exact inv.fail busy k
  | pbSw1 u b st from' noData =>
    obtain ⟨rxLen, tx, txLen, le⟩ := noData
    have req : u.req = s.req := by obtain rfl | rfl := from' <;> rfl
    obtain ⟨inv, busy, premise⟩ := proc st from'
    exact inv.move busy .apSw2 _ rfl ⟨inv.work.ppsReq, inv.work.ppsRsp, inv.work.dataTmp⟩
      (premise.afterSw1 (req ▸ rxLen) (req ▸ txLen) le b)
  | dataSent tx data st =>
    exact (inv.afterSend data).move busy .apSw _ rfl ⟨wf.ppsReq, wf.ppsRsp, wf.dataTmp⟩ (inv.premise_of_st st).afterNoData
  | noData st => exact inv.move busy .apSw _ rfl ⟨wf.ppsReq, wf.ppsRsp, wf.dataTmp⟩ (inv.premise_of_st st).afterNoData
  | dataReceived tx rx r st txLen none rxLen some' answer fits =>
    have inRange : 0 + r.length ≤ s.cfg.rxMax := by rwa [Nat.zero_add]
    exact (inv.afterRecv rx).move busy .apSw _ rfl ⟨wf.ppsReq, wf.ppsRsp, Memory.wf_writeBytes inRange wf.dataTmp⟩
      ((inv.premise_of_st st).afterResponse rxLen (State.recvAnswer_length answer))

theorem St.first_iff {x : St} : x.first = true ↔ x = .dec ∨ x = .enc ∨ x = .atr ∨ x = .ppsSend ∨ x = .apCheck := by
  cases x <;> simp [St.first]

theorem Issue.inv {i : Instr} {s t : State} (issue : Issue i s t) (inv : s.Inv) : t.Inv := by
  have unwritten := Working.wf_unwritten s.cfg
  cases issue with
  | plain x first own notPps checked =>
    obtain rfl | rfl | rfl | rfl | rfl := St.first_iff.1 first <;> obtain rfl := Option.some.inj own
    · exact inv.start .dec _ rfl unwritten ⟨checked, rfl⟩
    · exact inv.start .enc _ rfl unwritten ⟨checked, rfl⟩
    · exact inv.start .atr _ rfl unwritten ⟨checked, rfl⟩
    · exact absurd rfl notPps
    · exact inv.start .apCheck _ rfl unwritten ⟨checked, rfl⟩
  | pps p isPps pps1 =>
    exact inv.start .ppsSend (Working.framing p) rfl ⟨Memory.wf_ofBytes (Nat.le_refl 4), rfl, rfl⟩
      ⟨p, pps1, rfl⟩

/-- A host write of request registers within their ranges: a state that is not busy relies on none of them. -/
theorem State.Inv.setReq {s : State} (inv : s.Inv) (idle : s.busy = false) {q : Request} (range : q.Wf s.cfg) :
    (s.setReq q).Inv where
  req := range
  res := inv.res
  work := inv.work
  results := inv.results
  premise := by
    change (s.setReq q).Premise s.work s.st
    obtain st | st := State.st_of_notBusy idle <;> rw [st] <;> exact inv.premise_of_st st

theorem State.Inv.powerOn (s : State) : s.powerOn.Inv :=
  ⟨Request.wf_unwritten _, Results.wf_unwritten _, Working.wf_unwritten _, rfl, rfl⟩

theorem State.Inv.reply {s : State} (inv : s.Inv) (a : HostAction) (r : HostReply) : (s.reply a r).Inv :=
  ⟨inv.req, inv.res, inv.work, inv.results, inv.premise⟩

theorem Memory.wf_of_write {capacity : Nat} {m m' : Memory} (wf : Memory.wf capacity m = true)
    (write : m' = m ∨ ∃ i bs, i + bs.length ≤ capacity ∧ m' = m.writeBytes i bs) : Memory.wf capacity m' = true := by
  obtain rfl | ⟨i, bs, inRange, rfl⟩ := write
  · exact wf
  · exact Memory.wf_writeBytes inRange wf

theorem Config.fitsReg_of_write {c : Config} {o o' : Option Word} (fits : c.fitsReg o = true)
    (write : o' = o ∨ c.fitsReg o' = true) : c.fitsReg o' = true :=
  write.elim (fun kept => kept ▸ fits) id

theorem HostEffect.inv {a : HostAction} {s t : State} (effect : HostEffect a s t) (inv : s.Inv) : t.Inv := by
  cases effect with
  | answered r => exact inv.reply a r
  | stored q idle isWrite atr tx fi di fmax =>
    have range : q.Wf s.cfg :=
      { atrBuf := Memory.wf_of_write inv.req.atrBuf atr
        txBuf := Memory.wf_of_write inv.req.txBuf tx
        inFi := Config.fitsReg_of_write inv.req.inFi fi
        inDi := Config.fitsReg_of_write inv.req.inDi di
        inFmax := Config.fitsReg_of_write inv.req.inFmax fmax }
    exact (inv.setReq idle range).reply a .accepted
  | issued c i u idle isCmd decoded issue => exact ((issue_of_exec idle issue).inv inv).reply a .accepted
  | reset => exact (State.Inv.powerOn s).reply a .accepted

theorem engineStep_inv {s t : State} (inv : s.inv = true) (h : engineStep s = .next t) : t.inv = true := by
  obtain ⟨-, rfl⟩ | ⟨busy, effect⟩ := engineStep_eq_next h
  · exact inv
  · exact State.inv_iff.2 (effect.inv (State.inv_iff.1 inv) busy)

theorem hostAct_inv {a : HostAction} {s t : State} (inv : s.inv = true) (h : hostAct a s = .next t) : t.inv = true :=
  State.inv_iff.2 ((hostEffect_of_hostAct h).inv (State.inv_iff.1 inv))

/-- Settles O46: the engine's step and each host action keep the invariant, and taking a turn or an action off the list
does not touch it. -/
theorem stepKeepsInvariant : Obligations.StepKeepsInvariant := by
  intro s t inv h
  obtain ⟨u, from', engine⟩ | ⟨a, rest, u, -, from', host⟩ := step_cases s
  · have invU : u.inv = true := by obtain rfl | rfl := from' <;> exact inv
    exact engineStep_inv invU (engine.symm.trans h)
  · have invU : (u.nextAction rest).inv = true := by obtain ⟨-, rfl⟩ | ⟨-, -, -, rfl⟩ := from' <;> exact inv
    exact hostAct_inv invU (host.symm.trans h)

/-- Settles O45: every register is unwritten, and no operation is in flight. -/
theorem invariantHoldsAtReset : Obligations.InvariantHoldsAtReset :=
  fun c => State.inv_iff.2 ⟨Request.wf_unwritten c, Results.wf_unwritten c, Working.wf_unwritten c, rfl, rfl⟩

end Sys2Proof.Machine
end

section
/-! The encodings (30_encoding.md): a byte of each format is taken apart and put together again, and so encoder and decoder
are inverse to each other. -/

namespace Sys2Proof

/-! ## The parts of a byte -/

theorem joinNibbles_eq_append (h l : Nibble) : joinNibbles h l = h ++ l := by
  rw [joinNibbles, ← BitVec.setWidth_append_eq_shiftLeft_setWidth_or]
  exact BitVec.setWidth_eq _

@[simp] theorem hiNibble_joinNibbles (h l : Nibble) : hiNibble (joinNibbles h l) = h := by
  rw [joinNibbles_eq_append]
  exact BitVec.extractLsb'_append_eq_left

@[simp] theorem loNibble_joinNibbles (h l : Nibble) : loNibble (joinNibbles h l) = l := by
  rw [joinNibbles_eq_append]
  exact BitVec.extractLsb'_append_eq_right

theorem t0DeclaresTa1_eq_getLsbD (t0 : Byte) : t0DeclaresTa1 t0 = t0.getLsbD 4 := by
  change (t0 &&& BitVec.twoPow 8 4 != 0#8) = t0.getLsbD 4
  rw [BitVec.and_twoPow]
  cases t0.getLsbD 4 <;> rfl

/-- A T0 byte is its three high bits, its bit 4 and its low nibble (R86). -/
theorem append_t0Parts (t0 : Byte) : t0.extractLsb' 5 3 ++ BitVec.ofBool (t0DeclaresTa1 t0) ++ loNibble t0 = t0 := by
  have bit : BitVec.ofBool (t0DeclaresTa1 t0) = t0.extractLsb' 4 1 := by
    rw [t0DeclaresTa1_eq_getLsbD]
    ext i lt
    obtain rfl : i = 0 := by omega
    simp
  have high : t0.extractLsb' 5 3 ++ t0.extractLsb' 4 1 = t0.extractLsb' 4 4 :=
    BitVec.extractLsb'_append_extractLsb'_eq_extractLsb' rfl
  rw [bit, high]
  exact BitVec.extractLsb'_append_extractLsb' (len := 4)

@[simp] theorem t0DeclaresTa1_append (hi : BitVec 3) (b : BitVec 1) (lo : Nibble) :
    t0DeclaresTa1 (hi ++ b ++ lo) = b.getLsbD 0 := by
  rw [t0DeclaresTa1_eq_getLsbD, BitVec.getLsbD_append, if_neg (by decide), BitVec.getLsbD_append, if_pos (by decide)]

/-! ## The instruction of a byte -/

theorem t0Instr_append (hi : BitVec 3) (b : Bool) (lo : Nibble) :
    t0Instr (hi ++ BitVec.ofBool b ++ lo) = if b then .t0Ta1Present hi lo else .t0Ta1Absent hi lo := by
  have hiEq : (hi ++ BitVec.ofBool b ++ lo).extractLsb' 5 3 = hi := by
    rw [BitVec.extractLsb'_append_eq_of_le (by decide)]
    exact BitVec.extractLsb'_append_eq_left
  have loEq : loNibble (hi ++ BitVec.ofBool b ++ lo) = lo := BitVec.extractLsb'_append_eq_right
  simp [t0Instr, hiEq, loEq]

/-! ## A byte is well-formed in its format and encodes to itself -/

/-- The instruction `i` of the format `c` is the byte `b`. -/
def Instr.Spells (c : Context) (i : Instr) (b : Byte) : Prop := Sys2Proof.encode i = [b] ∧ i.wfIn c = true

theorem commandOf_spells {c : Byte} {i : Instr} (h : commandOf c = some i) : i.Spells .hostCommand c := by
  unfold commandOf at h
  split_ifs at h with h1 h2 h3 h4 h5 <;> obtain rfl := Option.some.inj h <;> subst c <;> exact ⟨rfl, rfl⟩

theorem paramByte_spells (b : Byte) : (Instr.paramByte (hiNibble b) (loNibble b)).Spells .paramByte b :=
  ⟨congrArg (fun b => [b]) (Machine.joinNibbles_hiNibble_loNibble b), rfl⟩

theorem tsInstr_spells (ts : Byte) : (tsInstr ts).Spells .atrTs ts := by
  unfold tsInstr tsClass
  split_ifs with direct inverse
  · exact ⟨congrArg (fun b => [b]) direct.symm, rfl⟩
  · exact ⟨congrArg (fun b => [b]) inverse.symm, rfl⟩
  · exact ⟨rfl, by simp [Instr.wfIn, Instr.wf, Instr.fits, direct, inverse]⟩

theorem t0Instr_spells (t0 : Byte) : (t0Instr t0).Spells .atrT0 t0 := by
  have parts := append_t0Parts t0
  cases declares : t0DeclaresTa1 t0 <;> rw [declares] at parts <;> simp only [t0Instr, declares]
  · exact ⟨congrArg (fun b => [b]) parts, rfl⟩
  · exact ⟨congrArg (fun b => [b]) parts, rfl⟩

theorem pbInstr_spells (ins pb : Byte) : (pbInstr ins pb).Spells (.procedureByte ins) pb := by
  have parts := Machine.joinNibbles_hiNibble_loNibble pb
  unfold pbInstr pbClass
  split_ifs with null ack six nine
  · exact ⟨congrArg (fun b => [b]) null.symm, rfl⟩
  · exact ⟨rfl, by simp [Instr.wfIn, Instr.wf, Instr.fits, ← ack, null]⟩
  · rw [six] at parts
    have notNull : loNibble pb ≠ 0#4 := fun zero => null (by rw [← parts, zero]; rfl)
    exact ⟨congrArg (fun b => [b]) parts,
      by simp [Instr.wfIn, Instr.wf, Instr.fits, ← joinNibbles_eq_append, parts, ack, notNull]⟩
  · rw [nine] at parts
    exact ⟨congrArg (fun b => [b]) parts,
      by simp [Instr.wfIn, Instr.wf, Instr.fits, ← joinNibbles_eq_append, parts, ack]⟩
  · rw [hiNibble] at six nine
    exact ⟨rfl, by simp [Instr.wfIn, Instr.wf, Instr.fits, six, nine, ack]⟩

/-- Settles O3: the decoder reads one byte, or the four of a PPS frame, and those are what its instruction encodes to. -/
theorem encodeOfDecodeIsIdentity : Obligations.EncodeOfDecodeIsIdentity := by
  intro c bytes i rest h
  have ofByte {b : Byte} {i : Instr} (spells : i.Spells c b) (rest : List Byte) :
      i.wfIn c = true ∧ encode i ++ rest = b :: rest :=
    have ⟨bytes, wf⟩ := spells
    ⟨wf, by rw [bytes, List.singleton_append]⟩
  cases bytes with
  | nil => cases h
  | cons b tail =>
    cases c with
    | hostCommand =>
      simp only [decode] at h
      split at h
      · next command =>
        cases h
        exact ofByte (commandOf_spells command) rest
      · cases h
    | paramByte => cases h; exact ofByte (paramByte_spells b) rest
    | atrTs => cases h; exact ofByte (tsInstr_spells b) rest
    | atrT0 => cases h; exact ofByte (t0Instr_spells b) rest
    | procedureByte ins => cases h; exact ofByte (pbInstr_spells ins b) rest
    | ppsFrame =>
      simp only [decode] at h
      split at h
      · next pps0 pps1 k tail =>
        split_ifs at h with frame
        obtain ⟨rfl, rfl, rfl⟩ := frame
        cases h
        exact ⟨rfl, rfl⟩
      · cases h

/-! ## The class of a byte that an instruction encodes to -/

theorem tsInstr_of_wf {ts : Byte} (wf : (Instr.tsInvalid ts).wf = true) : tsInstr ts = .tsInvalid ts := by
  obtain ⟨direct, inverse⟩ : ts ≠ 0x3B#8 ∧ ts ≠ 0x3F#8 := by simpa [Instr.wf] using wf
  simp only [tsInstr, tsClass, if_neg direct, if_neg inverse]

theorem pbInstr_ack {b : Byte} (wf : (Instr.pbAck b).wf = true) : pbInstr b b = .pbAck b := by
  have notNull : b ≠ 0x60#8 := by simpa [Instr.wf] using wf
  simp only [pbInstr, pbClass, if_neg notNull, if_pos]

theorem pbInstr_sw16x {ins : Byte} {lo : Nibble} (wf : (Instr.pbSw16x lo).wf = true) (notIns : joinNibbles 6#4 lo ≠ ins) :
    pbInstr ins (joinNibbles 6#4 lo) = .pbSw16x lo := by
  have notNull : joinNibbles 6#4 lo ≠ 0x60#8 := fun null => by
    have zero : lo = 0#4 := (loNibble_joinNibbles 6#4 lo).symm.trans (congrArg loNibble null)
    simp [Instr.wf, zero] at wf
  simp only [pbInstr, pbClass, if_neg notNull, if_neg notIns, hiNibble_joinNibbles, if_pos, loNibble_joinNibbles]

theorem pbInstr_sw19x {ins : Byte} {lo : Nibble} (notIns : joinNibbles 9#4 lo ≠ ins) :
    pbInstr ins (joinNibbles 9#4 lo) = .pbSw19x lo := by
  have notNull : joinNibbles 9#4 lo ≠ 0x60#8 := fun null => by
    have six : 9#4 = 6#4 := (hiNibble_joinNibbles 9#4 lo).symm.trans (congrArg hiNibble null)
    exact absurd six (by decide)
  simp only [pbInstr, pbClass, if_neg notNull, if_neg notIns, hiNibble_joinNibbles, loNibble_joinNibbles]
  rfl

theorem pbInstr_invalid {ins b : Byte} (wf : (Instr.pbInvalid b).wf = true) (notIns : b ≠ ins) :
    pbInstr ins b = .pbInvalid b := by
  obtain ⟨notSix, notNine⟩ : hiNibble b ≠ 6#4 ∧ hiNibble b ≠ 9#4 := by simpa [Instr.wf, hiNibble] using wf
  have notNull : b ≠ 0x60#8 := fun null => notSix (congrArg hiNibble null)
  simp only [pbInstr, pbClass, if_neg notNull, if_neg notIns, if_neg notSix, if_neg notNine]

/-- Settles O2: a well-formed instruction fits one format, and the byte it encodes to there is of its own class. -/
theorem decodeOfEncodeIsIdentity : Obligations.DecodeOfEncodeIsIdentity := by
  intro c i rest wfIn
  obtain ⟨wf, fits⟩ : i.wf = true ∧ i.fits c = true := by simpa [Instr.wfIn] using wfIn
  have decodes {i' : Instr} (eq : i' = i) : Decoded.ok i' rest = .ok i rest := congrArg (Decoded.ok · rest) eq
  cases i <;> cases c <;> simp only [Instr.fits, Bool.false_eq_true, bne_iff_ne, beq_iff_eq] at fits
  case decode | encode | parseAtr | negotiatePps | apduExchange => rfl
  case paramByte f d => exact decodes (by rw [hiNibble_joinNibbles, loNibble_joinNibbles])
  case tsDirect | tsInverse => rfl
  case tsInvalid ts => exact decodes (tsInstr_of_wf wf)
  case t0Ta1Present hi lo => exact decodes (t0Instr_append hi true lo)
  case t0Ta1Absent hi lo => exact decodes (t0Instr_append hi false lo)
  case ppsFrame p => exact if_pos ⟨rfl, rfl, rfl⟩
  case pbNull ins => rfl
  case pbAck b ins =>
    subst fits
    exact decodes (pbInstr_ack wf)
  case pbSw16x lo ins => exact decodes (pbInstr_sw16x wf (joinNibbles_eq_append 6#4 lo ▸ fits))
  case pbSw19x lo ins => exact decodes (pbInstr_sw19x (joinNibbles_eq_append 9#4 lo ▸ fits))
  case pbInvalid b ins => exact decodes (pbInstr_invalid wf fits)

/-- Settles O1: each of the words is read by its own row. -/
theorem spelledWordsDecode : Obligations.SpelledWordsDecode := by
  unfold Obligations.SpelledWordsDecode
  decide

end Sys2Proof
end

section
/-! The frame of an engine step. `Effect` says everything an instruction can do in a busy state; here each of its cases is
one of three ways on, the operation's failure, its success, or a move to a next state, with what that way leaves unchanged. -/

namespace Sys2Proof.Machine

/-! ## What each state leaves unchanged -/

/-- A Transport call within the contract (R220, R221). -/
def Event.Legal : Event → Prop
  | .send bs _ => bs ≠ []
  | .recv n answer => 1 ≤ n ∧ ∀ r, answer = some r → r.length ≤ n

/-- The states whose step makes no Transport call. -/
def St.silent : St → Bool
  | .dec | .enc | .atr | .ppsCheck | .apCheck => true
  | _ => false

/-- The port after a step of the state `x`: as it was, or after one call, and as it was where `x` makes none. -/
structure Port.Frame (x : St) (p q : Port) : Prop where
  oneCall : q = p ∨ ∃ e, q = p.after e ∧ e.Legal
  silent : x.silent = true → q = p

theorem Port.Frame.kept (x : St) (p : Port) : Port.Frame x p p := ⟨.inl rfl, fun _ => rfl⟩

theorem Port.Frame.called {x : St} {e : Event} (p : Port) (calls : x.silent = false) (legal : e.Legal) :
    Port.Frame x p (p.after e) :=
  ⟨.inr ⟨e, rfl, legal⟩, fun silent => absurd (calls.symm.trans silent) nofun⟩

theorem State.recv_legal {n : Nat} (s : State) (asks : 1 ≤ n) : (Event.recv n (s.recvAnswer n)).Legal :=
  ⟨asks, fun _ => State.recvAnswer_length⟩

theorem Event.send_legal {bs : List Byte} (ok : Bool) (some' : 0 < bs.length) : (Event.send bs ok).Legal :=
  List.ne_nil_of_length_pos some'

/-- The result registers, but `ERR`, after a step of the state `x` (R33 to R40). -/
structure Results.Frame (x : St) (r q : Results) : Prop where
  decode : x ≠ .dec → q.outFi = r.outFi ∧ q.outDi = r.outDi ∧ q.outFmax = r.outFmax
  encode : x ≠ .enc → q.outByte = r.outByte
  parseAtr : x ≠ .atr → q.conv = r.conv ∧ q.ta1Valid = r.ta1Valid ∧ q.ta1 = r.ta1
  status : x ≠ .apSw → x ≠ .apSw2 → q.respLen = r.respLen ∧ q.sw1 = r.sw1 ∧ q.sw2 = r.sw2

theorem Results.Frame.kept (x : St) (r : Results) : Results.Frame x r r :=
  ⟨fun _ => ⟨rfl, rfl, rfl⟩, fun _ => rfl, fun _ => ⟨rfl, rfl, rfl⟩, fun _ _ => ⟨rfl, rfl, rfl⟩⟩

/-- The internal registers after a step of the state `x` (R43, R44). -/
structure Working.Frame (x : St) (w v : Working) : Prop where
  ppsReq : v.ppsReq = w.ppsReq
  ppsRsp : x ≠ .ppsRecv → v.ppsRsp = w.ppsRsp
  pb : x ≠ .apProc → v.pb = w.pb
  k : x ≠ .apAck → v.k = w.k

theorem Working.Frame.kept (x : St) (w : Working) : Working.Frame x w w := ⟨rfl, fun _ => rfl, fun _ => rfl, fun _ => rfl⟩

/-- The codes with which a step of a busy state can end its operation (R240): 0 where it can succeed. -/
def St.codes : St → List Byte
  | .dec => [0x00, 0x01, 0x02]
  | .enc => [0x00, 0x03, 0x04]
  | .atr => [0x00, 0x05]
  | .ppsSend => [0x06]
  | .ppsRecv => [0x07]
  | .ppsCheck => [0x00, 0x08]
  | .apCheck => [0x09]
  | .apHdr => [0x0A]
  | .apProc => [0x0B, 0x0F, 0x10]
  | .apAck => [0x0C, 0x0D]
  | .apSw | .apSw2 => [0x00, 0x0E]
  | .idle | .done => []

/-- Each state that can end its operation may go to `DONE`. -/
theorem St.mayStepTo_done {x : St} {c : Byte} (ends : c ∈ x.codes) : x.mayStepTo .done = true := by
  cases x <;> simp [St.codes, St.mayStepTo] at ends ⊢

/-! ## The three ways on -/

/-- The next states of an instruction in a busy state `s`, with what each way on leaves unchanged. -/
inductive Summary (s : State) : State → Prop
  | failed {p : Port} {k : FailKind} (port : Port.Frame s.st s.port p) (code : k.code ∈ s.st.codes) :
      Summary s ({ s with port := p }.fail k)
  | succeeded {p : Port} {r : Results} (port : Port.Frame s.st s.port p) (code : 0x00 ∈ s.st.codes)
      (res : Results.Frame s.st s.res r) : Summary s ({ s with port := p }.commit r)
  | moved {p : Port} {x : St} {w : Working} (port : Port.Frame s.st s.port p) (may : s.st.mayStepTo x = true)
      (going : x ≠ .done) (work : Working.Frame s.st s.work w) :
      Summary s { s with st := x, work := w, port := p }

theorem Effect.summary {s t : State} (effect : Effect s t) : Summary s t := by
  have kept := Port.Frame.kept s.st s.port
  have send (x : St) (st : s.st = x) (calls : x.silent = false) (bs : List Byte) (some' : 0 < bs.length) :
      Port.Frame s.st s.port (s.afterSend bs).port := .called s.port (st ▸ calls) (Event.send_legal s.sendOk some')
  have recv (x : St) (st : s.st = x) (calls : x.silent = false) (n : Nat) (asks : 1 ≤ n) :
      Port.Frame s.st s.port (s.afterRecv n).port := .called s.port (st ▸ calls) (s.recv_legal asks)
  have proc {u : State} (st : s.st = .apProc) (from' : u = s ∨ u = s.afterRecv 1) :
      ∃ p, Port.Frame s.st s.port p ∧ u = { s with port := p } := by
    obtain rfl | rfl := from'
    · exact ⟨u.port, .kept _ _, rfl⟩
    · exact ⟨_, recv _ st rfl 1 le_rfl, rfl⟩
  cases effect with
  | decFail k st kind | encFail k st kind =>
    obtain rfl | rfl := kind <;> exact .failed kept (by rw [st]; decide)
  | atrFail st | ppsMismatch st | apBidirectional st => exact .failed kept (by rw [st]; decide)
  | ppsUnsent bs st length | apHeaderUnsent bs st length =>
    exact .failed (send _ st rfl bs (by omega)) (by rw [st]; decide)
  | dataUnsent tx bs st txLen more length => exact .failed (send _ st rfl bs (by omega)) (by rw [st]; decide)
  | ppsNoResponse st => exact .failed (recv _ st rfl 4 (by decide)) (by rw [st]; decide)
  | pbMissing st => exact .failed (recv _ st rfl 1 le_rfl) (by rw [st]; decide)
  | dataUnreceived rx st rxLen some' => exact .failed (recv _ st rfl rx some') (by rw [st]; decide)
  | statusMissing n st =>
    obtain ⟨st, rfl⟩ | ⟨st, rfl⟩ := st <;> exact .failed (recv _ st rfl _ (by decide)) (by rw [st]; decide)
  | pbFail u k st from' kind =>
    obtain ⟨p, port, rfl⟩ := proc st from'
    obtain rfl | rfl := kind <;> exact .failed port (by rw [st]; decide)
  | decOk fi m di st =>
    exact .succeeded kept (by rw [st]; decide)
      ⟨fun other => absurd st other, fun _ => rfl, fun _ => ⟨rfl, rfl, rfl⟩, fun _ _ => ⟨rfl, rfl, rfl⟩⟩
  | encOk i j st =>
    exact .succeeded kept (by rw [st]; decide)
      ⟨fun _ => ⟨rfl, rfl, rfl⟩, fun other => absurd st other, fun _ => ⟨rfl, rfl, rfl⟩, fun _ _ => ⟨rfl, rfl, rfl⟩⟩
  | atrWithout c st | atrWith c b st =>
    exact .succeeded kept (by rw [st]; decide)
      ⟨fun _ => ⟨rfl, rfl, rfl⟩, fun _ => rfl, fun other => absurd st other, fun _ _ => ⟨rfl, rfl, rfl⟩⟩
  | ppsMatch st => exact .succeeded kept (by rw [st]; decide) (.kept _ _)
  | statusWord a b k data st =>
    exact .succeeded (recv _ st rfl 2 (by decide)) (by rw [st]; decide)
      ⟨fun _ => ⟨rfl, rfl, rfl⟩, fun _ => rfl, fun _ => ⟨rfl, rfl, rfl⟩, fun other _ => absurd st other⟩
  | secondByte pb b st =>
    exact .succeeded (recv _ st rfl 1 le_rfl) (by rw [st]; decide)
      ⟨fun _ => ⟨rfl, rfl, rfl⟩, fun _ => rfl, fun _ => ⟨rfl, rfl, rfl⟩, fun _ other => absurd st other⟩
  | ppsSent bs st length | apHeaderSent bs st length =>
    exact .moved (send _ st rfl bs (by omega)) (by rw [st]; rfl) nofun (.kept _ _)
  | ppsReceived r st =>
    exact .moved (recv _ st rfl 4 (by decide)) (by rw [st]; rfl) nofun
      ⟨rfl, fun other => absurd st other, fun _ => rfl, fun _ => rfl⟩
  | apChecked st => exact .moved kept (by rw [st]; rfl) nofun (.kept _ _)
  | pbNull u st from' =>
    obtain ⟨p, port, rfl⟩ := proc st from'
    exact .moved port (by rw [st]; rfl) (by rw [st]; nofun) (.kept _ _)
  | pbAck u b st from' | pbSw1 u b st from' =>
    obtain ⟨p, port, rfl⟩ := proc st from'
    exact .moved port (by rw [st]; rfl) nofun ⟨rfl, fun _ => rfl, fun other => absurd st other, fun _ => rfl⟩
  | dataSent tx bs st txLen more length =>
    exact .moved (send _ st rfl bs (by omega)) (by rw [st]; rfl) nofun
      ⟨rfl, fun _ => rfl, fun _ => rfl, fun other => absurd st other⟩
  | dataReceived tx rx r st txLen none rxLen some' =>
    exact .moved (recv _ st rfl rx some') (by rw [st]; rfl) nofun
      ⟨rfl, fun _ => rfl, fun _ => rfl, fun other => absurd st other⟩
  | noData st =>
    exact .moved kept (by rw [st]; rfl) nofun ⟨rfl, fun _ => rfl, fun _ => rfl, fun other => absurd st other⟩

/-! ## Results and codes -/

/-- Settles O52: the two exits write `ERR`, and a move writes no result register. -/
theorem errIsWrittenAtTheEndAlone : Obligations.ErrIsWrittenAtTheEndAlone := by
  intro i s t busy h
  cases (effect_of_exec busy h).summary with
  | failed => exact .inl ⟨rfl, rfl⟩
  | succeeded => exact .inl ⟨rfl, rfl⟩
  | moved port may going => exact .inr ⟨going, rfl⟩

/-- Settles O54: `raise` writes `ERR` alone, and neither of the other two ways on ends with a failure. -/
theorem failureWritesErrAlone : Obligations.FailureWritesErrAlone := by
  intro i s t c busy h done err failure
  cases (effect_of_exec busy h).summary with
  | failed =>
    obtain rfl := Option.some.inj err
    exact ⟨rfl, rfl⟩
  | succeeded => exact absurd (Option.some.inj err).symm failure
  | moved port may going => exact absurd done going

/-- Settles O55: each exit ends with a code of its state. -/
theorem failureCodesOfEachState : Obligations.FailureCodesOfEachState := by
  intro i s t c busy h done err
  have ends : c ∈ s.st.codes := by
    cases (effect_of_exec busy h).summary with
    | failed port code => exact Option.some.inj err ▸ code
    | succeeded port code => exact Option.some.inj err ▸ code
    | moved port may going => exact absurd done going
  exact ends

/-! ## The frames -/

/-- What no way on touches. -/
theorem Summary.outside {s t : State} (summary : Summary s t) :
    t.cfg = s.cfg ∧ t.req = s.req ∧ t.host = s.host ∧ t.sched = s.sched := by
  cases summary <;> exact ⟨rfl, rfl, rfl, rfl⟩

theorem Summary.resultsFrame {s t : State} (summary : Summary s t) : Results.Frame s.st s.res t.res := by
  cases summary with
  | failed => exact ⟨fun _ => ⟨rfl, rfl, rfl⟩, fun _ => rfl, fun _ => ⟨rfl, rfl, rfl⟩, fun _ _ => ⟨rfl, rfl, rfl⟩⟩
  | succeeded port code res => exact ⟨res.decode, res.encode, res.parseAtr, res.status⟩
  | moved => exact .kept _ _

theorem Summary.workingFrame {s t : State} (summary : Summary s t) : Working.Frame s.st s.work t.work := by
  cases summary with
  | failed | succeeded => exact .kept _ _
  | moved port may going work => exact work

theorem Summary.portFrame {s t : State} (summary : Summary s t) : Port.Frame s.st s.port t.port := by
  cases summary <;> assumption

/-- Settles O57: the frames of the register files, at each state. -/
theorem engineStepFrameOnRegisters : Obligations.EngineStepFrameOnRegisters := by
  intro i s t busy h
  have summary := (effect_of_exec busy h).summary
  obtain ⟨cfg, req, host, sched⟩ := summary.outside
  have res := summary.resultsFrame
  have work := summary.workingFrame
  refine ⟨cfg, req, host, sched, res.decode, res.encode, res.parseAtr, res.status, work.pb, work.k, fun quiet => ?_⟩
  refine summary.portFrame.silent ?_
  obtain st | st | st | st | st := quiet <;> rw [st] <;> rfl

/-- `DATA_TMP` is written in `AP_ACK` alone, at the indices of the bytes received. -/
theorem Effect.read_dataTmp {s t : State} {a : Nat} (effect : Effect s t)
    (outside : s.st = .apAck → ∀ tx rx r, s.req.txLen = some tx → tx ≤ 5 → s.req.rxLen = some rx → 0 < rx →
      s.recvAnswer rx = some r → r.length ≤ a) : t.work.dataTmp.read a = s.work.dataTmp.read a := by
  cases effect with
  | dataReceived tx rx r st txLen none rxLen some' answer =>
    have above : r.length ≤ a := outside st tx rx r txLen none rxLen some' answer
    exact (Memory.read_writeBytes _ 0 a r).trans (if_neg (by omega))
  | pbNull _ _ from' | pbAck _ _ _ from' | pbFail _ _ _ from' | pbSw1 _ _ _ from' => obtain rfl | rfl := from' <;> rfl
  | _ => rfl

/-- `RX_BUF` is written in `AP_SW` alone, at the first `K` indices. -/
theorem Effect.read_rxBuf {s t : State} {a : Nat} (effect : Effect s t)
    (outside : s.st = .apSw → ∀ k, s.work.k = some k → k ≤ a) : t.res.rxBuf.read a = s.res.rxBuf.read a := by
  cases effect with
  | statusWord _ _ k data st count read =>
    have above : data.length ≤ a := (Memory.readBytes_length read).trans_le (outside st k count)
    exact (Memory.read_writeBytes _ 0 a data).trans (if_neg (by omega))
  | pbNull _ _ from' | pbAck _ _ _ from' | pbFail _ _ _ from' | pbSw1 _ _ _ from' => obtain rfl | rfl := from' <;> rfl
  | _ => rfl

/-- Settles O56: the request buffers are the host's, and each of the engine's is written in one state. -/
theorem engineStepFrameOnBuffers : Obligations.EngineStepFrameOnBuffers := by
  intro i s t a busy h
  have effect := effect_of_exec busy h
  obtain ⟨-, req, -, -⟩ := effect.summary.outside
  have work := effect.summary.workingFrame
  refine ⟨by rw [req], by rw [req], by rw [work.ppsReq], fun other => by rw [work.ppsRsp other], ?_, ?_⟩
  · exact effect.read_dataTmp
  · exact effect.read_rxBuf

/-! ## The same of the whole step: the issue of a command and the host beside it -/

theorem Issue.req {i : Instr} {s t : State} (issue : Issue i s t) : t.req = s.req := by
  cases issue <;> rfl

theorem Issue.port {i : Instr} {s t : State} (issue : Issue i s t) : t.port = s.port := by
  cases issue <;> rfl

theorem Issue.first {i : Instr} {s t : State} (issue : Issue i s t) : t.st.first = true := by
  cases issue with
  | plain x first => exact first
  | pps => rfl

theorem exec_req {i : Instr} {s t : State} (h : exec i s = .next t) : t.req = s.req := by
  cases busy : s.busy with
  | false => exact (issue_of_exec busy h).req
  | true => exact (effect_of_exec busy h).summary.outside.2.1

theorem engineStep_req {s t : State} (h : engineStep s = .next t) : t.req = s.req := by
  obtain ⟨-, rfl⟩ | ⟨-, effect⟩ := engineStep_eq_next h
  · rfl
  · exact effect.summary.outside.2.1

/-- A host action that changes a request register is a write while the engine is not busy, or power-on (R32). -/
theorem HostEffect.req {a : HostAction} {s t : State} (effect : HostEffect a s t) :
    t.req = s.req ∨ a = .powerOn ∨ s.busy = false ∧
      (∀ c, a ≠ .writeCmd c) ∧ (∀ r, a ≠ .read r) ∧ (∀ c, a ≠ .setup c) ∧ a ≠ .awaitDone := by
  cases effect with
  | answered => exact .inl rfl
  | stored q idle isWrite =>
    obtain ⟨notCmd, notRead, notSetup, notWait, -⟩ := isWrite
    exact .inr (.inr ⟨idle, notCmd, notRead, notSetup, notWait⟩)
  | issued c i u idle isCmd decoded issue => exact .inl (issue_of_exec idle issue).req
  | reset isReset => exact .inr (.inl isReset)

/-- Settles O49: neither an instruction nor the engine's step writes a request register, so one that changes is the
host's. -/
theorem requestRegistersAreTheHosts : Obligations.RequestRegistersAreTheHosts := by
  refine ⟨fun i s t => exec_req, fun s t busy h => ?_, fun s t h changed => ?_⟩
  · obtain ⟨u, from', engine⟩ | ⟨a, rest, u, pending, from', host⟩ := step_cases s
    · have req : t.req = u.req := engineStep_req (engine.symm.trans h)
      obtain rfl | rfl := from' <;> exact .inl req
    · obtain ⟨idle, -⟩ | ⟨-, -, -, rfl⟩ := from'
      · exact absurd (busy.symm.trans idle) nofun
      obtain req | rfl | ⟨idle, -⟩ := (hostEffect_of_hostAct (host.symm.trans h)).req
      · exact .inl req
      · exact .inr ⟨rest, pending⟩
      · exact absurd (busy.symm.trans idle) nofun
  · obtain ⟨u, from', engine⟩ | ⟨a, rest, u, pending, from', host⟩ := step_cases s
    · have req : t.req = u.req := engineStep_req (engine.symm.trans h)
      obtain rfl | rfl := from' <;> exact absurd req changed
    · have reqU : (u.nextAction rest).req = s.req := by obtain ⟨-, rfl⟩ | ⟨-, -, -, rfl⟩ := from' <;> rfl
      obtain req | rfl | ⟨-, isWrite⟩ := (hostEffect_of_hostAct (host.symm.trans h)).req
      · exact absurd (req.trans reqU) changed
      · exact ⟨.powerOn, rest, pending, nofun, nofun, nofun, nofun⟩
      · exact ⟨a, rest, pending, isWrite⟩

theorem Summary.mayStepTo {s t : State} (summary : Summary s t) : s.st.mayStepTo t.st = true := by
  cases summary with
  | failed port code => exact St.mayStepTo_done code
  | succeeded port code => exact St.mayStepTo_done code
  | moved port may => exact may

theorem engineStep_st {s t : State} (h : engineStep s = .next t) : t.st = s.st ∨ s.st.mayStepTo t.st = true := by
  obtain ⟨-, rfl⟩ | ⟨-, effect⟩ := engineStep_eq_next h
  · exact .inl rfl
  · exact .inr effect.summary.mayStepTo

/-- A host action moves `st` only by issuing a command or by power-on. -/
theorem HostEffect.st {a : HostAction} {s t : State} (effect : HostEffect a s t) :
    t.st = s.st ∨ s.busy = false ∧ t.st.first = true ∨ a = .powerOn ∧ t.st = .idle := by
  cases effect with
  | answered => exact .inl rfl
  | stored => exact .inl rfl
  | issued c i u idle isCmd decoded issue => exact .inr (.inl ⟨idle, (issue_of_exec idle issue).first⟩)
  | reset isReset => exact .inr (.inr ⟨isReset, rfl⟩)

/-- Settles O51: the engine's step follows the state machine, and of the host's actions only a `CMD` write and power-on
move `st`. -/
theorem stateRegisterTransitions : Obligations.StateRegisterTransitions := by
  intro s t h
  obtain ⟨u, from', engine⟩ | ⟨a, rest, u, pending, from', host⟩ := step_cases s
  · have stU : u.st = s.st := by obtain rfl | rfl := from' <;> rfl
    obtain st | may := engineStep_st (engine.symm.trans h)
    · exact .inl (st.trans stU)
    · exact .inr (.inr (.inl (stU ▸ may)))
  · have stU : u.st = s.st := by obtain ⟨-, rfl⟩ | ⟨-, -, -, rfl⟩ := from' <;> rfl
    obtain st | ⟨idle, first⟩ | ⟨rfl, st⟩ := (hostEffect_of_hostAct (host.symm.trans h)).st
    · exact .inl (st.trans stU)
    · have idle : u.busy = false := idle
      exact .inr (.inl ⟨stU ▸ State.st_of_notBusy idle, first⟩)
    · exact .inr (.inr (.inr ⟨st, rest, pending⟩))

theorem HostEffect.port {a : HostAction} {s t : State} (effect : HostEffect a s t) : t.port = s.port := by
  cases effect with
  | issued c i u idle isCmd decoded issue => exact (issue_of_exec idle issue).port
  | _ => rfl

theorem engineStep_port {s t : State} (h : engineStep s = .next t) :
    t.port = s.port ∨ ∃ e, t.port = s.port.after e ∧ e.Legal := by
  obtain ⟨-, rfl⟩ | ⟨-, effect⟩ := engineStep_eq_next h
  · exact .inl rfl
  · exact effect.summary.portFrame.oneCall

/-- Settles O53: the engine's step makes at most one legal call, and a host action makes none. -/
theorem atMostOneTransportCallPerStep : Obligations.AtMostOneTransportCallPerStep := by
  intro s t h
  obtain ⟨u, from', engine⟩ | ⟨a, rest, u, -, from', host⟩ := step_cases s
  · have portU : u.port = s.port := by obtain rfl | rfl := from' <;> rfl
    refine (engineStep_port (engine.symm.trans h)).imp (fun kept => kept.trans portU) ?_
    rintro ⟨e, port, legal⟩
    refine ⟨e, portU ▸ port, ?_⟩
    cases e with
    | send bs ok => exact .inl ⟨bs, ok, rfl, legal⟩
    | recv n answer => exact .inr ⟨n, answer, rfl, legal⟩
  · have portU : u.port = s.port := by obtain ⟨-, rfl⟩ | ⟨-, -, -, rfl⟩ := from' <;> rfl
    exact .inl ((hostEffect_of_hostAct (host.symm.trans h)).port.trans portU)

end Sys2Proof.Machine
end

section
/-! The host's side (10_state.md, 60_exceptions.md): the issue of a command and its refusal, what each host action does at
its turn, and the operation that a busy engine's step belongs to. -/

namespace Sys2Proof.Machine

/-! ## The checks of a command (R96) -/

theorem wfEncode_iff {s : State} :
    wfEncode s = true ↔
      (∃ fi, s.req.inFi = some fi) ∧ (∃ di, s.req.inDi = some di) ∧ ∃ fmax, s.req.inFmax = some fmax := by
  simp only [wfEncode, Bool.and_eq_true, Option.isSome_iff_exists, and_assoc]

theorem wfAtr_iff {s : State} : wfAtr s = true ↔
    ∃ n, s.req.atrLen = some n ∧ n ≤ s.cfg.atrMax ∧ ∀ j, j < min n 3 → (s.req.atrBuf.read j).isSome = true := by
  unfold wfAtr
  cases s.req.atrLen <;> simp [Memory.readBytes_isSome]

theorem issueCommand_of_checked {i : Instr} {s : State} (x : St) (checked : failedCheck i s = none) :
    issueCommand i x s = .next (s.issue x) := by
  rw [issueCommand, checked]

theorem issueCommand_of_failed {i : Instr} {s : State} {c : WfCheck} (x : St) (failed : failedCheck i s = some c) :
    issueCommand i x s = .refused (.host (.illFormed c)) := by
  rw [issueCommand, failed]

/-- NEGOTIATE_PPS is issued with the frame of its `PPS1` built (R161). -/
theorem ppsIssue_of_pps1 {s : State} {p : Byte} (pps1 : s.req.pps1 = some p) :
    ppsIssue s = .next ((s.issue .ppsSend).setWork (Working.framing p)) := by
  simp only [ppsIssue, failedCheck, wfPps, pps1, Option.isSome_some, if_pos, need_some]
  rfl

/-! ## The host's turn -/

/-- The state in which the host acts at its turn, its action taken off the list. -/
def State.hostTurn (rest : List HostAction) (s : State) : State :=
  { s with
    host := ⟨rest, s.host.log⟩
    sched := if s.busy then ⟨s.sched.turns.tail, s.sched.count + 1⟩ else s.sched }

@[simp] theorem State.hostTurn_st (rest : List HostAction) (s : State) : (s.hostTurn rest).st = s.st := rfl
@[simp] theorem State.hostTurn_cfg (rest : List HostAction) (s : State) : (s.hostTurn rest).cfg = s.cfg := rfl
@[simp] theorem State.hostTurn_req (rest : List HostAction) (s : State) : (s.hostTurn rest).req = s.req := rfl
@[simp] theorem State.hostTurn_res (rest : List HostAction) (s : State) : (s.hostTurn rest).res = s.res := rfl
@[simp] theorem State.hostTurn_busy (rest : List HostAction) (s : State) : (s.hostTurn rest).busy = s.busy := rfl

theorem State.hostTurn_of_notBusy {rest : List HostAction} {s : State} (idle : s.busy = false) :
    s.hostTurn rest = s.nextAction rest := by
  simp [State.hostTurn, State.nextAction, idle]

theorem State.hostTurn_of_busy {rest : List HostAction} {s : State} (busy : s.busy = true) :
    s.hostTurn rest = s.takeTurn.nextAction rest := by
  simp [State.hostTurn, State.nextAction, State.takeTurn, busy]

/-- The host acts while the engine is not busy, and at its own turns while it is. -/
theorem step_hostAct {s : State} {a : HostAction} {rest : List HostAction} (pending : s.host.pending = a :: rest)
    (waits : a ≠ .awaitDone) (turn : s.busy = false ∨ s.turn = .host) : step s = hostAct a (s.hostTurn rest) := by
  cases busy : s.busy with
  | false => rw [State.hostTurn_of_notBusy busy, step_notBusy busy pending]
  | true =>
    have turn : s.turn = .host := turn.resolve_left (by simp [busy])
    rw [State.hostTurn_of_busy busy, step_hostTurn busy pending waits turn]

/-- A `CMD` write while the engine is not busy. -/
theorem step_writeCmd {s : State} {c : Byte} {rest : List HostAction} (idle : s.busy = false)
    (pending : s.host.pending = .writeCmd c :: rest) :
    step s = settle (.writeCmd c) (s.nextAction rest) (commandWrite c (s.nextAction rest)) :=
  (step_notBusy idle pending).trans (unlessBusy_idle idle)

theorem commandWrite_of_decode {c : Byte} {i : Instr} {rest : List Byte} (s : State)
    (decoded : decode .hostCommand [c] = .ok i rest) : commandWrite c s = exec i s := by
  rw [commandWrite, decoded]

theorem commandWrite_of_reserved {c : Byte} (s : State) (reserved : commandOf c = none) :
    commandWrite c s = .refused (.host (.reservedCommand c)) := by
  rw [commandWrite, decode, reserved]

/-- Every action but a read, the wait and power-on is refused while the engine is busy (R32, R253). -/
theorem hostAct_of_busy {s : State} {a : HostAction} (busy : s.busy = true) (notRead : ∀ r, a ≠ .read r)
    (notWait : a ≠ .awaitDone) (notReset : a ≠ .powerOn) : hostAct a s = .next (s.reply a (.refused .busy)) := by
  cases a with
  | read r => exact absurd rfl (notRead r)
  | awaitDone => exact absurd rfl notWait
  | powerOn => exact absurd rfl notReset
  | _ => exact unlessBusy_busy busy

/-- Settles O10: such an action is refused at once, with the turn taken. -/
theorem busyEngineRefusesHostActions : Obligations.BusyEngineRefusesHostActions := by
  intro s a rest busy turn pending notRead notWait notReset
  exact (step_hostTurn busy pending notWait turn).trans (hostAct_of_busy busy notRead notWait notReset)

/-! ## The statements about issue and refusal -/

theorem commandOf_eq_none {c : Byte} (reserved : c.toNat = 0 ∨ 5 < c.toNat) : commandOf c = none := by
  cases command : commandOf c with
  | none => rfl
  | some i =>
    exfalso
    unfold commandOf at command
    split_ifs at command <;> subst c <;> exact absurd reserved (by decide)

/-- Settles O4: no command has the value, and a refused `CMD` write only settles with the host. -/
theorem reservedCommandIsRefused : Obligations.ReservedCommandIsRefused := by
  intro s c rest idle pending reserved
  rw [step_writeCmd idle pending, commandWrite_of_reserved _ (commandOf_eq_none reserved)]
  rfl

/-- Settles O5: the command decoded is executed, and the host is answered with its outcome. -/
theorem stepRunsDecodedCommand : Obligations.StepRunsDecodedCommand := by
  intro s c rest i idle pending decoded
  rw [step_writeCmd idle pending, commandWrite_of_decode _ decoded]
  cases exec i (s.nextAction rest) with
  | next t => rfl
  | fault f => rfl
  | refused r => cases r <;> rfl

theorem engineStep_of_operation {s : State} {i : Instr} (op : s.st.operation = some i) : engineStep s = exec i s := by
  rw [engineStep, op]

/-- An operation in flight goes on while the host waits or has nothing to do, and at the engine's turns. -/
theorem step_of_operation {s : State} {i : Instr} (op : s.st.operation = some i) :
    ((s.host.pending = [] ∨ ∃ rest, s.host.pending = .awaitDone :: rest) → step s = exec i s) ∧
    (∀ a rest, s.host.pending = a :: rest → a ≠ .awaitDone → s.turn = .engine →
      step s = exec i { s with sched := ⟨s.sched.turns.tail, s.sched.count + 1⟩ }) := by
  have busy : s.busy = true := by
    cases busy : s.busy with
    | true => rfl
    | false => cases (St.operation_of_notBusy busy).symm.trans op
  refine ⟨?_, fun a rest pending waits turn => ?_⟩
  · rintro (pending | ⟨rest, pending⟩)
    · exact (step_noAction pending).trans (engineStep_of_operation op)
    · exact (step_wait busy pending).trans (engineStep_of_operation op)
  · exact (step_engineTurn busy pending waits turn).trans (engineStep_of_operation op)

/-- Settles O6: each busy state belongs to one operation, and an engine that is not busy leaves the step to the host. -/
theorem stepRunsOperationInFlight : Obligations.StepRunsOperationInFlight := by
  intro s runs
  have own {x : St} {i : Instr} (st : s.st = x) (op : x.operation = some i) : runs i := step_of_operation (st ▸ op)
  refine ⟨(own · rfl), (own · rfl), (own · rfl), ?negotiatePps, ?apduExchange, fun st => ?notBusy⟩
  case negotiatePps => rintro (st | st | st) <;> exact own st rfl
  case apduExchange => rintro (st | st | st | st | st | st) <;> exact own st rfl
  case notBusy =>
    have idle : s.busy = false := by obtain st | st := st <;> rw [State.busy, st] <;> rfl
    refine ⟨fun pending => ?_, fun rest pending => step_notBusy idle pending⟩
    rw [step_noAction pending, engineStep, St.operation_of_notBusy idle]

/-- Settles O8: each command's check passes, and its issue writes the results, the internal registers and `st`. -/
theorem issueTransition : Obligations.IssueTransition := by
  refine fun s => ⟨fun idle => ?_, fun busy turn c rest pending => ?_⟩
  · obtain ⟨hDecode, hEncode, hAtr, hPps, hApdu⟩ := command_notBusy idle
    rw [hDecode, hEncode, hAtr, hPps, hApdu]
    refine ⟨fun b inByte => ?_, fun f d m inFi inDi inFmax => ?_, fun n atrLen fits read => ?_, fun p pps1 => ?_,
      fun n r txLen rxLen ge fits fits' read => ?_⟩
    · exact issueCommand_of_checked .dec (if_pos (by rw [wfDecode, inByte]; rfl))
    · exact issueCommand_of_checked .enc (if_pos (wfEncode_iff.2 ⟨⟨f, inFi⟩, ⟨d, inDi⟩, m, inFmax⟩))
    · exact issueCommand_of_checked .atr (if_pos (wfAtr_iff.2 ⟨n, atrLen, fits, read⟩))
    · exact ppsIssue_of_pps1 pps1
    · refine issueCommand_of_checked .apCheck (failedCheck_apduExchange_eq_none.2 ⟨?_, ?_, ?_⟩)
      · exact wfApduHdr_iff.2 ⟨n, txLen, ge⟩
      · exact wfApduLen_iff.2 ⟨n, r, txLen, rxLen, fits, fits'⟩
      · exact wfApduBuf_iff.2 ⟨n, txLen, Memory.readBytes_isSome.2 fun j lt => by rw [Nat.zero_add]; exact read j lt⟩
  · exact busyEngineRefusesHostActions s _ rest busy turn pending nofun nofun nofun

/-- Settles O9: for each check and each way it fails, the command's first failed check is that one. -/
theorem illFormedCommandIsRefused : Obligations.IllFormedCommandIsRefused := by
  refine ⟨fun s idle => ?_, fun s c rest i r idle pending decoded refused => ?_⟩
  · obtain ⟨hDecode, hEncode, hAtr, hPps, hApdu⟩ := command_notBusy idle
    rw [hDecode, hEncode, hAtr, hPps, hApdu]
    have sameTx {n n' : Nat} (h : s.req.txLen = some n) (h' : s.req.txLen = some n') : n = n' :=
      Option.some.inj (h.symm.trans h')
    refine ⟨fun inByte => ?_, fun missing => ?_, fun bad => ?_, fun pps1 => ?_, fun short => ?_,
      fun n txLen ge bad => ?_, fun n r txLen rxLen ge fits fits' missing => ?_⟩
    · exact issueCommand_of_failed .dec (if_neg (by simp [wfDecode, inByte]))
    · refine issueCommand_of_failed .enc (if_neg fun wf => ?_)
      obtain ⟨⟨f, inFi⟩, ⟨d, inDi⟩, m, inFmax⟩ := wfEncode_iff.1 wf
      simp [inFi, inDi, inFmax] at missing
    · refine issueCommand_of_failed .atr (if_neg fun wf => ?_)
      obtain ⟨n, atrLen, fits, read⟩ := wfAtr_iff.1 wf
      obtain unwritten | ⟨n', atrLen', tooLong | ⟨j, lt, unread⟩⟩ := bad
      · simp [unwritten] at atrLen
      · obtain rfl : n = n' := Option.some.inj (atrLen.symm.trans atrLen')
        exact tooLong.not_ge fits
      · obtain rfl : n = n' := Option.some.inj (atrLen.symm.trans atrLen')
        simpa [unread] using read j lt
    · simp [ppsIssue, failedCheck, wfPps, pps1]
    · have noHdr : wfApduHdr s = false := by
        refine Bool.eq_false_iff.2 fun wf => ?_
        obtain ⟨n, txLen, ge⟩ := wfApduHdr_iff.1 wf
        obtain unwritten | ⟨n', txLen', lt⟩ := short
        · simp [unwritten] at txLen
        · exact (sameTx txLen txLen' ▸ lt).not_ge ge
      exact issueCommand_of_failed .apCheck (by simp [failedCheck, noHdr])
    · have hdr : wfApduHdr s = true := wfApduHdr_iff.2 ⟨n, txLen, ge⟩
      have noLen : wfApduLen s = false := by
        refine Bool.eq_false_iff.2 fun wf => ?_
        obtain ⟨n', r, txLen', rxLen, fits, fits'⟩ := wfApduLen_iff.1 wf
        obtain tooLong | unwritten | ⟨r', rxLen', tooLong⟩ := bad
        · exact tooLong.not_ge (sameTx txLen txLen' ▸ fits)
        · simp [unwritten] at rxLen
        · exact tooLong.not_ge (Option.some.inj (rxLen.symm.trans rxLen') ▸ fits')
      exact issueCommand_of_failed .apCheck (by simp [failedCheck, hdr, noLen])
    · have hdr : wfApduHdr s = true := wfApduHdr_iff.2 ⟨n, txLen, ge⟩
      have len : wfApduLen s = true := wfApduLen_iff.2 ⟨n, r, txLen, rxLen, fits, fits'⟩
      have noBuf : wfApduBuf s = false := by
        refine Bool.eq_false_iff.2 fun wf => ?_
        obtain ⟨n', txLen', written⟩ := wfApduBuf_iff.1 wf
        obtain ⟨j, lt, unread⟩ := missing
        have read := Memory.readBytes_isSome.1 written j (sameTx txLen txLen' ▸ lt)
        simp [unread] at read
      exact issueCommand_of_failed .apCheck (by simp [failedCheck, hdr, len, noBuf])
  · rw [step_writeCmd idle pending, commandWrite_of_decode _ decoded, refused]
    rfl

/-- Settles O14: a set-up call is accepted, and nothing else happens. -/
theorem setupCallsLeaveTheEngine : Obligations.SetupCallsLeaveTheEngine := by
  intro s c rest idle pending
  exact (step_notBusy idle pending).trans (unlessBusy_idle idle)

/-- Settles O15: power-on is accepted at every turn of the host. -/
theorem powerOnResetsEveryRegister : Obligations.PowerOnResetsEveryRegister := by
  intro s rest pending turn
  exact step_hostAct pending nofun turn

/-! ## Reads and writes -/

theorem Memory.read_writeBytes_zero (m : Memory) (bs : List Byte) (j : Nat) :
    (m.writeBytes 0 bs).read j = if j < bs.length then bs[j]? else m.read j := by
  simpa using Memory.read_writeBytes m 0 j bs

/-- Settles O11: a write is accepted within its range and its width, and faults otherwise. -/
theorem hostWritesRequestRegisters : Obligations.HostWritesRequestRegisters := by
  intro s a rest idle pending after
  have acts (k : Result) (h : hostAct a (s.nextAction rest) = unlessBusy a (s.nextAction rest) k) : step s = k :=
    ((step_notBusy idle pending).trans h).trans (unlessBusy_idle idle)
  have fits {v : Word} (lt : v < 2 ^ s.cfg.intW) : s.cfg.fits v = true := decide_eq_true lt
  have fromZero (bs : List Byte) : 0 + bs.length = bs.length := Nat.zero_add _
  refine ⟨?inByte, ?inFi, ?inDi, ?inFmax, ?atrLen, ?pps1, ?txLen, ?rxLen, ?setAtrBuf, ?writeAtrBuf, ?setTxBuf,
    ?writeTxBuf, ?setAtrBufOutside, ?setTxBufOutside, ?writeAtrBufOutside, ?writeTxBufOutside, ?tooWide⟩
  case inByte | atrLen | pps1 | txLen | rxLen =>
    rintro v rfl
    exact acts _ rfl
  case inFi | inDi | inFmax =>
    rintro v rfl lt
    exact (acts _ rfl).trans (if_pos (fits lt))
  case setAtrBuf =>
    rintro bs rfl le
    exact ⟨_, (acts _ rfl).trans (if_pos ((fromZero bs).trans_le le)), Memory.read_writeBytes_zero s.req.atrBuf bs⟩
  case setTxBuf =>
    rintro bs rfl le
    exact ⟨_, (acts _ rfl).trans (if_pos ((fromZero bs).trans_le le)), Memory.read_writeBytes_zero s.req.txBuf bs⟩
  case writeAtrBuf =>
    rintro i bs rfl le
    exact ⟨_, (acts _ rfl).trans (if_pos le), fun j => Memory.read_writeBytes s.req.atrBuf i j bs⟩
  case writeTxBuf =>
    rintro i bs rfl le
    exact ⟨_, (acts _ rfl).trans (if_pos le), fun j => Memory.read_writeBytes s.req.txBuf i j bs⟩
  case setAtrBufOutside | setTxBufOutside =>
    rintro bs rfl gt
    exact (acts _ rfl).trans (if_neg ((gt.trans_eq (fromZero bs).symm).not_ge))
  case writeAtrBufOutside | writeTxBufOutside =>
    rintro i bs rfl gt
    exact (acts _ rfl).trans (if_neg gt.not_ge)
  case tooWide =>
    intro v ge
    have notFits : ¬ s.cfg.fits v = true := by simpa [Config.fits] using ge
    refine ⟨?_, ?_, ?_⟩ <;> rintro rfl <;> exact (acts _ rfl).trans (if_neg notFits)

theorem State.result_of_notBusy {s : State} (idle : s.busy = false) (o : Option Nat) : s.result o = o := by
  simp [State.result, idle]

theorem State.result_of_busy {s : State} (busy : s.busy = true) (o : Option Nat) : s.result o = none := by
  simp [State.result, busy]

theorem inRange_of_lt {r : Reg} {capacity i : Nat} (lt : i < capacity) (k : Result) : inRange r capacity i k = k :=
  if_pos lt

theorem inRange_of_ge {r : Reg} {capacity i : Nat} (ge : capacity ≤ i) (k : Result) :
    inRange r capacity i k = .fault (.noSuchIndex r) :=
  if_neg ge.not_gt

/-- Settles O12: at its turn the host reads a written register's value, and only its own record changes. -/
theorem hostReadsGiveRegisterValues : Obligations.HostReadsGiveRegisterValues := by
  intro s r rest pending turn gives
  have acts : step s = hostRead r (s.hostTurn rest) := step_hostAct pending nofun turn
  have gives_of {v : Nat} (h : hostRead r (s.hostTurn rest) = .next ((s.hostTurn rest).reply (.read r) (.value v))) :
      gives v := acts.trans h
  refine ⟨?st, ?busy, ?inFi, ?inDi, ?inFmax, fun idle => ?results⟩
  case st =>
    rintro rfl
    have value : gives s.st.code.toNat := gives_of rfl
    refine ⟨?_, ?_, ?_, ?_, ?_, ?_, ?_, ?_, ?_, ?_, ?_, ?_, ?_, ?_⟩ <;> intro st <;> rw [st] at value <;> exact value
  case busy =>
    rintro rfl
    have value : gives s.busy.toNat := gives_of rfl
    rw [State.busy] at value
    cases st : s.st <;> rw [st] at value <;> exact value
  case inFi | inDi | inFmax =>
    rintro v rfl written
    exact gives_of (by simp [hostRead, written])
  case results =>
    have result := State.result_of_notBusy (s := s.hostTurn rest) idle
    refine ⟨?_, ?_, ?_, ?_, ?_, ?_, ?_, ?_, ?_, ?rxBuf, ?_, ?_⟩
    case rxBuf =>
      rintro i v rfl lt written
      exact gives_of (by simp [hostRead, result, inRange_of_lt lt, written])
    all_goals
      rintro v rfl written
      exact gives_of (by simp [hostRead, result, written])

/-- Settles O13: at the host's turn, what has no value, no index or no read path faults. -/
theorem hostReadsOfUnwrittenResultsFault : Obligations.HostReadsOfUnwrittenResultsFault := by
  intro s r rest pending turn
  have acts : step s = hostRead r (s.hostTurn rest) := step_hostAct pending nofun turn
  rw [acts]
  refine ⟨?outside, ?noPath, ?request, fun busy => ?busy, ?unwritten⟩
  case outside =>
    rintro i rfl ge
    exact inRange_of_ge (capacity := s.cfg.rxMax) ge _
  case noPath =>
    rintro (rfl | (⟨i, rfl⟩ | ⟨i, rfl⟩ | rfl | rfl | ⟨i, rfl⟩) |
      (rfl | rfl | ⟨i, rfl⟩ | rfl | rfl | ⟨i, rfl⟩ | rfl)) <;> rfl
  case request =>
    rintro (⟨rfl, none⟩ | ⟨rfl, none⟩ | ⟨rfl, none⟩) <;> simp [hostRead, none]
  case busy =>
    have result := State.result_of_busy (s := s.hostTurn rest) busy
    rintro (rfl | rfl | rfl | rfl | rfl | rfl | rfl | rfl | rfl | rfl | ⟨i, rfl, lt⟩ | rfl | rfl) <;>
      simp [hostRead, inRange, *]
  case unwritten =>
    have result : (s.hostTurn rest).result none = none := ite_self none
    rintro (⟨rfl, none⟩ | ⟨rfl, none⟩ | ⟨rfl, none⟩ | ⟨rfl, none⟩ | ⟨rfl, none⟩ | ⟨rfl, none⟩ | ⟨rfl, none⟩ | ⟨rfl, none⟩ |
      ⟨rfl, none⟩ | ⟨rfl, none⟩ | ⟨i, rfl, lt, none⟩ | ⟨rfl, none⟩ | ⟨rfl, none⟩) <;>
      simp [hostRead, inRange, *]

/-- The categories of the legal codes (R34, R241). -/
theorem catOf_ofNat : ∀ n ≤ 0x10, (catOf (BitVec.ofNat 8 n)).map BitVec.toNat =
    some (if n = 0 then 0 else if n ∈ [1, 2, 3, 4] then 1 else if n ∈ [6, 7, 10, 11, 12, 13, 14] then 2 else 3) := by
  decide

/-- Settles O58: the read gives the category of the code. -/
theorem catIsAViewOfErr : Obligations.CatIsAViewOfErr := by
  intro s rest c idle pending err legal
  have cat := catOf_ofNat c.toNat legal
  rw [BitVec.ofNat_toNat, BitVec.setWidth_eq] at cat
  rw [step_notBusy idle pending]
  simp only [hostAct, hostRead, State.result_of_notBusy (s := s.nextAction rest) idle, State.nextAction_res, err,
    Option.bind_some, cat, need_some]
  rfl

end Sys2Proof.Machine
end

section
/-! PARSE_ATR (41_atr.md): one equation per outcome of the step of state `ATR`, for a TS and a T0 that are read from
`ATR_BUF` or given by a row. -/

namespace Sys2Proof.Machine

/-! ## The step, by its outcomes -/

/-- The class of byte 0, given or read. -/
def State.atrTs (ts : Option TsClass) (s : State) : Option TsClass := ts <|> (s.req.atrBuf.read 0).map tsClass

/-- Bit 4 of byte 1, given or read. -/
def State.atrT0 (t0 : Option Bool) (s : State) : Option Bool := t0 <|> (s.req.atrBuf.read 1).map t0DeclaresTa1

/-- The convention that a valid TS announces (R85). -/
def conventionOf : TsClass → Option Convention
  | .direct => some .direct
  | .inverse => some .inverse
  | .invalid => none

theorem atrByTs_of_convention {ts : TsClass} {conv : Convention} (announces : conventionOf ts = some conv) (s : State)
    (k : Convention → Result) : atrByTs ts s k = k conv := by
  cases ts <;> cases announces <;> rfl

section
variable {s : State} {n : Nat} {ts : Option TsClass} {t0 : Option Bool} {c : TsClass} {conv : Convention}

theorem atrStep_short (atrLen : s.req.atrLen = some n) (short : n < 2) : atrStep ts t0 s = atrWithoutTa1 .unknown s := by
  rw [atrStep, atrLen, need_some, if_pos short]

theorem atrStep_of_ts (atrLen : s.req.atrLen = some n) (two : 2 ≤ n) (tsEq : s.atrTs ts = some c) :
    atrStep ts t0 s = atrByTs c s (atrAfterTs n t0 s) := by
  rw [atrStep, atrLen, need_some, if_neg two.not_gt, ← State.atrTs, tsEq, need_some]

theorem atrStep_invalid (atrLen : s.req.atrLen = some n) (two : 2 ≤ n) (tsEq : s.atrTs ts = some .invalid) :
    atrStep ts t0 s = .next (s.fail .invalidInitialByte) :=
  atrStep_of_ts atrLen two tsEq

theorem atrStep_two (atrLen : s.req.atrLen = some n) (two : n = 2) (tsEq : s.atrTs ts = some c)
    (announces : conventionOf c = some conv) : atrStep ts t0 s = atrWithoutTa1 conv s := by
  rw [atrStep_of_ts atrLen two.ge tsEq, atrByTs_of_convention announces, atrAfterTs, if_pos (by omega)]

theorem atrStep_of_t0 {b : Bool} (atrLen : s.req.atrLen = some n) (three : 3 ≤ n) (tsEq : s.atrTs ts = some c)
    (announces : conventionOf c = some conv) (t0Eq : s.atrT0 t0 = some b) : atrStep ts t0 s = atrByT0 b conv s := by
  rw [atrStep_of_ts atrLen (by omega) tsEq, atrByTs_of_convention announces, atrAfterTs, if_neg three.not_gt,
    ← State.atrT0, t0Eq, need_some]

end

theorem atrWithTa1_of_read {s : State} {ta1 : Byte} (conv : Convention) (read : s.req.atrBuf.read 2 = some ta1) :
    atrWithTa1 conv s =
      .next (s.commit { s.res with conv := some conv.code, ta1Valid := some true, ta1 := some ta1 }) := by
  rw [atrWithTa1, read, need_some, succeed]

/-! ## The command and the rows -/

theorem exec_parseAtr_atr {s : State} (st : s.st = .atr) : exec .parseAtr s = atrStep none none s := by
  simp only [exec, execParseAtr, st]

theorem inAtr_of_st {s : State} (st : s.st = .atr) (r : Result) : inAtr s r = r := by
  simp only [inAtr, st]

theorem tsClass_invalid {ts : Byte} (notDirect : ts ≠ 0x3B#8) (notInverse : ts ≠ 0x3F#8) : tsClass ts = .invalid := by
  rw [tsClass, if_neg notDirect, if_neg notInverse]

/-- The two valid TS bytes with their `CONV` codes (R37, R85). -/
theorem tsClass_valid {ts : Byte} {c : BitVec 2} (valid : ts = 0x3B ∧ c = 1 ∨ ts = 0x3F ∧ c = 2) :
    ∃ conv : Convention, conventionOf (tsClass ts) = some conv ∧ conv.code = c := by
  obtain ⟨rfl, rfl⟩ | ⟨rfl, rfl⟩ := valid
  · exact ⟨.direct, rfl, rfl⟩
  · exact ⟨.inverse, rfl, rfl⟩

theorem State.atrTs_of_read {s : State} {ts : Byte} (read : s.req.atrBuf.read 0 = some ts) :
    s.atrTs none = some (tsClass ts) := by
  rw [State.atrTs, read]
  rfl

theorem State.atrT0_of_read {s : State} {t0 : Byte} (read : s.req.atrBuf.read 1 = some t0) :
    s.atrT0 none = some (t0.getLsbD 4) := by
  rw [State.atrT0, read, ← t0DeclaresTa1_eq_getLsbD]
  rfl

/-- Settles O24: the length, then the class of TS, then bit 4 of T0 pick the outcome. -/
theorem parseAtrStep : Obligations.ParseAtrStep := by
  intro s n st atrLen without
  rw [exec_parseAtr_atr st]
  refine ⟨fun short => atrStep_short atrLen short, fun ts two read notDirect notInverse => ?_, fun ts c read valid => ?_⟩
  · exact atrStep_invalid atrLen two ((State.atrTs_of_read read).trans (congrArg some (tsClass_invalid notDirect notInverse)))
  · obtain ⟨conv, announces, rfl⟩ := tsClass_valid valid
    have tsEq := State.atrTs_of_read read
    refine ⟨fun two => atrStep_two atrLen two tsEq announces, fun t0 three read => ?_⟩
    have byT0 := atrStep_of_t0 atrLen three tsEq announces (State.atrT0_of_read read)
    refine ⟨fun absent => ?_, fun ta1 present read => ?_⟩
    · rw [byT0, absent]
      rfl
    · rw [byT0, present]
      exact atrWithTa1_of_read conv read

/-- Settles O25: a TS row gives the class of byte 0, and T0 is read as in the command's step. -/
theorem tsRowsInAtr : Obligations.TsRowsInAtr := by
  intro s n ts st atrLen without
  have direct : exec .tsDirect s = atrStep (some .direct) none s := inAtr_of_st st _
  have inverse : exec .tsInverse s = atrStep (some .inverse) none s := inAtr_of_st st _
  have invalid : exec (.tsInvalid ts) s = atrStep (some .invalid) none s := inAtr_of_st st _
  rw [direct, inverse, invalid]
  refine ⟨fun short => ?_, fun two => atrStep_invalid atrLen two rfl, fun two => ?_, fun t0 three read => ?_⟩
  · exact ⟨atrStep_short atrLen short, atrStep_short atrLen short, atrStep_short atrLen short⟩
  · exact ⟨atrStep_two (conv := .direct) atrLen two rfl rfl, atrStep_two (conv := .inverse) atrLen two rfl rfl⟩
  · have t0Eq := State.atrT0_of_read read
    have byT0Direct := atrStep_of_t0 (ts := some .direct) atrLen three rfl rfl t0Eq
    have byT0Inverse := atrStep_of_t0 (ts := some .inverse) atrLen three rfl rfl t0Eq
    refine ⟨fun absent => ?_, fun ta1 present read => ?_⟩
    · rw [byT0Direct, byT0Inverse, absent]
      exact ⟨rfl, rfl⟩
    · rw [byT0Direct, byT0Inverse, present]
      exact ⟨atrWithTa1_of_read .direct read, atrWithTa1_of_read .inverse read⟩

/-- Settles O26: a T0 row gives bit 4 of byte 1, and TS is read as in the command's step. -/
theorem t0RowsInAtr : Obligations.T0RowsInAtr := by
  intro s n hi lo st atrLen without
  have present : exec (.t0Ta1Present hi lo) s = atrStep none (some true) s := inAtr_of_st st _
  have absent : exec (.t0Ta1Absent hi lo) s = atrStep none (some false) s := inAtr_of_st st _
  rw [present, absent]
  refine ⟨fun short => ⟨atrStep_short atrLen short, atrStep_short atrLen short⟩,
    fun ts two read notDirect notInverse => ?_, fun ts c read valid => ?_⟩
  · have tsEq := (State.atrTs_of_read read).trans (congrArg some (tsClass_invalid notDirect notInverse))
    exact ⟨atrStep_invalid atrLen two tsEq, atrStep_invalid atrLen two tsEq⟩
  · obtain ⟨conv, announces, rfl⟩ := tsClass_valid valid
    have tsEq := State.atrTs_of_read read
    refine ⟨fun two => ⟨atrStep_two atrLen two tsEq announces, atrStep_two atrLen two tsEq announces⟩,
      fun three => atrStep_of_t0 (b := false) atrLen three tsEq announces rfl, fun ta1 three read => ?_⟩
    exact (atrStep_of_t0 (b := true) atrLen three tsEq announces rfl).trans (atrWithTa1_of_read conv read)

end Sys2Proof.Machine
end

section
/-! NEGOTIATE_PPS (42_pps.md): the steps of `PPS_RECV` and `PPS_CHECK`, the PPS_FRAME row, and a whole negotiation put
together from its steps. -/

namespace Sys2Proof.Machine

/-! ## The step of each state -/

theorem exec_negotiatePps_ppsRecv {s : State} (st : s.st = .ppsRecv) : exec .negotiatePps s = ppsReceive s := by
  simp only [exec, execNegotiatePps, st]

theorem exec_negotiatePps_ppsCheck {s : State} {response : List Byte} (st : s.st = .ppsCheck)
    (read : s.work.ppsRsp.readBytes 0 4 = some response) : exec .negotiatePps s = ppsCompare response s := by
  simp only [exec, execNegotiatePps, st, read, need_some]

theorem State.afterRecv_of_answer {s : State} {n : Nat} {answer : Option (List Byte)} (received : s.recvAnswer n = answer) :
    s.afterRecv n = { s with port := s.port.after (.recv n answer) } := by
  rw [State.afterRecv, received]

/-- R163: four bytes are kept as the response. -/
theorem ppsReceive_of_frame {s : State} {r : List Byte} (received : s.recvAnswer 4 = some r) (four : r.length = 4) :
    ppsReceive s = .next { s with
      st := .ppsCheck
      work := { s.work with ppsRsp := Memory.ofBytes r }
      port := s.port.after (.recv 4 (some r)) } := by
  simp only [ppsReceive, received, if_neg four.not_lt, State.afterRecv]
  rfl

/-- R163: an error and fewer than four bytes end the negotiation. -/
theorem ppsReceive_of_noFrame {s : State} {answer : Option (List Byte)} (received : s.recvAnswer 4 = answer)
    (short : ∀ r, answer = some r → r.length < 4) :
    ppsReceive s = .next ({ s with port := s.port.after (.recv 4 answer) }.fail .noResponse) := by
  rw [ppsReceive, State.afterRecv_of_answer received, received]
  cases answer with
  | none => rfl
  | some r => exact if_pos (short r rfl)

theorem ppsCompare_of_read {s : State} {request : List Byte} (response : List Byte)
    (read : s.work.ppsReq.readBytes 0 4 = some request) :
    ppsCompare response s = if response = request then .next (s.commit s.res) else .next (s.fail .mismatch) := by
  rw [ppsCompare, read, need_some, succeed, raise]

/-- Settles O29: the one `Recv(4)` gives four bytes or not. -/
theorem ppsReceiveStep : Obligations.PpsReceiveStep := by
  intro s st received
  rw [exec_negotiatePps_ppsRecv st]
  refine ⟨fun b0 b1 b2 b3 more ok => ?_, fun bs ok short => ?_, fun err => ?_⟩
  · exact ppsReceive_of_frame (State.recvAnswer_ok 4 ok) rfl
  · have received : s.recvAnswer 4 = some bs := by rw [State.recvAnswer_ok 4 ok, List.take_of_length_le short.le]
    exact ppsReceive_of_noFrame received fun r eq => Option.some.inj eq ▸ short
  · exact ppsReceive_of_noFrame (State.recvAnswer_err 4 err) nofun

/-- Settles O30: the response is compared with the request. -/
theorem ppsCheckStep : Obligations.PpsCheckStep := by
  intro s request response st readReq readRsp
  have step := (exec_negotiatePps_ppsCheck st readRsp).trans (ppsCompare_of_read response readReq)
  exact ⟨fun same => step.trans (if_pos same), fun other => step.trans (if_neg other)⟩

/-- Settles O31: the row's frame is sent, or compared with the request. -/
theorem ppsFrameRow : Obligations.PpsFrameRow := by
  intro s p frame sent
  have send (st : s.st = .ppsSend) : exec (.ppsFrame p) s = ppsSendFrame frame s := by
    simp only [exec, execPpsFrame, st]
    rfl
  refine ⟨fun bs st ok => (send st).trans (ppsSendFrame_of_ok ok frame),
    fun st err => (send st).trans (ppsSendFrame_of_err err frame), fun request st read => ?_⟩
  have compare : exec (.ppsFrame p) s = ppsCompare frame s := by
    simp only [exec, execPpsFrame, st]
    rfl
  have compare := compare.trans (ppsCompare_of_read frame read)
  exact ⟨fun same => compare.trans (if_pos same.symm), fun other => compare.trans (if_neg (Ne.symm other))⟩

/-! ## A whole negotiation -/

theorem run_done {s : State} (n : Nat) (st : s.st = .done) (pending : s.host.pending = []) : core.run n s = .next s := by
  induction n with
  | zero => rfl
  | succ n ih =>
    have step : step s = .next s := by rw [step_noAction pending, engineStep, st]; rfl
    exact (run_succ_of_next (M := core) n step).trans ih

/-- With no host action pending, a run goes on from the negotiation's own step. -/
theorem run_negotiatePps {s u : State} (n : Nat) (pending : s.host.pending = [])
    (own : s.st.operation = some .negotiatePps) (next : exec .negotiatePps s = .next u) :
    core.run (n + 1) s = core.run n u := by
  refine run_succ_of_next (M := core) n ((step_noAction pending).trans ?_)
  rw [engineStep, own]
  exact next

theorem run_fromPpsCheck {s : State} {request response : List Byte} (st : s.st = .ppsCheck) (pending : s.host.pending = [])
    (readReq : s.work.ppsReq.readBytes 0 4 = some request) (readRsp : s.work.ppsRsp.readBytes 0 4 = some response) :
    ∃ t, core.run 1 s = .next t ∧ t.st = .done ∧ (t.res.err = some 0x00 ↔ response = request) ∧
      t.res = { s.res with err := t.res.err } ∧ t.port = s.port := by
  have compare := (exec_negotiatePps_ppsCheck st readRsp).trans (ppsCompare_of_read response readReq)
  have run {u : State} (next : exec .negotiatePps s = .next u) : core.run 1 s = .next u :=
    run_negotiatePps 0 pending (congrArg St.operation st) next
  by_cases same : response = request
  · exact ⟨_, run (compare.trans (if_pos same)), rfl, ⟨fun _ => same, fun _ => rfl⟩, rfl, rfl⟩
  · exact ⟨_, run (compare.trans (if_neg same)), rfl, ⟨nofun, (absurd · same)⟩, rfl, rfl⟩

/-- The second half of a negotiation: its one `Recv(4)`, and the comparison where four bytes came. -/
theorem run_fromPpsRecv {s : State} {frame : List Byte} {a : TransportAnswer} (st : s.st = .ppsRecv)
    (pending : s.host.pending = []) (request : s.work.ppsReq.readBytes 0 4 = some frame) (answered : s.answer = a) :
    ∃ t answer, core.run 2 s = .next t ∧ t.st = .done ∧
      (t.res.err = some 0x00 ↔ ∃ bs, a = TransportAnswer.ok bs ∧ bs.take 4 = frame) ∧
      t.res = { s.res with err := t.res.err } ∧ t.port.trace = s.port.trace ++ [.recv 4 answer] := by
  have run {u : State} (next : ppsReceive s = .next u) : core.run 2 s = core.run 1 u :=
    run_negotiatePps 1 pending (congrArg St.operation st) ((exec_negotiatePps_ppsRecv st).trans next)
  cases a with
  | err =>
    have next := ppsReceive_of_noFrame (State.recvAnswer_err 4 answered) nofun
    exact ⟨_, none, (run next).trans (run_done 1 rfl pending), rfl, ⟨nofun, nofun⟩, rfl, rfl⟩
  | ok bs =>
    have received : s.recvAnswer 4 = some (bs.take 4) := State.recvAnswer_ok 4 answered
    have echo : (∃ bs', TransportAnswer.ok bs = .ok bs' ∧ bs'.take 4 = frame) ↔ bs.take 4 = frame := by simp
    rw [echo]
    by_cases four : (bs.take 4).length = 4
    · have next := ppsReceive_of_frame received four
      have kept : (Memory.ofBytes (bs.take 4)).readBytes 0 4 = some (bs.take 4) := by
        simpa only [four] using Memory.readBytes_ofBytes (bs.take 4)
      obtain ⟨t, run', done, err, res, port⟩ := run_fromPpsCheck (s := { s with
        st := .ppsCheck
        work := { s.work with ppsRsp := Memory.ofBytes (bs.take 4) }
        port := s.port.after (.recv 4 (some (bs.take 4))) }) rfl pending request kept
      exact ⟨t, some (bs.take 4), (run next).trans run', done, err, res, congrArg Port.trace port⟩
    · have short : (bs.take 4).length < 4 := (List.length_take_le 4 bs).lt_of_ne four
      have next := ppsReceive_of_noFrame received fun r eq => Option.some.inj eq ▸ short
      refine ⟨_, some (bs.take 4), (run next).trans (run_done 1 rfl pending), rfl, ⟨nofun, fun same => ?_⟩, rfl, rfl⟩
      exact absurd (same ▸ Memory.readBytes_length request) four

/-- The `CMD` write that issues a negotiation. -/
theorem step_issuePps {s : State} {p : Byte} (idle : s.busy = false) (pps1 : s.req.pps1 = some p)
    (pending : s.host.pending = [.writeCmd 0x04]) :
    step s = .next ((((s.nextAction []).issue .ppsSend).setWork (Working.framing p)).reply (.writeCmd 0x04) .accepted) := by
  have ⟨_, _, _, command, _⟩ := command_notBusy (s := s.nextAction []) idle
  rw [step_writeCmd idle pending, commandWrite_of_decode (i := .negotiatePps) (rest := []) _ rfl, command,
    ppsIssue_of_pps1 (s := s.nextAction []) pps1]
  rfl

/-- Settles O32: the `CMD` write issues the negotiation, the one `Send` fails or goes on, and the second half ends it. -/
theorem negotiationSucceedsOnlyOnEcho : Obligations.NegotiationSucceedsOnlyOnEcho := by
  intro s p a1 a2 rest idle pps1 pending answers frame
  let u := (((s.nextAction []).issue .ppsSend).setWork (Working.framing p)).reply (.writeCmd 0x04) .accepted
  have issue : core.run 4 s = core.run 3 u := run_succ_of_next (M := core) 3 (step_issuePps idle pps1 pending)
  have request : u.work.ppsReq.readBytes 0 4 = some frame := Memory.readBytes_ofBytes (ppsFrameBytes p)
  have answered : u.answer = a1 := State.answer_cons answers
  have send : exec .negotiatePps u = ppsSendFrame frame u := exec_negotiatePps_ppsSend rfl request
  cases a1 with
  | err =>
    have next := send.trans (ppsSendFrame_of_err answered frame)
    have run := issue.trans ((run_negotiatePps 2 rfl rfl next).trans (run_done 2 rfl rfl))
    exact ⟨_, run, rfl, ⟨nofun, nofun⟩, rfl, false, .inl rfl⟩
  | ok bs =>
    have next := send.trans (ppsSendFrame_of_ok answered frame)
    obtain ⟨t, answer, run, done, err, res, trace⟩ := run_fromPpsRecv
      (s := { u with st := .ppsRecv, port := u.port.after (.send frame true) }) rfl rfl request
      (State.answer_cons (congrArg List.tail answers))
    refine ⟨t, issue.trans ((run_negotiatePps 2 rfl rfl next).trans run), done, err.trans ?_, res, true, .inr ⟨answer, ?_⟩⟩
    · exact (and_iff_right ⟨bs, rfl⟩).symm
    · exact trace.trans (List.append_assoc s.port.trace _ _)

end Sys2Proof.Machine
end

section
/-! Every step goes on or faults, and a busy state of the invariant does not fault (R253, R284). -/

namespace Sys2Proof.Machine

/-! ## No step ends in a refusal -/

theorem need_ne_refused {α : Type} {r : Reg} {o : Option α} {k : α → Result} {f : Refusal}
    (goesOn : ∀ a, k a ≠ .refused f) : need r o k ≠ .refused f :=
  fun h => have ⟨a, _, refused⟩ := need_eq_refused.1 h
  goesOn a refused

theorem memWrite_ne_refused {r : Reg} {capacity i : Nat} {m : Memory} {bs : List Byte} {k : Memory → Result} {f : Refusal}
    (goesOn : ∀ m, k m ≠ .refused f) : memWrite r capacity m i bs k ≠ .refused f :=
  fun h => goesOn _ (memWrite_eq_refused.1 h).2

theorem sw1Byte_ne_refused (b : Byte) (s : State) (f : Refusal) : sw1Byte b s ≠ .refused f := by
  refine need_ne_refused fun tx => need_ne_refused fun rx => ?_
  dsimp only
  split <;> nofun

theorem procedureByte_ne_refused {s : State} (st : s.st = .apProc) (ins b : Byte) (f : Refusal) :
    procedureByte ins b s ≠ .refused f := by
  unfold procedureByte execPbNull execPbAck execPbSw16x execPbSw19x execPbInvalid
  simp only [inApProc_of_st st]
  split
  · nofun
  · nofun
  · exact sw1Byte_ne_refused _ s f
  · exact sw1Byte_ne_refused _ s f
  · nofun

theorem decodeIndices_ne_refused (i j : Nibble) (s : State) (f : Refusal) : decodeIndices i j s ≠ .refused f := by
  unfold decodeIndices
  split <;> nofun

theorem encodeParameters_ne_refused (fi di fmax : Word) (s : State) (f : Refusal) :
    encodeParameters fi di fmax s ≠ .refused f := by
  unfold encodeParameters
  split
  · nofun
  · split <;> nofun

theorem atrAfterTs_ne_refused (n : Nat) (t0 : Option Bool) (s : State) (conv : Convention) (f : Refusal) :
    atrAfterTs n t0 s conv ≠ .refused f := by
  unfold atrAfterTs
  split
  · nofun
  · refine need_ne_refused fun declares => ?_
    cases declares
    · nofun
    · exact need_ne_refused nofun

theorem atrStep_ne_refused (ts : Option TsClass) (t0 : Option Bool) (s : State) (f : Refusal) :
    atrStep ts t0 s ≠ .refused f := by
  refine need_ne_refused fun n => ?_
  split
  · nofun
  · refine need_ne_refused fun ts => ?_
    cases ts
    · exact atrAfterTs_ne_refused n t0 s _ f
    · exact atrAfterTs_ne_refused n t0 s _ f
    · nofun

theorem ppsSendFrame_ne_refused (frame : List Byte) (s : State) (f : Refusal) : ppsSendFrame frame s ≠ .refused f := by
  unfold ppsSendFrame
  split <;> nofun

theorem ppsReceive_ne_refused (s : State) (f : Refusal) : ppsReceive s ≠ .refused f := by
  unfold ppsReceive
  split
  · nofun
  · split <;> nofun

theorem ppsCompare_ne_refused (response : List Byte) (s : State) (f : Refusal) : ppsCompare response s ≠ .refused f := by
  refine need_ne_refused fun request => ?_
  split <;> nofun

theorem apCheck_ne_refused (s : State) (f : Refusal) : apCheck s ≠ .refused f := by
  refine need_ne_refused fun tx => need_ne_refused fun rx => ?_
  dsimp only
  split <;> nofun

theorem apHdr_ne_refused (s : State) (f : Refusal) : apHdr s ≠ .refused f := by
  refine need_ne_refused fun header => ?_
  split <;> nofun

theorem apProc_ne_refused {s : State} (st : s.st = .apProc) (f : Refusal) : apProc s ≠ .refused f := by
  unfold apProc
  split
  · exact need_ne_refused fun ins => procedureByte_ne_refused (s := s.afterRecv 1) st ins _ f
  · nofun

theorem apAck_ne_refused (s : State) (f : Refusal) : apAck s ≠ .refused f := by
  refine need_ne_refused fun tx => need_ne_refused fun rx => ?_
  dsimp only
  split_ifs
  · refine need_ne_refused fun data => ?_
    dsimp only
    split <;> nofun
  · unfold apAckReceive
    split
    · nofun
    · exact memWrite_ne_refused nofun
  · nofun

theorem apSw_ne_refused (s : State) (f : Refusal) : apSw s ≠ .refused f := by
  unfold apSw
  split
  · exact need_ne_refused fun k => need_ne_refused fun data => memWrite_ne_refused nofun
  · nofun

theorem apSw2_ne_refused (s : State) (f : Refusal) : apSw2 s ≠ .refused f := by
  unfold apSw2
  split
  · exact need_ne_refused nofun
  · nofun

/-- In a state of its own operation a command is never refused. -/
theorem exec_ne_refused {s : State} {i : Instr} (op : s.st.operation = some i) (f : Refusal) : exec i s ≠ .refused f := by
  cases st : s.st <;> rw [st] at op <;> cases op <;>
    simp only [exec, execDecode, execParamByte, execEncode, execParseAtr, execNegotiatePps, execApduExchange, st]
  case dec => exact need_ne_refused fun b => decodeIndices_ne_refused _ _ s f
  case enc =>
    exact need_ne_refused fun fi => need_ne_refused fun di => need_ne_refused fun fmax =>
      encodeParameters_ne_refused fi di fmax s f
  case atr => exact atrStep_ne_refused none none s f
  case ppsSend => exact need_ne_refused fun frame => ppsSendFrame_ne_refused frame s f
  case ppsRecv => exact ppsReceive_ne_refused s f
  case ppsCheck => exact need_ne_refused fun response => ppsCompare_ne_refused response s f
  case apCheck => exact apCheck_ne_refused s f
  case apHdr => exact apHdr_ne_refused s f
  case apProc => exact apProc_ne_refused st f
  case apAck => exact apAck_ne_refused s f
  case apSw => exact apSw_ne_refused s f
  case apSw2 => exact apSw2_ne_refused s f

theorem engineStep_ne_refused (s : State) (f : Refusal) : engineStep s ≠ .refused f := by
  unfold engineStep
  split
  · next op => exact exec_ne_refused op f
  · nofun

theorem issueCommand_refused_host {i : Instr} {x : St} {s : State} {f : Refusal}
    (refused : issueCommand i x s = .refused f) : ∃ r, f = .host r := by
  unfold issueCommand at refused
  split at refused
  · cases refused
  · exact ⟨_, (Host.Outcome.refused.inj refused).symm⟩

theorem ppsIssue_refused_host {s : State} {f : Refusal} (refused : ppsIssue s = .refused f) : ∃ r, f = .host r := by
  unfold ppsIssue at refused
  split at refused
  · exact ⟨_, (Host.Outcome.refused.inj refused).symm⟩
  · exact absurd refused (need_ne_refused nofun)

/-- While the engine is not busy, a `CMD` write is refused only for one of the host's reasons. -/
theorem commandWrite_refused_host {c : Byte} {s : State} {f : Refusal} (idle : s.busy = false)
    (refused : commandWrite c s = .refused f) : ∃ r, f = .host r := by
  obtain ⟨hDecode, hEncode, hAtr, hPps, hApdu⟩ := command_notBusy idle
  cases command : commandOf c with
  | none =>
    rw [commandWrite_of_reserved s command] at refused
    exact ⟨_, (Host.Outcome.refused.inj refused).symm⟩
  | some i =>
    have decoded : decode .hostCommand [c] = .ok i [] := by rw [decode, command]
    rw [commandWrite_of_decode s decoded] at refused
    unfold commandOf at command
    split_ifs at command <;> obtain rfl := Option.some.inj command
    · exact issueCommand_refused_host (hDecode.symm.trans refused)
    · exact issueCommand_refused_host (hEncode.symm.trans refused)
    · exact issueCommand_refused_host (hAtr.symm.trans refused)
    · exact ppsIssue_refused_host (hPps.symm.trans refused)
    · exact issueCommand_refused_host (hApdu.symm.trans refused)

theorem unlessBusy_ne_refused {a : HostAction} {s : State} {k : Result} {f : Refusal}
    (goesOn : s.busy = false → k ≠ .refused f) : unlessBusy a s k ≠ .refused f := by
  cases busy : s.busy with
  | true => rw [unlessBusy_busy busy]; nofun
  | false => rw [unlessBusy_idle busy]; exact goesOn busy

/-- The host's refusals are settled with the host. -/
theorem settle_ne_refused {a : HostAction} {s : State} {r : Result} {f : Refusal}
    (host : ∀ f, r = .refused f → ∃ h, f = .host h) : settle a s r ≠ .refused f := by
  cases r with
  | next t => nofun
  | fault g => nofun
  | refused g =>
    obtain ⟨h, rfl⟩ := host g rfl
    nofun

theorem hostRead_ne_refused (r : Reg) (s : State) (f : Refusal) : hostRead r s ≠ .refused f := by
  cases r <;> simp only [hostRead]
  case rxBuf i =>
    unfold inRange
    split
    · exact need_ne_refused nofun
    · nofun
  case inByte | atrLen | atrBuf | pps1 | txLen | txBuf | rxLen | cmd | ppsReq | ppsRsp | pb | k | dataTmp => nofun
  all_goals exact need_ne_refused nofun

theorem hostAct_ne_refused (a : HostAction) (s : State) (f : Refusal) : hostAct a s ≠ .refused f := by
  cases a with
  | setInByte v | setAtrLen v | setPps1 v | setTxLen v | setRxLen v | setup c =>
    exact unlessBusy_ne_refused fun _ => nofun
  | setInFi v | setInDi v | setInFmax v =>
    refine unlessBusy_ne_refused fun _ => ?_
    split <;> nofun
  | setAtrBuf bs | writeAtrBuf i bs | setTxBuf bs | writeTxBuf i bs =>
    exact unlessBusy_ne_refused fun _ => memWrite_ne_refused nofun
  | writeCmd c =>
    exact unlessBusy_ne_refused fun idle => settle_ne_refused fun _ => commandWrite_refused_host idle
  | read r => exact hostRead_ne_refused r s f
  | awaitDone | powerOn => nofun

/-- Settles O48: the engine takes a step of its own operation, and what refuses a command is answered to the host. -/
theorem stepNeverEndsInRefusal : Obligations.StepNeverEndsInRefusal := by
  intro s f
  obtain ⟨u, -, engine⟩ | ⟨a, rest, u, -, -, host⟩ := step_cases s
  · exact engine ▸ engineStep_ne_refused u f
  · exact host ▸ hostAct_ne_refused a _ f

/-! ## No busy state is stuck -/

theorem exists_decodeIndices (i j : Nibble) (s : State) : ∃ t, decodeIndices i j s = .next t := by
  unfold decodeIndices
  split <;> exact ⟨_, rfl⟩

theorem exists_encodeParameters (fi di fmax : Word) (s : State) : ∃ t, encodeParameters fi di fmax s = .next t := by
  unfold encodeParameters
  split
  · exact ⟨_, rfl⟩
  · split <;> exact ⟨_, rfl⟩

/-- The `ATR` step reads no more bytes than the check of R96 demands. -/
theorem exists_atrStep {s : State} (checked : wfAtr s = true) : ∃ t, atrStep none none s = .next t := by
  obtain ⟨n, atrLen, -, read⟩ := wfAtr_iff.1 checked
  obtain short | two := Nat.lt_or_ge n 2
  · exact ⟨_, atrStep_short atrLen short⟩
  obtain ⟨ts, read0⟩ := Option.isSome_iff_exists.1 (read 0 (by omega))
  have tsEq := State.atrTs_of_read read0
  cases announces : conventionOf (tsClass ts) with
  | none =>
    have invalid : tsClass ts = .invalid := by cases h : tsClass ts <;> simp [h, conventionOf] at announces ⊢
    exact ⟨_, atrStep_invalid atrLen two (tsEq.trans (congrArg some invalid))⟩
  | some conv =>
    obtain two | three := two.eq_or_lt
    · exact ⟨_, atrStep_two atrLen two.symm tsEq announces⟩
    obtain ⟨t0, read1⟩ := Option.isSome_iff_exists.1 (read 1 (by omega))
    obtain ⟨ta1, read2⟩ := Option.isSome_iff_exists.1 (read 2 (by omega))
    rw [atrStep_of_t0 atrLen three tsEq announces (State.atrT0_of_read read1)]
    cases t0.getLsbD 4
    · exact ⟨_, rfl⟩
    · exact ⟨_, atrWithTa1_of_read conv read2⟩

theorem exists_ppsSendFrame (frame : List Byte) (s : State) : ∃ t, ppsSendFrame frame s = .next t := by
  unfold ppsSendFrame
  split <;> exact ⟨_, rfl⟩

theorem exists_ppsReceive (s : State) : ∃ t, ppsReceive s = .next t := by
  unfold ppsReceive
  split
  · exact ⟨_, rfl⟩
  · split <;> exact ⟨_, rfl⟩

theorem exists_ppsCompare {s : State} {request : List Byte} (response : List Byte)
    (read : s.work.ppsReq.readBytes 0 4 = some request) : ∃ t, ppsCompare response s = .next t := by
  rw [ppsCompare, read, need_some]
  split <;> exact ⟨_, rfl⟩

theorem exists_procedureByte {s : State} {tx rx : Nat} (st : s.st = .apProc) (txLen : s.req.txLen = some tx)
    (rxLen : s.req.rxLen = some rx) (ins b : Byte) : ∃ t, procedureByte ins b s = .next t := by
  have sw1 (b : Byte) : ∃ t, sw1Byte b s = .next t := by
    rw [sw1Byte_of_lengths txLen rxLen]
    split <;> exact ⟨_, rfl⟩
  unfold procedureByte execPbNull execPbAck execPbSw16x execPbSw19x execPbInvalid
  simp only [inApProc_of_st st]
  split
  · exact ⟨_, rfl⟩
  · exact ⟨_, rfl⟩
  · exact sw1 _
  · exact sw1 _
  · exact ⟨_, rfl⟩

theorem exists_apProc {s : State} {tx rx : Nat} {ins : Byte} (st : s.st = .apProc) (txLen : s.req.txLen = some tx)
    (rxLen : s.req.rxLen = some rx) (read : s.req.txBuf.read 1 = some ins) : ∃ t, apProc s = .next t := by
  unfold apProc
  split
  · rw [needIns, read, need_some]
    exact exists_procedureByte (s := s.afterRecv 1) st txLen rxLen ins _
  · exact ⟨_, rfl⟩

theorem exists_apAck {s : State} {tx rx : Nat} (txLen : s.req.txLen = some tx) (rxLen : s.req.rxLen = some rx)
    (fits : rx ≤ s.cfg.rxMax) (read : (s.req.txBuf.readBytes 5 (tx - 5)).isSome = true) : ∃ t, apAck s = .next t := by
  simp only [apAck, needLengths, txLen, rxLen, need_some]
  split_ifs
  · obtain ⟨data, read⟩ := Option.isSome_iff_exists.1 read
    rw [apAckSend, needData, read, need_some]
    split <;> exact ⟨_, rfl⟩
  · unfold apAckReceive
    split
    · exact ⟨_, rfl⟩
    · next r received =>
      have inRange : 0 + r.length ≤ s.cfg.rxMax := by
        rw [Nat.zero_add]
        exact (State.recvAnswer_length received).trans fits
      exact ⟨_, memWrite_eq_next.2 ⟨inRange, rfl⟩⟩
  · exact ⟨_, rfl⟩

theorem exists_apSw {s : State} {n : Nat} (count : s.work.k = some n) (holds : Memory.holds n s.work.dataTmp = true)
    (fits : n ≤ s.cfg.rxMax) : ∃ t, apSw s = .next t := by
  unfold apSw
  split
  · obtain ⟨data, read⟩ := Option.isSome_iff_exists.1 (Memory.readBytes_of_holds holds)
    have inRange : 0 + data.length ≤ s.cfg.rxMax := by rwa [Nat.zero_add, Memory.readBytes_length read]
    simp only [apCommit, State.afterRecv_work, State.afterRecv_cfg, State.afterRecv_res, count, read, need_some]
    exact ⟨_, memWrite_eq_next.2 ⟨inRange, rfl⟩⟩
  · exact ⟨_, rfl⟩

theorem exists_apSw2 {s : State} {pb : Byte} (held : s.work.pb = some pb) : ∃ t, apSw2 s = .next t := by
  unfold apSw2
  split
  · simp only [held, need_some]
    exact ⟨_, rfl⟩
  · exact ⟨_, rfl⟩

/-- The checks and the request of an exchange hold everything its states read. -/
theorem State.apdu_written {s : State} (checked : failedCheck .apduExchange s = none) :
    ∃ tx rx, s.req.txLen = some tx ∧ s.req.rxLen = some rx ∧ 5 ≤ tx ∧ rx ≤ s.cfg.rxMax ∧
      ∀ j, j < tx → (s.req.txBuf.read j).isSome = true := by
  obtain ⟨hdr, len, buf⟩ := failedCheck_apduExchange_eq_none.1 checked
  obtain ⟨tx, rx, txLen, rxLen, -, fits⟩ := wfApduLen_iff.1 len
  obtain ⟨tx₁, txLen₁, ge⟩ := wfApduHdr_iff.1 hdr
  obtain ⟨tx₂, txLen₂, written⟩ := wfApduBuf_iff.1 buf
  obtain rfl : tx = tx₁ := Option.some.inj (txLen.symm.trans txLen₁)
  obtain rfl : tx = tx₂ := Option.some.inj (txLen.symm.trans txLen₂)
  exact ⟨tx, rx, txLen, rxLen, ge, fits, fun j lt => by simpa using Memory.readBytes_isSome.1 written j lt⟩

theorem failedCheck_decode_eq_none {s : State} : failedCheck .decode s = none ↔ s.req.inByte.isSome = true := by
  rw [failedCheck, wfDecode]
  cases s.req.inByte.isSome <;> simp

theorem failedCheck_encode_eq_none {s : State} : failedCheck .encode s = none ↔ wfEncode s = true := by
  simp [failedCheck]

theorem failedCheck_parseAtr_eq_none {s : State} : failedCheck .parseAtr s = none ↔ wfAtr s = true := by
  simp [failedCheck]

theorem exec_apduExchange_apAck {s : State} (st : s.st = .apAck) : exec .apduExchange s = apAck s := by
  simp only [exec, execApduExchange, st]

theorem exec_apduExchange_apSw {s : State} (st : s.st = .apSw) : exec .apduExchange s = apSw s := by
  simp only [exec, execApduExchange, st]

theorem exec_apduExchange_apSw2 {s : State} (st : s.st = .apSw2) : exec .apduExchange s = apSw2 s := by
  simp only [exec, execApduExchange, st]

/-- A busy state of the invariant answers a next state (R284): what its step reads is written. -/
theorem State.Inv.exists_engineStep {s : State} (inv : s.Inv) (busy : s.busy = true) : ∃ t, engineStep s = .next t := by
  have own {x : St} {i : Instr} (st : s.st = x) (op : x.operation = some i) (goesOn : ∃ t, exec i s = .next t) :
      ∃ t, engineStep s = .next t := by rwa [engineStep_of_operation (st ▸ op : s.st.operation = some i)]
  have apdu {x : St} (st : s.st = x) (op : x.operation = some .apduExchange) (request : s.apduRequest = true)
      (goesOn : ∀ tx rx, s.req.txLen = some tx → s.req.rxLen = some rx → 5 ≤ tx → rx ≤ s.cfg.rxMax →
        (∀ j, j < tx → (s.req.txBuf.read j).isSome = true) → ∃ t, exec .apduExchange s = .next t) :
      ∃ t, engineStep s = .next t :=
    have ⟨tx, rx, txLen, rxLen, ge, fits, written⟩ := State.apdu_written (State.apduRequest_iff.1 request).1
    own st op (goesOn tx rx txLen rxLen ge fits written)
  cases st : s.st with
  | idle => simp [State.busy, st, St.busy] at busy
  | done => simp [State.busy, st, St.busy] at busy
  | dec =>
    obtain ⟨checked, -⟩ := inv.premise_of_st st
    obtain ⟨b, inByte⟩ := Option.isSome_iff_exists.1 (failedCheck_decode_eq_none.1 checked)
    exact own st rfl (exec_decode_dec st inByte ▸ exists_decodeIndices _ _ s)
  | enc =>
    obtain ⟨checked, -⟩ := inv.premise_of_st st
    obtain ⟨⟨fi, inFi⟩, ⟨di, inDi⟩, fmax, inFmax⟩ := wfEncode_iff.1 (failedCheck_encode_eq_none.1 checked)
    exact own st rfl (exec_encode_enc st inFi inDi inFmax ▸ exists_encodeParameters fi di fmax s)
  | atr =>
    obtain ⟨checked, -⟩ := inv.premise_of_st st
    exact own st rfl (exec_parseAtr_atr st ▸ exists_atrStep (failedCheck_parseAtr_eq_none.1 checked))
  | ppsSend =>
    obtain ⟨p, -, frame⟩ := inv.premise_of_st st
    have request : s.work.ppsReq.readBytes 0 4 = some (ppsFrameBytes p) :=
      frame ▸ Memory.readBytes_ofBytes (ppsFrameBytes p)
    exact own st rfl (exec_negotiatePps_ppsSend st request ▸ exists_ppsSendFrame _ s)
  | ppsRecv => exact own st rfl (exec_negotiatePps_ppsRecv st ▸ exists_ppsReceive s)
  | ppsCheck =>
    obtain ⟨p, rsp, -, frame, holds⟩ := inv.premise_of_st st
    have request : s.work.ppsReq.readBytes 0 4 = some (ppsFrameBytes p) :=
      frame ▸ Memory.readBytes_ofBytes (ppsFrameBytes p)
    obtain ⟨response, read⟩ := Option.isSome_iff_exists.1 (Memory.readBytes_of_holds holds)
    have read : s.work.ppsRsp.readBytes 0 4 = some response := frame ▸ read
    exact own st rfl (exec_negotiatePps_ppsCheck st read ▸ exists_ppsCompare response request)
  | apCheck =>
    obtain ⟨checked, -⟩ := inv.premise_of_st st
    obtain ⟨tx, rx, txLen, rxLen, -⟩ := State.apdu_written checked
    refine own st rfl (exec_apduExchange_apCheck st txLen rxLen ▸ ?_)
    split <;> exact ⟨_, rfl⟩
  | apHdr =>
    obtain ⟨request, -⟩ := inv.premise_of_st st
    refine apdu st rfl request fun tx rx txLen rxLen ge fits written => ?_
    have header : (s.req.txBuf.readBytes 0 5).isSome = true :=
      Memory.readBytes_isSome.2 fun j lt => by simpa using written j (by omega)
    obtain ⟨header, read⟩ := Option.isSome_iff_exists.1 header
    rw [exec_apduExchange_apHdr st read]
    split <;> exact ⟨_, rfl⟩
  | apProc =>
    obtain ⟨request, -⟩ := inv.premise_of_st st
    refine apdu st rfl request fun tx rx txLen rxLen ge fits written => ?_
    obtain ⟨ins, read⟩ := Option.isSome_iff_exists.1 (written 1 (by omega))
    exact exec_apduExchange_apProc st ▸ exists_apProc st txLen rxLen read
  | apAck =>
    obtain ⟨request, -⟩ := inv.premise_of_st st
    refine apdu st rfl request fun tx rx txLen rxLen ge fits written => ?_
    exact exec_apduExchange_apAck st ▸ exists_apAck txLen rxLen fits
      (Memory.readBytes_isSome.2 fun j lt => written (5 + j) (by omega))
  | apSw =>
    obtain ⟨request, pb, n, rx', m, held, rxLen', holds, le⟩ := inv.premise_of_st st
    refine apdu st rfl request fun tx rx txLen rxLen ge fits written => ?_
    obtain rfl : rx = rx' := Option.some.inj (rxLen.symm.trans rxLen')
    exact exec_apduExchange_apSw st ▸ exists_apSw (n := n) (by rw [held]) (by rw [held]; exact holds) (le.trans fits)
  | apSw2 =>
    obtain ⟨request, ⟨pb, held⟩, -⟩ := inv.premise_of_st st
    exact own st rfl (exec_apduExchange_apSw2 st ▸ exists_apSw2 (pb := pb) (by rw [held]; rfl))

/-- Settles O47: the engine's step is always enabled, and the machine takes it where the host does not move. -/
theorem busyEngineIsNeverStuck : Obligations.BusyEngineIsNeverStuck := by
  intro s inv busy
  have enabled : ∃ t, engineStep s = .next t := (State.inv_iff.1 inv).exists_engineStep busy
  have enabledTurn : ∃ t, engineStep s.takeTurn = .next t :=
    State.Inv.exists_engineStep (s := s.takeTurn) (State.inv_iff.1 inv) busy
  refine ⟨enabled, ?_⟩
  rintro (pending | ⟨rest, pending⟩ | turn)
  · exact step_noAction pending ▸ enabled
  · exact step_wait busy pending ▸ enabled
  · cases pending : s.host.pending with
    | nil => exact step_noAction pending ▸ enabled
    | cons a rest =>
      by_cases waits : a = .awaitDone
      · exact step_wait busy (waits ▸ pending) ▸ enabled
      · exact step_engineTurn busy pending waits turn ▸ enabledTurn

end Sys2Proof.Machine
end

section
/-! DECODE, ENCODE and the parameter byte (40_codec.md), with the tables read by number as the statements write them: what
the two steps give for every table, and what they give for the tables of R110 and R111. -/

namespace Sys2Proof

theorem toNat_hiNibble (b : Byte) : (hiNibble b).toNat = b.toNat / 16 := (Machine.hiNibble_eq_iff.1 rfl).symm

theorem toNat_loNibble (b : Byte) : (loNibble b).toNat = b.toNat % 16 := by
  rw [loNibble, BitVec.extractLsb'_toNat, Nat.shiftRight_zero]

theorem toNat_joinNibbles (h l : Nibble) : (joinNibbles h l).toNat = 16 * h.toNat + l.toNat := by
  have high := toNat_hiNibble (joinNibbles h l)
  have low := toNat_loNibble (joinNibbles h l)
  rw [hiNibble_joinNibbles] at high
  rw [loNibble_joinNibbles] at low
  omega

/-- The parameter byte of two table indices (R83). -/
theorem joinNibbles_ofNat {i j : Nat} (_ : i < 16) (_ : j < 16) :
    joinNibbles (BitVec.ofNat 4 i) (BitVec.ofNat 4 j) = BitVec.ofNat 8 (16 * i + j) := by
  apply BitVec.eq_of_toNat_eq
  rw [toNat_joinNibbles, BitVec.toNat_ofNat, BitVec.toNat_ofNat, BitVec.toNat_ofNat]
  omega

end Sys2Proof

namespace Sys2Proof.Machine

/-! ## The tables by number -/

theorem State.fiEntry_of_getElem? {s : State} {i : Nibble} {e : FiEntry} (entry : s.cfg.fiTable[i.toNat]? = some e) :
    s.fiEntry i = e :=
  Option.some.inj ((getElem?_fiTable s i).symm.trans entry)

theorem State.diEntry_of_getElem? {s : State} {j : Nibble} {e : DiEntry} (entry : s.cfg.diTable[j.toNat]? = some e) :
    s.diEntry j = e :=
  Option.some.inj ((getElem?_diTable s j).symm.trans entry)

theorem Config.fiEntryWf_of_wf {c : Config} {i f m : Nat} (wf : c.wf = true) (entry : c.fiTable[i]? = some (.valid f m)) :
    0 < f ∧ 0 < m ∧ f < 2 ^ c.intW ∧ m < 2 ^ c.intW := by
  have mem : FiEntry.valid f m ∈ c.fiTable.toList := Vector.mem_toList_iff.2 (Vector.mem_of_getElem? entry)
  rw [Config.wf, Bool.and_eq_true, List.all_eq_true] at wf
  simpa [Config.fiEntryWf, Config.fits, and_assoc] using wf.1 _ mem

theorem Config.diEntryWf_of_wf {c : Config} {j d : Nat} (wf : c.wf = true) (entry : c.diTable[j]? = some (.valid d)) :
    0 < d ∧ d < 2 ^ c.intW := by
  have mem : DiEntry.valid d ∈ c.diTable.toList := Vector.mem_toList_iff.2 (Vector.mem_of_getElem? entry)
  rw [Config.wf, Bool.and_eq_true, List.all_eq_true, List.all_eq_true] at wf
  simpa [Config.diEntryWf, Config.fits] using wf.2 _ mem

/-! ## DECODE -/

/-- Settles O17: the two indices select their entries, and the Fi entry is checked first. -/
theorem paramByteSelectsTableEntries : Obligations.ParamByteSelectsTableEntries := by
  intro s i j st
  have step : exec (.paramByte i j) s = decodeIndices i j s := by simp only [exec, execParamByte, st]
  rw [step]
  refine ⟨fun fiRfu => ?_, fun f m fi diRfu => ?_, fun f m d fi di => ?_⟩
  · exact decodeIndices_of_fiRfu (State.fiEntry_of_getElem? fiRfu)
  · exact decodeIndices_of_diRfu (State.fiEntry_of_getElem? fi) (State.diEntry_of_getElem? diRfu)
  · exact decodeIndices_of_valid (State.fiEntry_of_getElem? fi) (State.diEntry_of_getElem? di)

/-- Settles O16: the step is that of the byte's two nibbles as a PARAM_BYTE. -/
theorem decodeStep : Obligations.DecodeStep := by
  intro s b st inByte
  have step : exec .decode s = exec (.paramByte (hiNibble b) (loNibble b)) s := by
    rw [exec_decode_dec st inByte]
    simp only [exec, execParamByte, st]
  rw [step, ← toNat_hiNibble, ← toNat_loNibble]
  exact paramByteSelectsTableEntries s (hiNibble b) (loNibble b) st

/-- Which Fi entries of R110 are RFU. -/
theorem isoFiTable_rfu : ∀ i < 16, Config.isoFiTable[i]? = some .rfu ↔ i ∈ [7, 8, 14, 15] := by
  decide

/-- Which Di entries of R111 are RFU, by `DI7`. -/
theorem isoDiTable_rfu {di7 : DiEntry} (di7Eq : di7 = .valid 64 ∨ di7 = .rfu) : ∀ j < 16,
    (Config.isoDiTable di7)[j]? = some .rfu ↔ j ∈ [0, 10, 11, 12, 13, 14, 15] ∨ j = 7 ∧ di7 = .rfu := by
  obtain rfl | rfl := di7Eq <;> decide

/-- Settles O18: the RFU entries of the tables of R110 and R111 pick the outcome. -/
theorem decodeOutcomeOfEveryByte : Obligations.DecodeOutcomeOfEveryByte := by
  intro di7 s b di7Eq cfg st inByte
  have step := exec_decode_dec st inByte
  have fiRfuIff : s.fiEntry (hiNibble b) = .rfu ↔ b.toNat / 16 ∈ [7, 8, 14, 15] := by
    rw [← isoFiTable_rfu _ (by omega), ← toNat_hiNibble, ← Option.some_inj, ← getElem?_fiTable, cfg]
    rfl
  have diRfuIff : s.diEntry (loNibble b) = .rfu ↔
      b.toNat % 16 ∈ [0, 10, 11, 12, 13, 14, 15] ∨ b.toNat % 16 = 7 ∧ di7 = .rfu := by
    rw [← isoDiTable_rfu di7Eq _ (by omega), ← toNat_loNibble, ← Option.some_inj, ← getElem?_diTable, cfg]
    rfl
  cases fi : s.fiEntry (hiNibble b) with
  | rfu =>
    refine ⟨_, step.trans (decodeIndices_of_fiRfu fi), rfl, ?_⟩
    rw [if_pos (fiRfuIff.1 fi)]
    rfl
  | valid f m =>
    have fiValid := mt fiRfuIff.2 (by rw [fi]; nofun)
    cases di : s.diEntry (loNibble b) with
    | rfu =>
      refine ⟨_, step.trans (decodeIndices_of_diRfu fi di), rfl, ?_⟩
      rw [if_neg fiValid, if_pos (diRfuIff.1 di)]
      rfl
    | valid d =>
      refine ⟨_, step.trans (decodeIndices_of_valid fi di), rfl, ?_⟩
      rw [if_neg fiValid, if_neg (mt diRfuIff.2 (by rw [di]; nofun))]
      rfl

/-- Settles O19: a success is of two valid entries, which are above 0 and fit the registers. -/
theorem decodedParametersAreValid : Obligations.DecodedParametersAreValid := by
  intro s t wf st h err
  obtain ⟨b, inByte⟩ : ∃ b, s.req.inByte = some b := by
    simp only [exec, execDecode, st] at h
    obtain ⟨b, inByte, -⟩ := need_eq_next.1 h
    exact ⟨b, inByte⟩
  rw [exec_decode_dec st inByte] at h
  obtain rfl | rfl | ⟨f, m, d, fi, di, rfl⟩ := decodeIndices_eq_next h
  · cases err
  · cases err
  · have fiEntry := (getElem?_fiTable s (hiNibble b)).trans (congrArg some fi)
    have diEntry := (getElem?_diTable s (loNibble b)).trans (congrArg some di)
    obtain ⟨fPos, mPos, fFits, mFits⟩ := Config.fiEntryWf_of_wf wf fiEntry
    obtain ⟨dPos, dFits⟩ := Config.diEntryWf_of_wf wf diEntry
    exact ⟨_, _, f, m, d, fiEntry, diEntry, fPos, mPos, dPos, congrArg some (Nat.mod_eq_of_lt fFits),
      congrArg some (Nat.mod_eq_of_lt mFits), congrArg some (Nat.mod_eq_of_lt dFits)⟩

/-! ## ENCODE -/

theorem fiSearch_of_least {s : State} {fi fmax : Word} {i : Nat} (fits : s.fiFits fi fmax i)
    (least : ∀ i', i' < i → ¬ s.fiFits fi fmax i') : fiSearch fi fmax s = some (BitVec.ofNat 4 i) := by
  have toNat : (BitVec.ofNat 4 i).toNat = i := Nat.mod_eq_of_lt fits.lt
  refine (find?_tableIndices_eq_some fun _ => fiMatches_iff_fiFits).2 ?_
  rw [toNat]
  exact ⟨fits, least⟩

theorem diSearch_of_least {s : State} {di : Word} {j : Nat} (fits : s.diFits di j)
    (least : ∀ j', j' < j → ¬ s.diFits di j') : diSearch di s = some (BitVec.ofNat 4 j) := by
  have toNat : (BitVec.ofNat 4 j).toNat = j := Nat.mod_eq_of_lt fits.lt
  refine (find?_tableIndices_eq_some fun _ => diMatches_iff_diFits).2 ?_
  rw [toNat]
  exact ⟨fits, least⟩

theorem fiSearch_eq_none {s : State} {fi fmax : Word} : fiSearch fi fmax s = none ↔ ∀ i, ¬ s.fiFits fi fmax i :=
  find?_tableIndices_eq_none (fun _ => fiMatches_iff_fiFits) State.fiFits.lt

theorem diSearch_eq_none {s : State} {di : Word} : diSearch di s = none ↔ ∀ j, ¬ s.diFits di j :=
  find?_tableIndices_eq_none (fun _ => diMatches_iff_diFits) State.diFits.lt

/-- Settles O20: the two searches pick the outcome, the Fi search first. -/
theorem encodeStep : Obligations.EncodeStep := by
  intro s fi di fmax st inFi inDi inFmax fiFits diFits
  have step := exec_encode_enc st inFi inDi inFmax
  refine ⟨fun noFi => ?_, fun i fitsI noDi => ?_, fun i j fitsI leastI fitsJ leastJ => ?_⟩
  · exact step.trans (encodeParameters_of_noFi (fiSearch_eq_none.2 noFi))
  · cases found : fiSearch fi fmax s with
    | none => exact absurd fitsI (fiSearch_eq_none.1 found i)
    | some i' => exact step.trans (encodeParameters_of_noDi found (diSearch_eq_none.2 noDi))
  · rw [← joinNibbles_ofNat (State.fiFits.lt fitsI) (State.diFits.lt fitsJ)]
    exact step.trans (encodeParameters_of_found (fiSearch_of_least fitsI leastI) (diSearch_of_least fitsJ leastJ))

/-- A success of ENCODE is made of the two indices its searches found. -/
theorem exec_encode_success {s t : State} (st : s.st = .enc) (h : exec .encode s = .next t)
    (err : t.res.err = some 0x00) :
    ∃ i j fi di fmax, fiSearch fi fmax s = some i ∧ diSearch di s = some j ∧ t.res.outByte = some (joinNibbles i j) := by
  simp only [exec, execEncode, st] at h
  obtain ⟨fi, -, h⟩ := need_eq_next.1 h
  obtain ⟨di, -, h⟩ := need_eq_next.1 h
  obtain ⟨fmax, -, h⟩ := need_eq_next.1 h
  obtain rfl | rfl | ⟨i, j, foundI, foundJ, rfl⟩ := encodeParameters_eq_next h
  · cases err
  · cases err
  · exact ⟨i, j, fi, di, fmax, foundI, foundJ, rfl⟩

/-- Settles O21: the indices of a success are of matching entries, and its byte's nibbles are those indices. -/
theorem encodedByteAlwaysDecodes : Obligations.EncodedByteAlwaysDecodes := by
  intro s t u b st h err outByte cfg stU inByte
  obtain ⟨i, j, fi, di, fmax, foundI, foundJ, byte⟩ := exec_encode_success st h err
  obtain rfl : b = joinNibbles i j := Option.some.inj (outByte.symm.trans byte)
  obtain ⟨⟨m, fiEntry, -⟩, -⟩ := (find?_tableIndices_eq_some fun _ => fiMatches_iff_fiFits).1 foundI
  obtain ⟨diEntry, -⟩ := (find?_tableIndices_eq_some fun _ => diMatches_iff_diFits).1 foundJ
  rw [← toNat_hiNibble, ← toNat_loNibble, hiNibble_joinNibbles, loNibble_joinNibbles]
  have diEntry : s.cfg.diTable[j.toNat]? = some (.valid di) := diEntry
  have decodes := exec_decode_dec stU inByte
  rw [hiNibble_joinNibbles, loNibble_joinNibbles,
    decodeIndices_of_valid (State.fiEntry_of_getElem? (cfg ▸ fiEntry)) (State.diEntry_of_getElem? (cfg ▸ diEntry))] at decodes
  exact ⟨⟨fi, m, fiEntry⟩, ⟨di, diEntry⟩, _, decodes, rfl, rfl⟩

/-! ## ENCODE and DECODE with the tables of R110 and R111 -/

/-- A search for the values of the entry `e` would stop at the entry `e'` (R119). -/
def fiShadows (e' : FiEntry) : FiEntry → Bool
  | .valid f m => fiMatches f m e'
  | .rfu => false

/-- A search for the value of the entry `e` would stop at the entry `e'` (R120). -/
def diShadows (e' : DiEntry) : DiEntry → Bool
  | .valid d => diMatches d e'
  | .rfu => false

theorem isoFiTable_notShadowed :
    ∀ i i' : Fin 16, i' < i → fiShadows Config.isoFiTable[i'] Config.isoFiTable[i] = false := by
  decide

theorem isoDiTable_notShadowed {di7 : DiEntry} (di7Eq : di7 = .valid 64 ∨ di7 = .rfu) :
    ∀ j j' : Fin 16, j' < j → diShadows (Config.isoDiTable di7)[j'] (Config.isoDiTable di7)[j] = false := by
  obtain rfl | rfl := di7Eq <;> decide

/-- An entry of R110 with the Fi of a later one has a lower clock. -/
theorem isoFiTable_first {i i' f m m' : Nat} (lt : i' < i) (entry : Config.isoFiTable[i]? = some (.valid f m))
    (entry' : Config.isoFiTable[i']? = some (.valid f m')) : m' < m := by
  obtain ⟨h, eq⟩ := Vector.getElem?_eq_some_iff.1 entry
  obtain ⟨h', eq'⟩ := Vector.getElem?_eq_some_iff.1 entry'
  simpa [fiShadows, fiMatches, eq, eq'] using isoFiTable_notShadowed ⟨i, h⟩ ⟨i', h'⟩ lt

/-- The Di values of R111 are distinct. -/
theorem isoDiTable_first {di7 : DiEntry} {j j' d : Nat} (di7Eq : di7 = .valid 64 ∨ di7 = .rfu) (lt : j' < j)
    (entry : (Config.isoDiTable di7)[j]? = some (.valid d)) : (Config.isoDiTable di7)[j']? ≠ some (.valid d) := by
  intro entry'
  obtain ⟨h, eq⟩ := Vector.getElem?_eq_some_iff.1 entry
  obtain ⟨h', eq'⟩ := Vector.getElem?_eq_some_iff.1 entry'
  simpa [diShadows, diMatches, eq, eq'] using isoDiTable_notShadowed di7Eq ⟨j, h⟩ ⟨j', h'⟩ lt

theorem isoWf {di7 : DiEntry} (di7Eq : di7 = .valid 64 ∨ di7 = .rfu) : (Config.iso di7).wf = true := by
  obtain rfl | rfl := di7Eq <;> decide

/-- Settles O22: each entry is the first that its values match, and its values fit the registers. -/
theorem rateByteRoundTrip : Obligations.RateByteRoundTrip := by
  intro di7 s u i j f m d di7Eq cfgS cfgU fiEntry diEntry stS inFi inDi inFmax stU inByte
  have iLt : i < 16 := (Vector.getElem?_eq_some_iff.1 fiEntry).1
  have jLt : j < 16 := (Vector.getElem?_eq_some_iff.1 diEntry).1
  obtain ⟨-, -, fFits, mFits⟩ := Config.fiEntryWf_of_wf (isoWf di7Eq) fiEntry
  obtain ⟨-, dFits⟩ := Config.diEntryWf_of_wf (isoWf di7Eq) diEntry
  have fiTable : s.cfg.fiTable = Config.isoFiTable := congrArg Config.fiTable cfgS
  have diTable : s.cfg.diTable = Config.isoDiTable di7 := congrArg Config.diTable cfgS
  constructor
  · obtain ⟨-, -, found⟩ := encodeStep s f d m stS inFi inDi inFmax
    refine found i j ⟨m, fiTable ▸ fiEntry, le_rfl⟩ ?_ (diTable ▸ diEntry) fun j' lt entry => ?_
    · rintro i' lt ⟨m', fiEntry', le⟩
      exact (isoFiTable_first lt fiEntry (fiTable ▸ fiEntry')).not_ge le
    · exact isoDiTable_first di7Eq lt diEntry (diTable ▸ entry)
  · obtain ⟨-, -, valid⟩ := decodeStep u _ stU inByte
    have toNat : (BitVec.ofNat 8 (16 * i + j)).toNat = 16 * i + j := Nat.mod_eq_of_lt (by omega)
    rw [toNat, show (16 * i + j) / 16 = i by omega, show (16 * i + j) % 16 = j by omega, cfgU] at valid
    refine ⟨_, valid f m d fiEntry diEntry, rfl, rfl, ?_, ?_, ?_⟩
    · exact congrArg some (Nat.mod_eq_of_lt fFits)
    · exact congrArg some (Nat.mod_eq_of_lt dFits)
    · exact congrArg some (Nat.mod_eq_of_lt mFits)

/-- Settles O44: the reset state is written out by its definition. -/
theorem resetState : Obligations.ResetState := ⟨rfl, rfl, rfl, rfl, rfl, rfl⟩

end Sys2Proof.Machine
end

section
/-! APDU_EXCHANGE (43_apdu.md): the procedure-byte rows, the data phase and the two status-word states, one equation per
outcome; and the end of every exchange under TRANSPORT_TIMEOUT. -/

namespace Sys2Proof.Machine

/-! ## The procedure-byte rows -/

theorem joinNibbles_six (lo : Nibble) : joinNibbles 6#4 lo = BitVec.ofNat 8 (0x60 + lo.toNat) := by
  apply BitVec.eq_of_toNat_eq
  rw [toNat_joinNibbles, BitVec.toNat_ofNat, BitVec.toNat_ofNat]
  omega

theorem joinNibbles_nine (lo : Nibble) : joinNibbles 9#4 lo = BitVec.ofNat 8 (0x90 + lo.toNat) := by
  apply BitVec.eq_of_toNat_eq
  rw [toNat_joinNibbles, BitVec.toNat_ofNat, BitVec.toNat_ofNat]
  omega

/-- Settles O36: each row is its branch of `AP_PROC`, and the SW1 rows by the two lengths. -/
theorem procedureByteRows : Obligations.ProcedureByteRows := by
  intro s ins b lo tx rx st txLen rxLen
  have row (r : Result) : inApProc s r = r := inApProc_of_st st r
  have six : exec (.pbSw16x lo) s = _ := (row _).trans (sw1Byte_of_lengths txLen rxLen (joinNibbles 6#4 lo))
  have nine : exec (.pbSw19x lo) s = _ := (row _).trans (sw1Byte_of_lengths txLen rxLen (joinNibbles 9#4 lo))
  rw [joinNibbles_six] at six
  rw [joinNibbles_nine] at nine
  refine ⟨row _, row _, fun ⟨noTx, noRx⟩ => ?_, fun data => ?_, row _⟩
  · have noData : ¬ (rx ≠ 0 ∨ 5 < tx) := by omega
    exact ⟨six.trans (if_neg noData), nine.trans (if_neg noData)⟩
  · have data : rx ≠ 0 ∨ 5 < tx := by omega
    exact ⟨six.trans (if_pos data), nine.trans (if_pos data)⟩

/-! ## The data phase (R188) -/

theorem exec_apduExchange_apAck_of_data {s : State} {tx rx : Nat} {data : List Byte} (st : s.st = .apAck)
    (txLen : s.req.txLen = some tx) (rxLen : s.req.rxLen = some rx) (more : 5 < tx)
    (read : s.req.txBuf.readBytes 5 (tx - 5) = some data) :
    exec .apduExchange s =
      if s.sendOk then .next (((s.afterSend data).goto .apSw).setWork { s.work with k := some 0 })
      else .next ((s.afterSend data).fail .dataSendFailed) := by
  simp only [exec_apduExchange_apAck st, apAck, needLengths, txLen, rxLen, need_some, if_pos more, apAckSend, needData, read,
    raise]

theorem exec_apduExchange_apAck_of_noResponse {s : State} {tx rx : Nat} (st : s.st = .apAck)
    (txLen : s.req.txLen = some tx) (rxLen : s.req.rxLen = some rx) (noData : tx ≤ 5) (response : 0 < rx)
    (err : s.answer = .err) :
    exec .apduExchange s = .next ({ s with port := s.port.after (.recv rx none) }.fail .dataRecvFailed) := by
  have received : s.recvAnswer rx = none := State.recvAnswer_err rx err
  simp only [exec_apduExchange_apAck st, apAck, needLengths, txLen, rxLen, need_some, if_neg noData.not_gt, if_pos response,
    apAckReceive, received, raise, State.afterRecv]

theorem exec_apduExchange_apAck_of_nothing {s : State} {tx rx : Nat} (st : s.st = .apAck)
    (txLen : s.req.txLen = some tx) (rxLen : s.req.rxLen = some rx) (noData : tx ≤ 5) (noResponse : rx = 0) :
    exec .apduExchange s = .next ((s.goto .apSw).setWork { s.work with k := some 0 }) := by
  simp only [exec_apduExchange_apAck st, apAck, needLengths, txLen, rxLen, need_some, if_neg noData.not_gt,
    if_neg noResponse.not_gt]

/-- Settles O37: the two lengths pick the shape, and the answer of its one call the outcome. -/
theorem dataPhaseStep : Obligations.DataPhaseStep := by
  intro s tx rx st txLen rxLen after
  refine ⟨fun data more read => ?_, fun noData response fits => ⟨fun bs ok => ?_, fun err => ?_⟩, fun noData noResponse => ?_⟩
  · have step := exec_apduExchange_apAck_of_data st txLen rxLen more read
    refine ⟨fun bs ok => ?_, fun err => ?_⟩
    · rw [step, if_pos (State.sendOk_ok ok), State.afterSend_of_ok ok]
      rfl
    · rw [step, if_neg (Bool.eq_false_iff.1 (State.sendOk_err err)), State.afterSend_of_err err]
      rfl
  · have received : s.recvAnswer rx = some (bs.take rx) := State.recvAnswer_ok rx ok
    have step := exec_apduExchange_apAck_of_response st txLen rxLen noData response received
      ((List.length_take_le rx bs).trans fits)
    rw [List.length_take] at step
    refine ⟨_, step, fun j => ?_⟩
    rw [Memory.read_writeBytes_zero, List.length_take]
    split_ifs with lt
    · exact List.getElem?_take_of_lt (lt.trans_le (min_le_left rx bs.length))
    · rfl
  · exact exec_apduExchange_apAck_of_noResponse st txLen rxLen noData response err
  · exact exec_apduExchange_apAck_of_nothing st txLen rxLen noData noResponse

/-! ## The status word (R189, R190) -/

theorem exec_apduExchange_apSw_of_noWord {s : State} {answer : Option (List Byte)} (st : s.st = .apSw)
    (received : s.recvAnswer 2 = answer) (noWord : ∀ a b, answer ≠ some [a, b]) :
    exec .apduExchange s = .next ({ s with port := s.port.after (.recv 2 answer) }.fail .statusWordMissing) := by
  subst received
  rw [exec_apduExchange_apSw st, apSw]
  split
  · next a b word => exact absurd word (noWord a b)
  · rfl

theorem exec_apduExchange_apSw2_of_noByte {s : State} {answer : Option (List Byte)} (st : s.st = .apSw2)
    (received : s.recvAnswer 1 = answer) (noByte : ∀ b, answer ≠ some [b]) :
    exec .apduExchange s = .next ({ s with port := s.port.after (.recv 1 answer) }.fail .statusWordMissing) := by
  subst received
  rw [exec_apduExchange_apSw2 st, apSw2]
  split
  · next b byte => exact absurd byte (noByte b)
  · rfl

theorem exec_apduExchange_apSw2_of_byte {s : State} {pb b : Byte} {more : List Byte} (st : s.st = .apSw2)
    (held : s.work.pb = some pb) (ok : s.answer = .ok (b :: more)) :
    exec .apduExchange s =
      .next ((s.afterByte b).commit { s.res with respLen := some 0, sw1 := some pb, sw2 := some b }) := by
  have received : s.recvAnswer 1 = some [b] := State.recvAnswer_ok 1 ok
  simp only [exec_apduExchange_apSw2 st, apSw2, received, held, need_some, succeed, State.afterRecv_one ok]

/-- Settles O38: the one `Recv(2)` gives two bytes or not. -/
theorem statusWordStep : Obligations.StatusWordStep := by
  intro s k data st count read fits received
  refine ⟨fun a b more ok => ?_, fun bs ok short => ?_, fun err => ?_⟩
  · refine ⟨_, exec_apduExchange_apSw_of_word st count read fits ok, fun j => ?_⟩
    rw [Memory.read_writeBytes_zero, Memory.readBytes_length read]
  · have received : s.recvAnswer 2 = some bs := by rw [State.recvAnswer_ok 2 ok, List.take_of_length_le short.le]
    refine exec_apduExchange_apSw_of_noWord st received fun a b word => ?_
    obtain rfl := Option.some.inj word
    exact absurd short (Nat.lt_irrefl 2)
  · exact exec_apduExchange_apSw_of_noWord st (State.recvAnswer_err 2 err) nofun

/-- Settles O39: the one `Recv(1)` gives a byte or not. -/
theorem secondStatusByteStep : Obligations.SecondStatusByteStep := by
  intro s pb st held received
  refine ⟨fun b more ok => exec_apduExchange_apSw2_of_byte st held ok, fun empty => ?_, fun err => ?_⟩
  · exact exec_apduExchange_apSw2_of_noByte st (State.recvAnswer_ok 1 empty) nofun
  · exact exec_apduExchange_apSw2_of_noByte st (State.recvAnswer_err 1 err) nofun

/-! ## Runs -/

/-- Settles O41: the NULL loop, with no step after it. -/
theorem nullStreamIsNotBounded : Obligations.NullStreamIsNotBounded := by
  intro s n ins rest st pending read answers
  have run := run_nulls n 0 st pending read answers
  rwa [Nat.zero_add] at run

/-- With no host action pending, the run from `s` is over after at most that many steps and Transport calls. -/
def EndsWithin (steps calls : Nat) (s : State) : Prop :=
  ∃ n t, n ≤ steps ∧ core.run n s = .next t ∧ t.st = .done ∧ t.port.trace.length ≤ s.port.trace.length + calls

theorem EndsWithin.of_done {s : State} (steps calls : Nat) (st : s.st = .done) : EndsWithin steps calls s :=
  ⟨0, s, Nat.zero_le _, rfl, st, Nat.le_add_right _ _⟩

/-- A step that makes at most `d` calls comes before a run that ends. -/
theorem EndsWithin.of_step {s u : State} {steps calls d : Nat} (next : step s = .next u)
    (trace : u.port.trace.length ≤ s.port.trace.length + d) (ends : EndsWithin steps calls u) :
    EndsWithin (steps + 1) (calls + d) s := by
  obtain ⟨n, t, le, run, done, bound⟩ := ends
  exact ⟨n + 1, t, by omega, (run_succ_of_next (M := core) n next).trans run, done, by omega⟩

theorem Port.Frame.trace_length {x : St} {p q : Port} (frame : Port.Frame x p q) :
    q.trace.length ≤ p.trace.length + 1 := by
  obtain rfl | ⟨e, rfl, -⟩ := frame.oneCall
  · exact Nat.le_succ _
  · rw [Port.after_trace, List.length_append]
    rfl

/-- From a busy state of the invariant, with no host action pending, the machine goes on within the invariant. -/
theorem State.Inv.exists_step {s : State} (inv : s.Inv) (busy : s.busy = true) (pending : s.host.pending = []) :
    ∃ t, step s = .next t ∧ engineStep s = .next t ∧ t.Inv ∧ t.host.pending = [] ∧ Summary s t := by
  obtain ⟨t, next⟩ := inv.exists_engineStep busy
  have effect : Effect s t := by
    obtain ⟨idle, -⟩ | ⟨-, effect⟩ := engineStep_eq_next next
    · exact absurd (busy.symm.trans idle) nofun
    · exact effect
  obtain ⟨-, -, host, -⟩ := effect.summary.outside
  exact ⟨t, (step_noAction pending).trans next, next, effect.inv inv busy, host ▸ pending, effect.summary⟩

/-- A run from such a state ends as the runs from its next states do, one step and at most one call later. -/
theorem EndsWithin.of_busy {s : State} {steps calls : Nat} (inv : s.Inv) (busy : s.busy = true)
    (pending : s.host.pending = [])
    (ends : ∀ t, engineStep s = .next t → t.Inv → t.host.pending = [] → s.st.mayStepTo t.st = true →
      EndsWithin steps calls t) : EndsWithin (steps + 1) (calls + 1) s := by
  obtain ⟨t, next, engine, invT, pendingT, summary⟩ := inv.exists_step busy pending
  exact .of_step next summary.portFrame.trace_length (ends t engine invT pendingT summary.mayStepTo)

theorem State.busy_of_st {s : State} {x : St} (st : s.st = x) (busy : x.busy = true) : s.busy = true :=
  (congrArg St.busy st).trans busy

/-! R197: each state of an exchange ends within the steps and calls that its longest way takes. -/

theorem endsWithin_last {s : State} (inv : s.Inv) (pending : s.host.pending = []) (st : s.st = .apSw ∨ s.st = .apSw2) :
    EndsWithin 1 1 s := by
  refine .of_busy inv (by obtain st | st := st <;> exact State.busy_of_st st rfl) pending fun t _ _ _ may => .of_done 0 0 ?_
  obtain st | st := st <;> rw [st] at may <;> cases stT : t.st <;> simp [stT, St.mayStepTo] at may ⊢

theorem endsWithin_apAck {s : State} (inv : s.Inv) (pending : s.host.pending = []) (st : s.st = .apAck) :
    EndsWithin 2 2 s := by
  refine .of_busy inv (State.busy_of_st st rfl) pending fun t _ invT pendingT may => ?_
  have next : t.st = .apSw ∨ t.st = .done := by
    rw [st] at may
    cases stT : t.st <;> simp [stT, St.mayStepTo] at may ⊢
  obtain stT | stT := next
  · exact endsWithin_last invT pendingT (.inl stT)
  · exact .of_done 1 1 stT

theorem EndsWithin.mono {s : State} {steps calls steps' calls' : Nat} (ends : EndsWithin steps calls s)
    (steps_le : steps ≤ steps') (calls_le : calls ≤ calls') : EndsWithin steps' calls' s := by
  obtain ⟨n, t, le, run, done, bound⟩ := ends
  exact ⟨n, t, le.trans steps_le, run, done, bound.trans (by omega)⟩

/-- R184: only a NULL byte leaves the exchange in `AP_PROC`. -/
theorem procedureByte_stays {ins b : Byte} {s t : State} (h : procedureByte ins b s = .next t) (stays : t.st = .apProc) :
    b = 0x60 := by
  by_contra notNull
  obtain ⟨st, -⟩ := procedureByte_eq_next h
  by_cases ack : b = ins
  · subst ack
    obtain rfl := Host.Outcome.next.inj ((procedureByte_ack st notNull).symm.trans h)
    cases stays
  by_cases sw1 : b.toNat / 16 = 6 ∨ b.toNat / 16 = 9
  · obtain ⟨tx, rx, -, -, ⟨-, rfl⟩ | ⟨-, rfl⟩⟩ :=
      sw1Byte_eq_next ((procedureByte_sw1 st notNull ack sw1).symm.trans h) <;> cases stays
  · obtain ⟨notSix, notNine⟩ := not_or.1 sw1
    obtain rfl := Host.Outcome.next.inj ((procedureByte_invalid st ack notSix notNine).symm.trans h)
    cases stays

theorem apProc_stays {s t : State} (h : apProc s = .next t) (stays : t.st = .apProc) :
    ∃ more, s.answer = .ok (0x60 :: more) := by
  obtain rfl | ⟨b, ins, received, -, byte⟩ := apProc_eq_next h
  · cases stays
  obtain rfl := procedureByte_stays byte stays
  cases answered : s.answer with
  | err => simp [State.recvAnswer_err 1 answered] at received
  | ok bs =>
    rw [State.recvAnswer_ok 1 answered] at received
    cases bs with
    | nil => simp at received
    | cons b more =>
      obtain rfl : b = 0x60 := by simpa using received
      exact ⟨more, rfl⟩

/-- The byte that ends the NULL loop. -/
theorem endsWithin_apProc_stop {s : State} {stop : TransportAnswer} (inv : s.Inv) (pending : s.host.pending = [])
    (st : s.st = .apProc) (answered : s.answer = stop) (notNull : ∀ more, stop ≠ .ok (0x60 :: more)) :
    EndsWithin 3 3 s := by
  refine .of_busy inv (State.busy_of_st st rfl) pending fun t step invT pendingT may => ?_
  have leaves : t.st ≠ .apProc := fun stays => by
    rw [engineStep_of_operation (congrArg St.operation st), exec_apduExchange_apProc st] at step
    obtain ⟨more, null⟩ := apProc_stays step stays
    exact notNull more (answered.symm.trans null)
  have next : t.st = .apAck ∨ t.st = .apSw2 ∨ t.st = .done := by
    rw [st] at may
    cases stT : t.st <;> simp [stT, St.mayStepTo] at may leaves ⊢
  obtain stT | stT | stT := next
  · exact endsWithin_apAck invT pendingT stT
  · exact (endsWithin_last invT pendingT (.inr stT)).mono (by decide) (by decide)
  · exact .of_done 2 2 stT

/-- The NULL loop, as long as the NULL bytes come. -/
theorem endsWithin_apProc {s : State} {n : Nat} {stop : TransportAnswer} {rest : List TransportAnswer} (inv : s.Inv)
    (pending : s.host.pending = []) (st : s.st = .apProc)
    (answers : s.port.answers = List.replicate n (.ok [0x60]) ++ stop :: rest)
    (notNull : ∀ more, stop ≠ .ok (0x60 :: more)) : EndsWithin (3 + n) (3 + n) s := by
  induction n generalizing s with
  | zero => exact endsWithin_apProc_stop inv pending st (State.answer_cons answers) notNull
  | succ n ih =>
    obtain ⟨request, -⟩ := inv.premise_of_st st
    obtain ⟨tx, rx, -, -, ge, -, written⟩ := State.apdu_written (State.apduRequest_iff.1 request).1
    obtain ⟨ins, read⟩ := Option.isSome_iff_exists.1 (written 1 (by omega))
    have null : exec .apduExchange s = .next (s.afterByte 0x60) :=
      (exec_apduExchange_apProc_of_byte st read (State.answer_cons answers)).trans
        (procedureByte_null (s := s.afterByte 0x60) st ins)
    have invU : (s.afterByte 0x60).Inv := ⟨inv.req, inv.res, inv.work, inv.results, inv.premise⟩
    have next := (step_noAction pending).trans ((engineStep_of_operation (congrArg St.operation st)).trans null)
    refine .of_step (d := 1) next ?_ (ih (s := s.afterByte 0x60) invU pending st (congrArg List.tail answers))
    exact (List.length_append).le

theorem engineStep_apHdr {s t : State} (st : s.st = .apHdr) (h : engineStep s = .next t) :
    t.st = .apProc ∧ t.port.answers = s.port.answers.tail ∨ t.st = .done := by
  rw [engineStep_of_operation (congrArg St.operation st)] at h
  simp only [exec, execApduExchange, st] at h
  obtain ⟨header, -, ⟨-, rfl⟩ | ⟨-, rfl⟩⟩ := apHdr_eq_next h
  · exact .inl ⟨rfl, rfl⟩
  · exact .inr rfl

theorem engineStep_apCheck {s t : State} (st : s.st = .apCheck) (h : engineStep s = .next t) :
    (t.st = .apHdr ∨ t.st = .done) ∧ t.port = s.port := by
  rw [engineStep_of_operation (congrArg St.operation st)] at h
  simp only [exec, execApduExchange, st] at h
  obtain ⟨tx, rx, -, -, ⟨-, rfl⟩ | ⟨-, rfl⟩⟩ := apCheck_eq_next h
  · exact ⟨.inr rfl, rfl⟩
  · exact ⟨.inl rfl, rfl⟩

theorem endsWithin_apHdr {s : State} {n : Nat} {header stop : TransportAnswer} {rest : List TransportAnswer} (inv : s.Inv)
    (pending : s.host.pending = []) (st : s.st = .apHdr)
    (answers : s.port.answers = header :: (List.replicate n (.ok [0x60]) ++ stop :: rest))
    (notNull : ∀ more, stop ≠ .ok (0x60 :: more)) : EndsWithin (4 + n) (4 + n) s := by
  rw [Nat.add_right_comm 3 1 n]
  refine .of_busy inv (State.busy_of_st st rfl) pending fun t step invT pendingT _ => ?_
  obtain ⟨stT, answersT⟩ | stT := engineStep_apHdr st step
  · exact endsWithin_apProc invT pendingT stT (answersT.trans (congrArg List.tail answers)) notNull
  · exact .of_done _ _ stT

/-- Settles O42: the check, the header, the NULL loop, the byte that ends it, and at most two states after it. -/
theorem exchangeEndsUnderTransportTimeout : Obligations.ExchangeEndsUnderTransportTimeout := by
  intro s n header stop rest inv st pending answers notNull
  have inv := State.inv_iff.1 inv
  obtain ⟨t, next, engine, invT, pendingT, -⟩ := inv.exists_step (State.busy_of_st st rfl) pending
  obtain ⟨stT, port⟩ := engineStep_apCheck st engine
  have ends : EndsWithin (4 + n) (4 + n) t := by
    obtain stT | stT := stT
    · exact endsWithin_apHdr invT pendingT stT (port ▸ answers) notNull
    · exact .of_done _ _ stT
  obtain ⟨steps, u, le, run, done, bound⟩ := ends.of_step (d := 0) next (by rw [port]; exact le_rfl)
  exact ⟨steps, u, by omega, run, done, by omega⟩

end Sys2Proof.Machine
end

section
/-! Noninterference. Outside `AP_HDR` an instruction reads of the request registers only their single values, the first three
bytes of `ATR_BUF`, INS and the outgoing data, and whether the bytes of `TX_BUF` are written. So it does the same on two
requests that agree there, for a P3 (R91) and for an ATR beyond TA1 (R147). -/

namespace Sys2Proof.Machine

/-- A result with its next state, if any, changed. -/
def mapNext (f : State → State) : Result → Result
  | .next t => .next (f t)
  | .fault e => .fault e
  | .refused r => .refused r

theorem need_eq_mapNext {α : Type} {f : State → State} {r : Reg} {o : Option α} {k k' : α → Result}
    (goesOn : ∀ a, k' a = mapNext f (k a)) : need r o k' = mapNext f (need r o k) := by
  cases o with
  | none => rfl
  | some a => exact goesOn a

theorem memWrite_eq_mapNext {f : State → State} {r : Reg} {capacity i : Nat} {m : Memory} {bs : List Byte}
    {k k' : Memory → Result} (goesOn : ∀ m, k' m = mapNext f (k m)) :
    memWrite r capacity m i bs k' = mapNext f (memWrite r capacity m i bs k) := by
  unfold memWrite
  split
  · exact goesOn _
  · rfl

/-- Two requests that agree on everything read of them outside `AP_HDR`. -/
structure Request.SameReads (q p : Request) : Prop where
  inByte : q.inByte = p.inByte
  inFi : q.inFi = p.inFi
  inDi : q.inDi = p.inDi
  inFmax : q.inFmax = p.inFmax
  atrLen : q.atrLen = p.atrLen
  pps1 : q.pps1 = p.pps1
  txLen : q.txLen = p.txLen
  rxLen : q.rxLen = p.rxLen
  atr : ∀ j, j < 3 → q.atrBuf.read j = p.atrBuf.read j
  ins : q.txBuf.read 1 = p.txBuf.read 1
  data : ∀ n, q.txBuf.readBytes 5 n = p.txBuf.readBytes 5 n
  written : ∀ n, (q.txBuf.readBytes 0 n).isSome = (p.txBuf.readBytes 0 n).isSome

/-- The step `f` does the same on the request `q` as on the request of `s`. -/
def Commutes (q : Request) (s : State) (f : State → Result) : Prop := f (s.setReq q) = mapNext (State.setReq q) (f s)

section
variable {q : Request} {s : State} (same : q.SameReads s.req)

@[simp] theorem State.setReq_sendOk : (s.setReq q).sendOk = s.sendOk := rfl
@[simp] theorem State.setReq_recvAnswer (n : Nat) : (s.setReq q).recvAnswer n = s.recvAnswer n := rfl
@[simp] theorem State.setReq_fiEntry (i : Nibble) : (s.setReq q).fiEntry i = s.fiEntry i := rfl
@[simp] theorem State.setReq_diEntry (j : Nibble) : (s.setReq q).diEntry j = s.diEntry j := rfl

/-! ## Steps that read no request register -/

theorem commutes_decodeIndices (i j : Nibble) : Commutes q s (decodeIndices i j) := by
  unfold Commutes decodeIndices
  simp only [State.setReq_fiEntry, State.setReq_diEntry]
  split <;> rfl

theorem commutes_encodeParameters (fi di fmax : Word) : Commutes q s (encodeParameters fi di fmax) := by
  unfold Commutes encodeParameters
  simp only [show fiSearch fi fmax (s.setReq q) = fiSearch fi fmax s from rfl,
    show diSearch di (s.setReq q) = diSearch di s from rfl]
  split
  · rfl
  · split <;> rfl

theorem commutes_ppsSendFrame (frame : List Byte) : Commutes q s (ppsSendFrame frame) := by
  unfold Commutes ppsSendFrame
  rw [State.setReq_sendOk]
  split <;> rfl

theorem commutes_ppsReceive : Commutes q s ppsReceive := by
  unfold Commutes ppsReceive
  rw [State.setReq_recvAnswer]
  split
  · rfl
  · split <;> rfl

theorem commutes_ppsCompare (response : List Byte) : Commutes q s (ppsCompare response) := by
  refine need_eq_mapNext fun request => ?_
  split <;> rfl

theorem commutes_apSw : Commutes q s apSw := by
  unfold Commutes apSw
  rw [State.setReq_recvAnswer]
  split
  · exact need_eq_mapNext fun k => need_eq_mapNext fun data => memWrite_eq_mapNext fun m => rfl
  · rfl

theorem commutes_apSw2 : Commutes q s apSw2 := by
  unfold Commutes apSw2
  rw [State.setReq_recvAnswer]
  split
  · exact need_eq_mapNext fun pb => rfl
  · rfl

/-! ## Steps that read request registers -/

include same

theorem failedCheck_setReq (i : Instr) : failedCheck i (s.setReq q) = failedCheck i s := by
  have decode : wfDecode (s.setReq q) = wfDecode s := by simp only [wfDecode, State.setReq_req, same.inByte]
  have encode : wfEncode (s.setReq q) = wfEncode s := by
    simp only [wfEncode, State.setReq_req, same.inFi, same.inDi, same.inFmax]
  have pps : wfPps (s.setReq q) = wfPps s := by simp only [wfPps, State.setReq_req, same.pps1]
  have hdr : wfApduHdr (s.setReq q) = wfApduHdr s := by simp only [wfApduHdr, State.setReq_req, same.txLen]
  have len : wfApduLen (s.setReq q) = wfApduLen s := Bool.eq_iff_iff.2 (by
    simp only [wfApduLen_iff, State.setReq_req, State.setReq_cfg, same.txLen, same.rxLen])
  have buf : wfApduBuf (s.setReq q) = wfApduBuf s := by
    simp only [wfApduBuf, State.setReq_req, same.txLen, same.written]
  have atr : wfAtr (s.setReq q) = wfAtr s := Bool.eq_iff_iff.2 (by
    simp only [wfAtr_iff, State.setReq_req, State.setReq_cfg, same.atrLen]
    refine exists_congr fun n => and_congr_right fun _ => and_congr_right fun _ => forall₂_congr fun j lt => ?_
    rw [same.atr j (by omega)])
  cases i <;> simp only [failedCheck, decode, encode, atr, pps, hdr, len, buf]

theorem commutes_issueCommand (i : Instr) (x : St) : Commutes q s (issueCommand i x) := by
  unfold Commutes issueCommand
  rw [failedCheck_setReq same]
  split <;> rfl

theorem commutes_ppsIssue : Commutes q s ppsIssue := by
  unfold Commutes ppsIssue
  rw [failedCheck_setReq same, State.setReq_req, same.pps1]
  split
  · rfl
  · exact need_eq_mapNext fun p => rfl

theorem atrAfterTs_setReq (n : Nat) (t0 : Option Bool) (conv : Convention) :
    atrAfterTs n t0 (s.setReq q) conv = mapNext (State.setReq q) (atrAfterTs n t0 s conv) := by
  unfold atrAfterTs
  split
  · rfl
  rw [State.setReq_req, same.atr 1 (by decide)]
  refine need_eq_mapNext fun declares => ?_
  cases declares
  · rfl
  · simp only [atrByT0, if_pos, atrWithTa1, State.setReq_req, same.atr 2 (by decide)]
    exact need_eq_mapNext fun ta1 => rfl

theorem commutes_atrStep (ts : Option TsClass) (t0 : Option Bool) : Commutes q s (atrStep ts t0) := by
  unfold Commutes atrStep
  rw [State.setReq_req, same.atrLen]
  refine need_eq_mapNext fun n => ?_
  split
  · rfl
  rw [same.atr 0 (by decide)]
  refine need_eq_mapNext fun c => ?_
  cases c
  · exact atrAfterTs_setReq same n t0 .direct
  · exact atrAfterTs_setReq same n t0 .inverse
  · rfl

theorem commutes_apCheck : Commutes q s apCheck := by
  unfold Commutes apCheck needLengths
  rw [State.setReq_req, same.txLen, same.rxLen]
  refine need_eq_mapNext fun tx => need_eq_mapNext fun rx => ?_
  dsimp only
  split <;> rfl

theorem commutes_sw1Byte (b : Byte) : Commutes q s (sw1Byte b) := by
  unfold Commutes sw1Byte needLengths
  rw [State.setReq_req, same.txLen, same.rxLen]
  refine need_eq_mapNext fun tx => need_eq_mapNext fun rx => ?_
  dsimp only
  split <;> rfl

theorem commutes_procedureByte (st : s.st = .apProc) (ins b : Byte) : Commutes q s (procedureByte ins b) := by
  unfold Commutes procedureByte execPbNull execPbAck execPbSw16x execPbSw19x execPbInvalid
  simp only [inApProc_of_st st, inApProc_of_st (s := s.setReq q) st]
  split
  · rfl
  · rfl
  · exact commutes_sw1Byte same _
  · exact commutes_sw1Byte same _
  · rfl

theorem commutes_apProc (st : s.st = .apProc) : Commutes q s apProc := by
  unfold Commutes apProc
  rw [State.setReq_recvAnswer]
  split
  · next b received =>
    rw [needIns, State.setReq_req, same.ins]
    exact need_eq_mapNext fun ins => commutes_procedureByte (s := s.afterRecv 1) same st ins b
  · rfl

theorem commutes_apAck : Commutes q s apAck := by
  unfold Commutes apAck needLengths
  rw [State.setReq_req, same.txLen, same.rxLen]
  refine need_eq_mapNext fun tx => need_eq_mapNext fun rx => ?_
  dsimp only
  split_ifs
  · rw [apAckSend, needData, State.setReq_req, same.data]
    refine need_eq_mapNext fun data => ?_
    rw [State.setReq_sendOk]
    split <;> rfl
  · unfold apAckReceive
    rw [State.setReq_recvAnswer]
    split
    · rfl
    · exact memWrite_eq_mapNext fun m => rfl
  · rfl

theorem commutes_decode : Commutes q s (exec .decode) := by
  unfold Commutes
  cases st : s.st <;> simp only [exec, execDecode, execParamByte, State.setReq_st, st]
  case idle | done => exact commutes_issueCommand same .decode .dec
  case dec =>
    rw [State.setReq_req, same.inByte]
    exact need_eq_mapNext fun b => commutes_decodeIndices _ _
  all_goals rfl

theorem commutes_encode : Commutes q s (exec .encode) := by
  unfold Commutes
  cases st : s.st <;> simp only [exec, execEncode, State.setReq_st, st]
  case idle | done => exact commutes_issueCommand same .encode .enc
  case enc =>
    rw [State.setReq_req, same.inFi, same.inDi, same.inFmax]
    exact need_eq_mapNext fun fi => need_eq_mapNext fun di => need_eq_mapNext fun fmax =>
      commutes_encodeParameters fi di fmax
  all_goals rfl

theorem commutes_parseAtr : Commutes q s (exec .parseAtr) := by
  unfold Commutes
  cases st : s.st <;> simp only [exec, execParseAtr, State.setReq_st, st]
  case idle | done => exact commutes_issueCommand same .parseAtr .atr
  case atr => exact commutes_atrStep same none none
  all_goals rfl

theorem commutes_negotiatePps : Commutes q s (exec .negotiatePps) := by
  unfold Commutes
  cases st : s.st <;> simp only [exec, execNegotiatePps, State.setReq_st, st]
  case idle | done => exact commutes_ppsIssue same
  case ppsSend => exact need_eq_mapNext fun frame => commutes_ppsSendFrame frame
  case ppsRecv => exact commutes_ppsReceive
  case ppsCheck => exact need_eq_mapNext fun response => commutes_ppsCompare response
  all_goals rfl

theorem commutes_apduExchange (notHdr : s.st ≠ .apHdr) : Commutes q s (exec .apduExchange) := by
  unfold Commutes
  cases st : s.st <;> simp only [exec, execApduExchange, State.setReq_st, st]
  case idle | done => exact commutes_issueCommand same .apduExchange .apCheck
  case apCheck => exact commutes_apCheck same
  case apHdr => exact absurd st notHdr
  case apProc => exact commutes_apProc same st
  case apAck => exact commutes_apAck same
  case apSw => exact commutes_apSw
  case apSw2 => exact commutes_apSw2
  all_goals rfl

theorem commutes_atrRow (ts : Option TsClass) (t0 : Option Bool) : Commutes q s fun s => inAtr s (atrStep ts t0 s) := by
  unfold Commutes
  cases st : s.st <;> simp only [inAtr, State.setReq_st, st]
  case atr => exact commutes_atrStep same ts t0
  all_goals rfl

omit same in
theorem commutes_pbRow {f : State → Result} (commutes : Commutes q s f) : Commutes q s fun s => inApProc s (f s) := by
  unfold Commutes
  cases st : s.st <;> simp only [inApProc, State.setReq_st, st]
  case apProc => exact commutes
  all_goals rfl

/-- R91, R147: outside `AP_HDR` every instruction does the same on requests that agree on its reads. -/
theorem commutes_exec (i : Instr) (notHdr : s.st ≠ .apHdr) : Commutes q s (exec i) := by
  cases i with
  | decode => exact commutes_decode same
  | encode => exact commutes_encode same
  | parseAtr => exact commutes_parseAtr same
  | negotiatePps => exact commutes_negotiatePps same
  | apduExchange => exact commutes_apduExchange same notHdr
  | paramByte f d =>
    unfold Commutes
    cases st : s.st <;> simp only [exec, execParamByte, State.setReq_st, st]
    case dec => exact commutes_decodeIndices f d
    all_goals rfl
  | tsDirect | tsInverse | tsInvalid _ | t0Ta1Present _ _ | t0Ta1Absent _ _ => exact commutes_atrRow same _ _
  | ppsFrame p =>
    unfold Commutes
    cases st : s.st <;> simp only [exec, execPpsFrame, State.setReq_st, st]
    case ppsSend => exact commutes_ppsSendFrame _
    case ppsCheck => exact commutes_ppsCompare _
    all_goals rfl
  | pbNull => exact commutes_pbRow (f := .next) rfl
  | pbAck ins =>
    exact commutes_pbRow (f := fun s => .next ((s.goto .apAck).setWork { s.work with pb := some ins })) rfl
  | pbSw16x lo => exact commutes_pbRow (commutes_sw1Byte same _)
  | pbSw19x lo => exact commutes_pbRow (commutes_sw1Byte same _)
  | pbInvalid b => exact commutes_pbRow (f := raise .invalidProcedureByte) rfl

end

/-- Settles O43: the request with another P3 agrees on everything read outside `AP_HDR`. -/
theorem p3IsOnlyTransmitted : Obligations.P3IsOnlyTransmitted := by
  intro s p3 q3 i t written notHdr h
  have read (j : Nat) (other : j ≠ 4) : (s.req.txBuf.write 4 q3).read j = s.req.txBuf.read j := by
    rw [Memory.read_write, if_neg other]
  have same : Request.SameReads { s.req with txBuf := s.req.txBuf.write 4 q3 } s.req :=
    { inByte := rfl, inFi := rfl, inDi := rfl, inFmax := rfl, atrLen := rfl, pps1 := rfl, txLen := rfl, rxLen := rfl
      atr := fun _ _ => rfl
      ins := read 1 (by decide)
      data := fun n => Memory.readBytes_congr fun j _ => read (5 + j) (by omega)
      written := fun n => Bool.eq_iff_iff.2 (by
        rw [Memory.readBytes_isSome, Memory.readBytes_isSome]
        refine forall₂_congr fun j _ => ?_
        rw [Memory.read_write]
        split_ifs with atP3
        · simp [atP3, written]
        · rfl) }
  have commutes : exec i (s.setReq { s.req with txBuf := s.req.txBuf.write 4 q3 }) = _ := commutes_exec same i notHdr
  refine commutes.trans ?_
  rw [h, exec_req h]
  rfl

/-- Settles O27: an ATR with the same first three bytes agrees on everything read in `ATR`. -/
theorem parseAtrReadsThreeBytes : Obligations.ParseAtrReadsThreeBytes := by
  intro s m st first
  have same : Request.SameReads { s.req with atrBuf := m } s.req :=
    { inByte := rfl, inFi := rfl, inDi := rfl, inFmax := rfl, atrLen := rfl, pps1 := rfl, txLen := rfl, rxLen := rfl
      atr := first
      ins := rfl
      data := fun _ => rfl
      written := fun _ => rfl }
  have commutes : exec .parseAtr (s.setReq { s.req with atrBuf := m }) = _ :=
    commutes_exec same .parseAtr (by rw [st]; nofun)
  exact ⟨fun t h => commutes.trans (by rw [h]; rfl), fun f h => commutes.trans (by rw [h]; rfl)⟩

end Sys2Proof.Machine
end

section
/-! The byte formats as instructions (log 9): where each has its effect, and that a command's step is that of the byte it
examines. -/

namespace Sys2Proof.Machine

/-! ## Outside their states -/

theorem inAtr_of_ne {s : State} (other : s.st ≠ .atr) (r : Result) : inAtr s r = .refused .noSuchEvent := by
  unfold inAtr
  split
  · next st => exact absurd st other
  · rfl

theorem inApProc_of_ne {s : State} (other : s.st ≠ .apProc) (r : Result) : inApProc s r = .refused .noSuchEvent := by
  unfold inApProc
  split
  · next st => exact absurd st other
  · rfl

/-- In a busy state of another operation a command is refused (R25). -/
theorem command_refused {s : State} (busy : s.busy = true) :
    (s.st ≠ .dec → exec .decode s = refuseBusy) ∧ (s.st ≠ .enc → exec .encode s = refuseBusy) ∧
    (s.st ≠ .atr → exec .parseAtr s = refuseBusy) ∧
    (s.st ≠ .ppsSend → s.st ≠ .ppsRecv → s.st ≠ .ppsCheck → exec .negotiatePps s = refuseBusy) ∧
    (s.st ≠ .apCheck → s.st ≠ .apHdr → s.st ≠ .apProc → s.st ≠ .apAck → s.st ≠ .apSw → s.st ≠ .apSw2 →
      exec .apduExchange s = refuseBusy) := by
  unfold State.busy at busy
  simp only [exec, execDecode, execEncode, execParseAtr, execNegotiatePps, execApduExchange]
  cases st : s.st <;> simp [st, St.busy] at busy ⊢

/-- Settles O59: a row's meaning is guarded by the states that read its byte, and a command's by those of its operation. -/
theorem instructionsOutsideTheirStates : Obligations.InstructionsOutsideTheirStates := by
  intro s i j b hi
  refine ⟨fun other => ?_, fun other => ?_, fun notSend notCheck => ?_, fun other => ?_, command_refused⟩
  · simp only [exec, execParamByte]
  · exact ⟨inAtr_of_ne other _, inAtr_of_ne other _, inAtr_of_ne other _, inAtr_of_ne other _, inAtr_of_ne other _⟩
  · simp only [exec, execPpsFrame]
  · exact ⟨inApProc_of_ne other _, inApProc_of_ne other _, inApProc_of_ne other _, inApProc_of_ne other _,
      inApProc_of_ne other _⟩

/-! ## In their states -/

theorem atrStep_congr {s : State} {ts ts' : Option TsClass} {t0 t0' : Option Bool} (sameTs : s.atrTs ts = s.atrTs ts')
    (sameT0 : s.atrT0 t0 = s.atrT0 t0') : atrStep ts t0 s = atrStep ts' t0' s := by
  rw [State.atrTs, State.atrTs] at sameTs
  rw [State.atrT0, State.atrT0] at sameT0
  have afterTs (n : Nat) : atrAfterTs n t0 s = atrAfterTs n t0' s := by
    funext conv
    rw [atrAfterTs, atrAfterTs, sameT0]
  simp only [atrStep, sameTs, afterTs]

theorem exec_tsInstr {s : State} (st : s.st = .atr) (ts : Byte) :
    exec (tsInstr ts) s = atrStep (some (tsClass ts)) none s := by
  unfold tsInstr
  cases tsClass ts <;> exact inAtr_of_st st _

theorem exec_t0Instr {s : State} (st : s.st = .atr) (t0 : Byte) :
    exec (t0Instr t0) s = atrStep none (some (t0DeclaresTa1 t0)) s := by
  unfold t0Instr
  cases t0DeclaresTa1 t0 <;> exact inAtr_of_st st _

theorem exec_pbInstr (ins b : Byte) (s : State) : exec (pbInstr ins b) s = procedureByte ins b s := by
  unfold pbInstr procedureByte
  cases pbClass ins b <;> rfl

/-- What decodes as a PPS frame is one. -/
theorem frame_of_decode {frame : List Byte} {i : Instr} (decoded : decode .ppsFrame frame = .ok i []) :
    ∃ p, i = .ppsFrame p ∧ frame = ppsFrameBytes p := by
  obtain ⟨wf, spelled⟩ := encodeOfDecodeIsIdentity .ppsFrame frame i [] decoded
  cases i <;> simp only [Instr.wfIn, Instr.fits, Bool.and_false, Bool.false_eq_true] at wf
  case ppsFrame p => exact ⟨p, rfl, by rw [← spelled, List.append_nil, encode]⟩

/-- Settles O7: the step of each reading state is the row's, on the byte or frame it examines. -/
theorem examinedBytesRunTheirFormat : Obligations.ExaminedBytesRunTheirFormat := by
  intro s b i
  refine ⟨fun st inByte decoded => ?_, fun st read decoded => ?_, fun st read decoded => ?_,
    fun frame st read decoded => ?_, fun frame st read decoded => ?_, fun ins st received read decoded => ?_⟩
  · obtain ⟨rfl, -⟩ := Decoded.ok.inj decoded
    rw [exec_decode_dec st inByte]
    simp only [exec, execParamByte, st]
  · obtain ⟨rfl, -⟩ := Decoded.ok.inj decoded
    rw [exec_parseAtr_atr st, exec_tsInstr st]
    exact atrStep_congr (State.atrTs_of_read read) rfl
  · obtain ⟨rfl, -⟩ := Decoded.ok.inj decoded
    rw [exec_parseAtr_atr st, exec_t0Instr st, t0DeclaresTa1_eq_getLsbD]
    exact atrStep_congr rfl (State.atrT0_of_read read)
  · obtain ⟨p, rfl, rfl⟩ := frame_of_decode decoded
    rw [exec_negotiatePps_ppsSend st read]
    simp only [exec, execPpsFrame, st]
  · obtain ⟨p, rfl, rfl⟩ := frame_of_decode decoded
    rw [exec_negotiatePps_ppsCheck st read]
    simp only [exec, execPpsFrame, st]
  · obtain ⟨rfl, -⟩ := Decoded.ok.inj decoded
    rw [exec_apduExchange_apProc st, exec_pbInstr, apProc, received]
    simp only [needIns, read, need_some]

end Sys2Proof.Machine
end
